-- ==== Sys2Proof/Word.lean ====
section
/-! DEFINITION. The word types of the CORE (spec 00_scope R6, R7). -/

namespace Sys2Proof

/-- A value of `sW` with `W = 32` (R6, R7): 32 bits read as two's complement by `BitVec.toInt`. -/
abbrev SW := BitVec 32

/-- A `u32`: the event word, `now`, `TX.dl` (R35, R13, R42). -/
abbrev U32 := BitVec 32

/-- A `u8`: one byte of a message (R41). -/
abbrev Byte := BitVec 8

end Sys2Proof
end

