-- ==== Sys2Proof/Syntax.lean ====
section
/-! DEFINITION. The operations of the CORE as syntax: one constructor of `Instr` per row of
spec/opcode_table.json (spec 30_encoding R94, R95), with the operands of its signature. -/

namespace Sys2Proof

/-- The shift registers that an operation pushes (20_memory R61). `FIR.k` is not among them: it is
constant and "no operation pushes to it" (10_state R23). -/
inductive Win where
  | firX
  | bdRaw
  | bdAb
  | udPh
deriving DecidableEq, Repr

/-- The shift registers that SR.AT and SR.CONV can read (R61): the pushed ones and `FIR.k`. -/
inductive SReg where
  | win (w : Win)
  | firK
deriving DecidableEq, Repr

/-- The control agent's data ports at one tick (R92): `now`, `tx_hw_idle`, `req`, `ext_coll`. A
request `Some(len, bytes)` is the list of its bytes; `len` is the list's length. -/
structure CtlIn where
  now : U32
  txHwIdle : Bool
  req : Option (List Byte)
  extColl : Bool
deriving DecidableEq, Repr

/-- The operations (R94, R95). A sample or probability operand is a port or register value of `sW`;
the value pushed by SR.PUSH and the index of SR.AT are integers, because their rules (R121, R122)
say what happens outside the type and outside the space. -/
inductive Instr where
  -- ACQ_STROBE
  | acqReset
  | acqOverrun
  | acqSample (x : SW)
  | acqNop
  -- CTL_STROBE
  | ctlReset
  | ctlTick (i : CtlIn)
  | ctlNop
  -- CALL
  | srPush (w : Win) (v : Int)
  | srAt (r : SReg) (i : Int)
  | srConv (a b : SReg)
  | firUpdate (x : SW)
  | rsUpdate (x : SW)
  | dcUpdate (x : SW)
  | lvUpdate (x : SW)
  | bdUpdate (x : SW)
  | udUpdate (p : SW)
  | udReceiving
  | udPhaseSearch
  | lbUpdate (rcv : Bool)
  | xcPush (w : U32)
  | xcPop
  | xcTakeOvf
  | txTick (i : CtlIn) (ev : U32)
  -- UD_STATE
  | udWaitIdle (p : SW)
  | udWaitStart (p : SW)
  | udData (p : SW)
  | udStop (p : SW)
  -- TX_STATE
  | txIdle (i : CtlIn) (ev : U32)
  | txIdleWaitLineFree (i : CtlIn) (ev : U32)
  | txWaitPowerOn (i : CtlIn) (ev : U32)
  | txStartedWaitForBusy (i : CtlIn) (ev : U32)
  | txRunningCheckData (i : CtlIn) (ev : U32)
  | txRunningWaitForIdle (i : CtlIn) (ev : U32)
deriving DecidableEq, Repr

end Sys2Proof
end

