-- ==== Sys2Proof/WellFormed.lean ====
section
/-! DEFINITION. Which operations are well formed: every operand is a value of the type its
signature gives it (spec 30_encoding R92, R95). The operands that are not already bounded by their
Lean type are the pushed value, the index of SR.AT and the length of a request. -/

namespace Sys2Proof

/-- `v` is in `sW`, `-2^31 .. 2^31 - 1` (R7). -/
abbrev InSW (v : Int) : Prop := -2147483648 ≤ v ∧ v < 2147483648

/-- Why an operation is ill formed. -/
inductive IllFormed where
  /-- The value of SR.PUSH is not in `sW` (R121). -/
  | pushedValue
  /-- The index of SR.AT does not fit the operand word of a line (assumption log 3). -/
  | index
  /-- The request is longer than a `u8` length can say (R92). -/
  | requestLength
deriving DecidableEq, Repr

/-- A request's length is a `u8` (R92). -/
def CtlIn.wf (i : CtlIn) : Bool :=
  match i.req with
  | none => true
  | some bs => decide (bs.length < 256)

/-- The check, by name. -/
def Instr.illFormed : Instr → Option IllFormed
  | .srPush _ v => if InSW v then none else some .pushedValue
  | .srAt _ i => if InSW i then none else some .index
  | .ctlTick i => if i.wf then none else some .requestLength
  | .txTick i _ => if i.wf then none else some .requestLength
  | .txIdle i _ => if i.wf then none else some .requestLength
  | .txIdleWaitLineFree i _ => if i.wf then none else some .requestLength
  | .txWaitPowerOn i _ => if i.wf then none else some .requestLength
  | .txStartedWaitForBusy i _ => if i.wf then none else some .requestLength
  | .txRunningCheckData i _ => if i.wf then none else some .requestLength
  | .txRunningWaitForIdle i _ => if i.wf then none else some .requestLength
  | .acqReset | .acqOverrun | .acqSample _ | .acqNop | .ctlReset | .ctlNop => none
  | .srConv _ _ | .firUpdate _ | .rsUpdate _ | .dcUpdate _ | .lvUpdate _ | .bdUpdate _ => none
  | .udUpdate _ | .udReceiving | .udPhaseSearch | .lbUpdate _ | .xcPush _ | .xcPop => none
  | .xcTakeOvf | .udWaitIdle _ | .udWaitStart _ | .udData _ | .udStop _ => none

/-- The operation is well formed. -/
def Instr.wf (i : Instr) : Bool := i.illFormed.isNone

end Sys2Proof
end

