-- ==== Sys2Proof/Decode.lean ====
section
/-! DEFINITION. Reading an operation from the words of a stimulus line, and writing them (spec
30_encoding R94, R95, R99, R100, and spec/opcode_table.json).

A line is a list of 32-bit words (the line's layout is the model's own, assumption log 3). Word 0
selects: bits 7:0 are the code (a strobe vector, a CALL id or a state code), bits 31:8 name the
format: 1 ACQ_STROBE, 2 CTL_STROBE, 3 CALL, 4 UD_STATE, 5 TX_STATE, and 0 for a bare table word that
names none (assumption log 4). The words after it are the operands, one port value a word, in the
order of the signature; a missing word reads 0. -/

namespace Sys2Proof

/-- The five formats of R94 and R95: five separate code spaces. -/
inductive Format where
  | acqStrobe
  | ctlStrobe
  | call
  | udState
  | txState
deriving DecidableEq, Repr

/-- The rows of spec/opcode_table.json, in its order. -/
inductive Op where
  | acqReset | acqOverrun | acqSample | acqNop
  | ctlReset | ctlTick | ctlNop
  | srPush | srAt | srConv | firUpdate | rsUpdate | dcUpdate | lvUpdate | bdUpdate
  | udUpdate | udReceiving | udPhaseSearch | lbUpdate
  | xcPush | xcPop | xcTakeOvf | txTick
  | udWaitIdle | udWaitStart | udData | udStop
  | txIdle | txIdleWaitLineFree | txWaitPowerOn | txStartedWaitForBusy
  | txRunningCheckData | txRunningWaitForIdle
deriving DecidableEq, Repr

/-- Why a line is no operation of R94 or R95. -/
inductive Reject where
  /-- The line has no word. -/
  | emptyLine
  /-- Bits 31:8 of word 0 name no format. -/
  | unknownFormat
  /-- No row of the named format has this code: a CALL id that R95 does not list, a TX_STATE code 6
  or 7 (R104 b), a code wider than the format. -/
  | unknownCode
  /-- More words than the operation has operands. -/
  | extraWords
  /-- A bool operand is neither 0 nor 1 (R7). -/
  | badBool
  /-- A shift-register operand names no register of R61 that the operation can use. -/
  | badRegister
  /-- A request's length does not fit `u8` (R92). -/
  | badLength
  /-- A request's byte does not fit `u8` (R92). -/
  | badByte
deriving DecidableEq, Repr

/-- One row of the table: format, width in bits, mask and match value. -/
structure Row where
  format : Format
  width : Nat
  mask : BitVec 8
  value : BitVec 8
deriving DecidableEq, Repr

/-- The row of each operation: the strobe vectors of R94, the CALL ids of R95, the state codes of
R99 and R100. -/
def opRow : Op → Row
  | .acqReset => ⟨.acqStrobe, 3, 0x4, 0x4⟩
  | .acqOverrun => ⟨.acqStrobe, 3, 0x6, 0x2⟩
  | .acqSample => ⟨.acqStrobe, 3, 0x7, 0x1⟩
  | .acqNop => ⟨.acqStrobe, 3, 0x7, 0x0⟩
  | .ctlReset => ⟨.ctlStrobe, 2, 0x2, 0x2⟩
  | .ctlTick => ⟨.ctlStrobe, 2, 0x3, 0x1⟩
  | .ctlNop => ⟨.ctlStrobe, 2, 0x3, 0x0⟩
  | .srPush => ⟨.call, 8, 0xFF, 0x01⟩
  | .srAt => ⟨.call, 8, 0xFF, 0x02⟩
  | .srConv => ⟨.call, 8, 0xFF, 0x03⟩
  | .firUpdate => ⟨.call, 8, 0xFF, 0x10⟩
  | .rsUpdate => ⟨.call, 8, 0xFF, 0x11⟩
  | .dcUpdate => ⟨.call, 8, 0xFF, 0x12⟩
  | .lvUpdate => ⟨.call, 8, 0xFF, 0x13⟩
  | .bdUpdate => ⟨.call, 8, 0xFF, 0x14⟩
  | .udUpdate => ⟨.call, 8, 0xFF, 0x15⟩
  | .udReceiving => ⟨.call, 8, 0xFF, 0x16⟩
  | .udPhaseSearch => ⟨.call, 8, 0xFF, 0x17⟩
  | .lbUpdate => ⟨.call, 8, 0xFF, 0x18⟩
  | .xcPush => ⟨.call, 8, 0xFF, 0x20⟩
  | .xcPop => ⟨.call, 8, 0xFF, 0x21⟩
  | .xcTakeOvf => ⟨.call, 8, 0xFF, 0x22⟩
  | .txTick => ⟨.call, 8, 0xFF, 0x30⟩
  | .udWaitIdle => ⟨.udState, 2, 0x3, 0x0⟩
  | .udWaitStart => ⟨.udState, 2, 0x3, 0x1⟩
  | .udData => ⟨.udState, 2, 0x3, 0x2⟩
  | .udStop => ⟨.udState, 2, 0x3, 0x3⟩
  | .txIdle => ⟨.txState, 3, 0x7, 0x0⟩
  | .txIdleWaitLineFree => ⟨.txState, 3, 0x7, 0x1⟩
  | .txWaitPowerOn => ⟨.txState, 3, 0x7, 0x2⟩
  | .txStartedWaitForBusy => ⟨.txState, 3, 0x7, 0x3⟩
  | .txRunningCheckData => ⟨.txState, 3, 0x7, 0x4⟩
  | .txRunningWaitForIdle => ⟨.txState, 3, 0x7, 0x5⟩

/-- Every row, in the table's order. -/
def allOps : List Op :=
  [.acqReset, .acqOverrun, .acqSample, .acqNop, .ctlReset, .ctlTick, .ctlNop] ++
  [.srPush, .srAt, .srConv, .firUpdate, .rsUpdate, .dcUpdate, .lvUpdate, .bdUpdate] ++
  [.udUpdate, .udReceiving, .udPhaseSearch, .lbUpdate, .xcPush, .xcPop, .xcTakeOvf, .txTick] ++
  [.udWaitIdle, .udWaitStart, .udData, .udStop] ++
  [.txIdle, .txIdleWaitLineFree, .txWaitPowerOn, .txStartedWaitForBusy] ++
  [.txRunningCheckData, .txRunningWaitForIdle]

/-- The code matches the row: it is no wider than the row and agrees with it where the mask is 1. -/
def Row.accepts (r : Row) (code : BitVec 8) : Bool :=
  decide (code.toNat < 2 ^ r.width) && (code &&& r.mask == r.value)

/-- The number a line's word 0 names a format by. -/
def formatCode : Format → Nat
  | .acqStrobe => 1
  | .ctlStrobe => 2
  | .call => 3
  | .udState => 4
  | .txState => 5

/-- The row of the format whose code this is (R94, R95, R99, R100). -/
def selectIn (f : Nat) (code : BitVec 8) : Option Op :=
  allOps.find? fun o => formatCode (opRow o).format == f && (opRow o).accepts code

/-- A table word that names no format: the first row, in the table's order, whose match value it is;
else the first row that accepts it (assumption log 4). -/
def selectBare (code : BitVec 8) : Option Op :=
  match allOps.find? fun o => (opRow o).value == code with
  | some o => some o
  | none => allOps.find? fun o => (opRow o).accepts code

/-- The operation that word 0 of a line selects. -/
def selectOp (head : U32) : Except Reject Op :=
  let f := head.toNat / 256
  let code := BitVec.ofNat 8 head.toNat
  if 5 < f then .error .unknownFormat
  else match (if f = 0 then selectBare code else selectIn f code) with
    | some o => .ok o
    | none => .error .unknownCode

/-- Word 0 of the operation: its format and its match value. -/
def headWord (o : Op) : U32 :=
  BitVec.ofNat 32 (256 * formatCode (opRow o).format + (opRow o).value.toNat)

/-- Operand word `k`; a missing word reads 0. -/
def operand (ws : List U32) (k : Nat) : U32 := ws.getD k 0

/-- The first `n` words, missing ones read as 0. -/
def takeWords : Nat → List U32 → List U32
  | 0, _ => []
  | n + 1, [] => 0 :: takeWords n []
  | n + 1, w :: ws => w :: takeWords n ws

/-- At most `n` operand words. -/
def atMost (n : Nat) (ws : List U32) : Except Reject Unit :=
  if ws.length ≤ n then .ok () else .error .extraWords

/-- A bool operand: 0 or 1 (R7). -/
def boolOf (w : U32) : Except Reject Bool :=
  if w = 0 then .ok false else if w = 1 then .ok true else .error .badBool

/-- The operand word of a bool. -/
def boolWord (b : Bool) : U32 := if b then 1 else 0

/-- The number of a pushed shift register in an operand word (assumption log 3). -/
def winCode : Win → U32
  | .firX => 0
  | .bdRaw => 1
  | .bdAb => 2
  | .udPh => 3

/-- The pushed shift register of an operand word. -/
def winOf (w : U32) : Except Reject Win :=
  if w = 0 then .ok .firX
  else if w = 1 then .ok .bdRaw
  else if w = 2 then .ok .bdAb
  else if w = 3 then .ok .udPh
  else .error .badRegister

/-- The number of a readable shift register in an operand word (assumption log 3). -/
def sregCode : SReg → U32
  | .win w => winCode w
  | .firK => 4

/-- The readable shift register of an operand word. -/
def sregOf (w : U32) : Except Reject SReg :=
  if w = 4 then .ok .firK
  else match winOf w with
    | .ok r => .ok (.win r)
    | .error e => .error e

/-- One byte operand (R92). -/
def byteOf (w : U32) : Except Reject Byte :=
  if w.toNat < 256 then .ok (BitVec.ofNat 8 w.toNat) else .error .badByte

/-- The bytes of a request. -/
def bytesOf : List U32 → Except Reject (List Byte)
  | [] => .ok []
  | w :: ws =>
    match byteOf w, bytesOf ws with
    | .ok b, .ok bs => .ok (b :: bs)
    | .error e, _ => .error e
    | .ok _, .error e => .error e

/-- The `req` port (R92) from its words: a presence word, then the length, then one word a byte. -/
def reqOf (ws : List U32) : Except Reject (Option (List Byte)) :=
  match boolOf (operand ws 0) with
  | .error e => .error e
  | .ok false =>
    match atMost 1 ws with
    | .ok _ => .ok none
    | .error e => .error e
  | .ok true =>
    let len := (operand ws 1).toNat
    if 256 ≤ len then .error .badLength
    else match atMost (2 + len) ws with
      | .error e => .error e
      | .ok _ =>
        match bytesOf (takeWords len (ws.drop 2)) with
        | .ok bs => .ok (some bs)
        | .error e => .error e

/-- The words of the `req` port. -/
def reqWords : Option (List Byte) → List U32
  | none => [0]
  | some bs => 1 :: BitVec.ofNat 32 bs.length :: bs.map (fun b => BitVec.ofNat 32 b.toNat)

/-- The control ports (R92) from their words: `now`, `tx_hw_idle`, `ext_coll`, `req`. -/
def ctlInOf (ws : List U32) : Except Reject CtlIn :=
  match boolOf (operand ws 1), boolOf (operand ws 2), reqOf (ws.drop 3) with
  | .ok h, .ok c, .ok r => .ok { now := operand ws 0, txHwIdle := h, req := r, extColl := c }
  | .error e, _, _ => .error e
  | .ok _, .error e, _ => .error e
  | .ok _, .ok _, .error e => .error e

/-- The words of the control ports. -/
def ctlInWords (i : CtlIn) : List U32 :=
  i.now :: boolWord i.txHwIdle :: boolWord i.extColl :: reqWords i.req

/-- An operation without operands. -/
def noOperand (i : Instr) (ws : List U32) : Except Reject Instr :=
  match atMost 0 ws with
  | .ok _ => .ok i
  | .error e => .error e

/-- An operation of one word. -/
def oneWord (f : U32 → Instr) (ws : List U32) : Except Reject Instr :=
  match atMost 1 ws with
  | .ok _ => .ok (f (operand ws 0))
  | .error e => .error e

/-- An operation of the tick: `ev` in the first word, then the control ports. -/
def tickOperands (f : CtlIn → U32 → Instr) (ws : List U32) : Except Reject Instr :=
  match ctlInOf (ws.drop 1) with
  | .ok i => .ok (f i (operand ws 0))
  | .error e => .error e

/-- The operation with its operands read. On the strobe formats the data ports stand beside the
strobes whatever they select, and are read only by the operation that uses them (R91, R94: "a sample
presented with overrun is discarded"). -/
def withOperands (o : Op) (ws : List U32) : Except Reject Instr :=
  match o with
  | .acqReset => oneWord (fun _ => .acqReset) ws
  | .acqOverrun => oneWord (fun _ => .acqOverrun) ws
  | .acqSample => oneWord (fun x => .acqSample x) ws
  | .acqNop => oneWord (fun _ => .acqNop) ws
  | .ctlReset => .ok .ctlReset
  | .ctlTick =>
    match ctlInOf ws with
    | .ok i => .ok (.ctlTick i)
    | .error e => .error e
  | .ctlNop => .ok .ctlNop
  | .srPush =>
    match atMost 2 ws, winOf (operand ws 0) with
    | .ok _, .ok w => .ok (.srPush w (operand ws 1).toInt)
    | .error e, _ => .error e
    | .ok _, .error e => .error e
  | .srAt =>
    match atMost 2 ws, sregOf (operand ws 0) with
    | .ok _, .ok r => .ok (.srAt r (operand ws 1).toInt)
    | .error e, _ => .error e
    | .ok _, .error e => .error e
  | .srConv =>
    match atMost 2 ws, sregOf (operand ws 0), sregOf (operand ws 1) with
    | .ok _, .ok a, .ok b => .ok (.srConv a b)
    | .error e, _, _ => .error e
    | .ok _, .error e, _ => .error e
    | .ok _, .ok _, .error e => .error e
  | .firUpdate => oneWord (fun x => .firUpdate x) ws
  | .rsUpdate => oneWord (fun x => .rsUpdate x) ws
  | .dcUpdate => oneWord (fun x => .dcUpdate x) ws
  | .lvUpdate => oneWord (fun x => .lvUpdate x) ws
  | .bdUpdate => oneWord (fun x => .bdUpdate x) ws
  | .udUpdate => oneWord (fun p => .udUpdate p) ws
  | .udReceiving => noOperand .udReceiving ws
  | .udPhaseSearch => noOperand .udPhaseSearch ws
  | .lbUpdate =>
    match atMost 1 ws, boolOf (operand ws 0) with
    | .ok _, .ok b => .ok (.lbUpdate b)
    | .error e, _ => .error e
    | .ok _, .error e => .error e
  | .xcPush => oneWord (fun w => .xcPush w) ws
  | .xcPop => noOperand .xcPop ws
  | .xcTakeOvf => noOperand .xcTakeOvf ws
  | .txTick => tickOperands .txTick ws
  | .udWaitIdle => oneWord (fun p => .udWaitIdle p) ws
  | .udWaitStart => oneWord (fun p => .udWaitStart p) ws
  | .udData => oneWord (fun p => .udData p) ws
  | .udStop => oneWord (fun p => .udStop p) ws
  | .txIdle => tickOperands .txIdle ws
  | .txIdleWaitLineFree => tickOperands .txIdleWaitLineFree ws
  | .txWaitPowerOn => tickOperands .txWaitPowerOn ws
  | .txStartedWaitForBusy => tickOperands .txStartedWaitForBusy ws
  | .txRunningCheckData => tickOperands .txRunningCheckData ws
  | .txRunningWaitForIdle => tickOperands .txRunningWaitForIdle ws

/-- The operation of a line: total on any words, rejecting by name. -/
def decode : List U32 → Except Reject Instr
  | [] => .error .emptyLine
  | head :: ws =>
    match selectOp head with
    | .ok o => withOperands o ws
    | .error e => .error e

/-- The row of an operation. -/
def opOf : Instr → Op
  | .acqReset => .acqReset
  | .acqOverrun => .acqOverrun
  | .acqSample _ => .acqSample
  | .acqNop => .acqNop
  | .ctlReset => .ctlReset
  | .ctlTick _ => .ctlTick
  | .ctlNop => .ctlNop
  | .srPush _ _ => .srPush
  | .srAt _ _ => .srAt
  | .srConv _ _ => .srConv
  | .firUpdate _ => .firUpdate
  | .rsUpdate _ => .rsUpdate
  | .dcUpdate _ => .dcUpdate
  | .lvUpdate _ => .lvUpdate
  | .bdUpdate _ => .bdUpdate
  | .udUpdate _ => .udUpdate
  | .udReceiving => .udReceiving
  | .udPhaseSearch => .udPhaseSearch
  | .lbUpdate _ => .lbUpdate
  | .xcPush _ => .xcPush
  | .xcPop => .xcPop
  | .xcTakeOvf => .xcTakeOvf
  | .txTick _ _ => .txTick
  | .udWaitIdle _ => .udWaitIdle
  | .udWaitStart _ => .udWaitStart
  | .udData _ => .udData
  | .udStop _ => .udStop
  | .txIdle _ _ => .txIdle
  | .txIdleWaitLineFree _ _ => .txIdleWaitLineFree
  | .txWaitPowerOn _ _ => .txWaitPowerOn
  | .txStartedWaitForBusy _ _ => .txStartedWaitForBusy
  | .txRunningCheckData _ _ => .txRunningCheckData
  | .txRunningWaitForIdle _ _ => .txRunningWaitForIdle

/-- The operand words of an operation. -/
def operandWords : Instr → List U32
  | .acqReset | .acqOverrun | .acqNop | .ctlReset | .ctlNop => []
  | .udReceiving | .udPhaseSearch | .xcPop | .xcTakeOvf => []
  | .acqSample x => [x]
  | .ctlTick i => ctlInWords i
  | .srPush w v => [winCode w, BitVec.ofInt 32 v]
  | .srAt r i => [sregCode r, BitVec.ofInt 32 i]
  | .srConv a b => [sregCode a, sregCode b]
  | .firUpdate x | .rsUpdate x | .dcUpdate x | .lvUpdate x | .bdUpdate x => [x]
  | .udUpdate p | .udWaitIdle p | .udWaitStart p | .udData p | .udStop p => [p]
  | .lbUpdate rcv => [boolWord rcv]
  | .xcPush w => [w]
  | .txTick i ev | .txIdle i ev | .txIdleWaitLineFree i ev => ev :: ctlInWords i
  | .txWaitPowerOn i ev | .txStartedWaitForBusy i ev => ev :: ctlInWords i
  | .txRunningCheckData i ev | .txRunningWaitForIdle i ev => ev :: ctlInWords i

/-- The words of an operation: the line that presents it. -/
def encode (i : Instr) : List U32 := headWord (opOf i) :: operandWords i

/-- `k + 1` words of the number `w`, the least significant first. -/
def wordsFrom : Nat → Nat → List U32
  | 0, w => [BitVec.ofNat 32 w]
  | k + 1, w => BitVec.ofNat 32 w :: wordsFrom k (w / 2 ^ 32)

/-- The line of a table word: the low `nbits` bits of `w`, in 32-bit words, first word first. -/
def tableLine (nbits w : Nat) : List U32 := wordsFrom ((nbits - 1) / 32) (w % 2 ^ nbits)

/-- The operation the decoder reads from a table word (numbered as spec/opcode_table.json numbers
its bits; the bits above are 0, so the word names no format: assumption log 4). -/
def decodeTableWord (nbits w : Nat) : Option Instr :=
  match decode (tableLine nbits w) with
  | .ok i => some i
  | .error _ => none

end Sys2Proof
end

