-- ==== Sys2Proof/Config.lean ====
section
/-! DEFINITION. The configuration CFG (spec 00_scope R6, 10_state R48): one read-only field per
parameter, at the type R48 gives it, and REFCFG, the spec's own reference configuration. The derived
constants and the check of R322 are in Sys2Proof/Machine/Params.lean. -/

namespace Sys2Proof

/-- `CFG.FIR_COEF[0..6]` (R6, R48); `k0` multiplies the oldest sample. -/
structure Coefs where
  k0 : SW
  k1 : SW
  k2 : SW
  k3 : SW
  k4 : SW
  k5 : SW
  k6 : SW
deriving DecidableEq, Repr

/-- CFG, at the types of the table of R48. A field may hold a value that R322 refuses: both resets
check (Fault(Config)). -/
structure Config where
  firCoef : Coefs
  firShift : BitVec 5
  rsDrop : BitVec 16
  dcA : BitVec 16
  dcQ : BitVec 4
  thHigh : SW
  thLow : SW
  attNum : BitVec 16
  attDen : BitVec 16
  osr : BitVec 9
  highLevel : SW
  lowLevel : SW
  errNum : BitVec 8
  parity : BitVec 2
  lineFreeChars : BitVec 8
  charTime : BitVec 31
  tWaitFree : BitVec 31
  tPowerOn : BitVec 31
  tStart : BitVec 31
  tByte : BitVec 31
  tWaitIdle : BitVec 31
  msgMax : BitVec 8
deriving DecidableEq, Repr

/-- REFCFG, the last column of the table of R6: the spec's own choice (decision D2). -/
def refCfg : Config where
  firCoef := ⟨1, 2, 3, 4, 3, 2, 1⟩
  firShift := 4
  rsDrop := 1
  dcA := 1019
  dcQ := 10
  thHigh := 500
  thLow := 250
  attNum := 1
  attDen := 10
  osr := 16
  highLevel := 1000
  lowLevel := 0
  errNum := 128
  parity := 1
  lineFreeChars := 11
  charTime := 1146
  tWaitFree := 19482
  tPowerOn := 20000
  tStart := 1146
  tByte := 2292
  tWaitIdle := 14898
  msgMax := 32

end Sys2Proof
end

