-- ==== Sys2Proof/Machine/Params.lean ====
section
/-! DEFINITION. The derived constants of a configuration (spec 00_scope R6, 43_uart_decoder R171,
42_bit_detector R161, 44_linebusy_channel R201) and the configuration check (70_reset R322). -/

namespace Sys2Proof.Machine

/-- `PAR` (R171): 0 if `PARITY = NONE` (code 0, R102), else 1. -/
def par (c : Config) : Nat := if c.parity = 0 then 0 else 1

/-- `SLOTS` (R171): start, 8 data bits, parity if any, stop. -/
def slots (c : Config) : Nat := 10 + par c

/-- `OSR` as a number. -/
def osr (c : Config) : Nat := c.osr.toNat

/-- `DATA_LEN` (R171): `SLOTS × OSR − OSR/2`. -/
def dataLen (c : Config) : Nat := slots c * osr c - osr c / 2

/-- `RX_THRESH` (R161): `floor((OSR/2) × (HIGH_LEVEL − LOW_LEVEL) × (256 − ERR_NUM) / 256)`. -/
def rxThresh (c : Config) : Int :=
  ((osr c / 2 : Nat) : Int) * (c.highLevel.toInt - c.lowLevel.toInt) * (256 - (c.errNum.toNat : Int)) / 256

/-- `IDLE_TIMEOUT` (R201): `LINE_FREE_CHARS × SLOTS × OSR` processed samples. -/
def idleTimeout (c : Config) : Nat := c.lineFreeChars.toNat * slots c * osr c

/-- `FIR.k` (10_state R23): the constant coefficient window, entry 0 first. -/
def firK (c : Config) : List SW :=
  [c.firCoef.k0, c.firCoef.k1, c.firCoef.k2, c.firCoef.k3, c.firCoef.k4, c.firCoef.k5, c.firCoef.k6]

/-- The conditions of R322, in its order; those that the types of R48 already give (a coefficient in
`sW`, `FIR_SHIFT < W`, `RS_DROP < 2^16`, `DC_Q <= 15`, `ERR_NUM <= 255`, a time bound below `2^31`,
`MSG_MAX <= 255`, a threshold below `2^31`) hold by type. -/
abbrev CfgLegal (c : Config) : Prop :=
  c.firCoef.k0 = c.firCoef.k6 ∧ c.firCoef.k1 = c.firCoef.k5 ∧ c.firCoef.k2 = c.firCoef.k4 ∧
  1 ≤ c.dcQ.toNat ∧ 0 < c.dcA.toNat ∧ c.dcA.toNat < 2 ^ c.dcQ.toNat ∧
  0 < c.thLow.toInt ∧ c.thLow.toInt ≤ c.thHigh.toInt ∧
  1 ≤ c.attDen.toNat ∧ c.attNum.toNat ≤ c.attDen.toNat ∧
  osr c % 2 = 0 ∧ 4 ≤ osr c ∧ osr c ≤ 256 ∧
  0 ≤ c.lowLevel.toInt ∧ c.lowLevel.toInt < c.highLevel.toInt ∧
  1 ≤ rxThresh c ∧
  c.parity.toNat ≤ 2 ∧
  1 ≤ c.lineFreeChars.toNat ∧ 1 ≤ c.charTime.toNat ∧
  1 ≤ c.tWaitFree.toNat ∧ 1 ≤ c.tPowerOn.toNat ∧ 1 ≤ c.tStart.toNat ∧
  1 ≤ c.tByte.toNat ∧ 1 ≤ c.tWaitIdle.toNat ∧
  1 ≤ c.msgMax.toNat

/-- The configuration check that both resets make (R322). -/
def cfgOk (c : Config) : Bool := decide (CfgLegal c)

end Sys2Proof.Machine
end

