-- ==== Sys2Proof/Machine/Regs.lean ====
section
/-! DEFINITION. The registers of the CORE as plain data, block by block (spec 10_state R22 to R46),
their codes (30_encoding R98 to R101), and their reset values (10_state R50). -/

namespace Sys2Proof.Machine

/-- `LV.st` (R26). -/
inductive LvState where
  | idle | high | low
deriving DecidableEq, Repr

/-- The codes of R101. -/
def LvState.code : LvState → BitVec 2
  | .idle => 0 | .high => 1 | .low => 2

/-- `UD.st` (R31). -/
inductive UdState where
  | waitIdle | waitStart | data | stop
deriving DecidableEq, Repr

/-- The codes of R99. -/
def UdState.code : UdState → BitVec 2
  | .waitIdle => 0 | .waitStart => 1 | .data => 2 | .stop => 3

/-- `TX.st` (R40). -/
inductive TxState where
  | idle | idleWaitLineFree | waitPowerOn | startedWaitForBusy | runningCheckData | runningWaitForIdle
deriving DecidableEq, Repr

/-- The codes of R100; 6 and 7 are no state. -/
def TxState.code : TxState → BitVec 3
  | .idle => 0 | .idleWaitLineFree => 1 | .waitPowerOn => 2
  | .startedWaitForBusy => 3 | .runningCheckData => 4 | .runningWaitForIdle => 5

/-- The status codes of R98; 6 and 7 are never produced. -/
inductive Status where
  | ok | collision | overflow | parity | noFraming | internal
deriving DecidableEq, Repr

/-- The numbers of R98. -/
def Status.code : Status → BitVec 3
  | .ok => 0 | .collision => 1 | .overflow => 2 | .parity => 3 | .noFraming => 4 | .internal => 5

/-- The decoded byte event (43_uart_decoder R170). -/
structure ByteEvent where
  data : Byte
  parityOk : Bool
  framingOk : Bool
deriving DecidableEq, Repr

/-- The control agent's actions on its environment (30_encoding R93). -/
inductive Action where
  | drvEnable (on : Bool)
  | txWrite (b : Byte)
  | txFlush
  | reqTaken
  | done (status : Status)
  | forward (word : U32)
  | report (status : Status)
deriving DecidableEq, Repr

/-- What an operation returns, by the signatures of 30_encoding R95. -/
inductive Ret where
  /-- No operation that returns a value has run. -/
  | none
  /-- SR.AT, SR.CONV, FIR.UPDATE, DC.UPDATE, LV.UPDATE, BD.UPDATE. -/
  | sample (v : SW)
  /-- RS.UPDATE. -/
  | optSample (v : Option SW)
  /-- UD.PHASE_SEARCH. -/
  | byteEvent (e : ByteEvent)
  /-- UD.UPDATE and its arms. -/
  | optByteEvent (e : Option ByteEvent)
  /-- UD.RECEIVING, XC.TAKE_OVF. -/
  | flag (b : Bool)
  /-- LB.UPDATE: `(busy_edge, free_edge)`. -/
  | edges (busyEdge freeEdge : Bool)
  /-- XC.POP. -/
  | optWord (w : Option U32)
deriving DecidableEq, Repr

/-- The acquisition agent's registers: FIR.x, RS.cnt, DC.*, LV.st, BD.*, UD.*, LB.* (R22 to R34).
A shift register is its window, oldest entry first (R21). -/
structure Acq where
  firX : List SW
  rsCnt : BitVec 16
  dcXp : SW
  dcYa : SW
  lvSt : LvState
  bdRaw : List SW
  bdAb : List SW
  udSt : UdState
  udCnt : BitVec 16
  udPh : List SW
  lbBusy : Bool
  lbPrev : Bool
  lbCnt : BitVec 32
deriving DecidableEq, Repr

/-- The cross-core channel XC (R35), the only state both agents touch. -/
structure Chan where
  full : Bool
  word : U32
  ovf : Bool
deriving DecidableEq, Repr

/-- The control agent's registers TX.* (R40 to R46). -/
structure Tx where
  st : TxState
  msg : List Byte
  len : BitVec 8
  off : BitVec 8
  dl : U32
  lineBusy : Bool
  coll : Bool
  err : Bool
  status : Status
  drv : Bool
deriving DecidableEq, Repr

/-- The acquisition column of R50: the values ACQ.RESET and ACQ.OVERRUN write. -/
def acqResetVals (c : Config) : Acq where
  firX := List.replicate 7 0
  rsCnt := 0
  dcXp := 0
  dcYa := 0
  lvSt := .idle
  bdRaw := List.replicate (osr c) 0
  bdAb := List.replicate (osr c) 0
  udSt := .waitIdle
  udCnt := 0
  udPh := List.replicate (dataLen c) 0
  lbBusy := false
  lbPrev := false
  lbCnt := 0

/-- The channel rows of R50: the values CTL.RESET writes. -/
def chanResetVals : Chan where
  full := false
  word := 0
  ovf := false

/-- The control rows of R50: the values CTL.RESET writes. -/
def txResetVals (c : Config) : Tx where
  st := .idle
  msg := List.replicate c.msgMax.toNat 0
  len := 0
  off := 0
  dl := 0
  lineBusy := false
  coll := false
  err := false
  status := .ok
  drv := false

end Sys2Proof.Machine
end

