-- ==== Sys2Proof/Machine/State.lean ====
section
/-! DEFINITION. The whole machine's state as plain data (spec 10_state), the reasons a step can stop
(00_scope R11, 70_reset R323), and the state after reset (10_state R50, 70_reset R320, R321). -/

namespace Sys2Proof.Machine

/-- Why the machine stops with a fault. The first three are the model faults of 00_scope R11 and
60_exceptions R280 (b); `raise Fault(kind)` writes no state. -/
inductive Fault where
  /-- A value to be written does not belong to its register's type (R8), a product or partial sum of
  SR.CONV leaves `sW` (R124), a window sum of BD.UPDATE leaves `sW` (U3, assumption log 22). Raised by
  SR.PUSH, SR.CONV, FIR.UPDATE, DC.UPDATE, BD.UPDATE and the operations that call them; by a counter
  only in states no run reaches. Safe: the rule says so. -/
  | overflow
  /-- An index outside an index space (R64). Raised by SR.AT; by the other readers only in states no
  run reaches. Safe: the rule says so. -/
  | index
  /-- A parameter outside its constraint, detected at reset (R322). Raised by ACQ.RESET and
  CTL.RESET; by the operations only where R322's refusal was by-passed (assumption log 13). Safe. -/
  | config
  /-- An operation of an agent before that agent's first reset: stuck (R323, U6). Raised by every
  operation but the two resets. Safe: the spec gives no step. -/
  | beforeReset
deriving DecidableEq, Repr

/-- Why a line has no meaning. -/
inductive Refusal where
  /-- Raised by `exec` for an operation whose meaning is not written; no arm answers it now. Safe. -/
  | notModelled (mnemonic : String)
  /-- Raised by `step`: the line is no operation of R94 or R95. Safe: there is no such encoding. -/
  | undecodable (why : Reject)
  /-- Raised by the arms of UD.UPDATE and TX.TICK run by name while their state register holds
  another code: "Exactly one arm runs per call", the one whose code equals it (R172, R232;
  assumption log 6). Safe: the spec gives no step. -/
  | armNotSelected
deriving DecidableEq, Repr

/-- The whole machine. `cfg` is CFG (R48); `acq`, `xc`, `tx` are the registers of the acquisition
agent, the channel and the control agent. The rest is the model's own: `acqUp`, `ctlUp` say which
agents have had their first reset (R323, assumption log 9); `out` is the list of actions emitted, in
order (R12, R106, log 8); `ret` is the last returned value (R95, log 7); `stim` is the list of
stimulus lines to come (R106, log 1). -/
structure State where
  cfg : Config
  acq : Acq
  xc : Chan
  tx : Tx
  acqUp : Bool
  ctlUp : Bool
  out : List Action
  ret : Ret
  stim : List (List U32)
deriving DecidableEq, Repr

/-- The state after CTL.RESET and then ACQ.RESET (R323) on the configuration `c`, with nothing
presented: every register at its value of R50, and the one action CTL.RESET emits (R321). -/
def State.resetOf (c : Config) : State where
  cfg := c
  acq := acqResetVals c
  xc := chanResetVals
  tx := txResetVals c
  acqUp := true
  ctlUp := true
  out := [.drvEnable false]
  ret := .none
  stim := []

/-- The machine right after reset, on REFCFG (R6, R50; assumption log 10). -/
def State.reset : State := State.resetOf refCfg

end Sys2Proof.Machine
end

