-- ==== Sys2Proof/Machine/Ops.lean ====
section
/-! DEFINITION. The shared operations: narrowing to a register's type (spec 00_scope R8), the two
divisions (R9), the index spaces (20_memory R61 to R64), the shift register (40_shiftreg_fir R121 to
R124), the channel (44_linebusy_channel R205 to R207), updates of the whole state, and `signal`, the
CORE's analogue of taking an exception (60_exceptions R288, 45_tx_arbiter R233) with the return
from it (R289). -/

namespace Sys2Proof.Machine

/-! ### Narrowing and division -/

/-- A write of the integer `v` to a place of type `sW`: `Fault(Overflow)` if it does not belong to
the type (R8). -/
def toS (v : Int) : Except Fault SW :=
  if InSW v then .ok (BitVec.ofInt 32 v) else .error .overflow

/-- A write of the integer `v` to a place of type `uN`: `Fault(Overflow)` if it does not belong to
the type (R8). -/
def toU (n : Nat) (v : Int) : Except Fault (BitVec n) :=
  if 0 ≤ v ∧ v < 2 ^ n then .ok (BitVec.ofInt n v) else .error .overflow

/-- `asr(v, s) = floor(v / 2^s)` (R9); on integers `/` by a positive number is the floor. -/
def asr (v : Int) (s : Nat) : Int := v / 2 ^ s

/-- `tdiv(v, d)`, division rounding toward zero (R9). -/
def tdiv (v d : Int) : Int := Int.tdiv v d

/-! ### Index spaces -/

/-- `MemRead(S, i)` (R10, R64). -/
def memRead {α : Type} (S : List α) (i : Int) : Except Fault α :=
  if i < 0 then .error .index
  else match S[i.toNat]? with
    | some v => .ok v
    | none => .error .index

/-- `MemWrite(S, i, v)` (R10, R64). -/
def memWrite {α : Type} (S : List α) (i : Int) (v : α) : Except Fault (List α) :=
  if i < 0 ∨ (S.length : Int) ≤ i then .error .index else .ok (S.set i.toNat v)

/-- The sum of the `n` entries of `S` from index `lo` on, exact; `Fault(Index)` if one of them is
outside the space (R64). -/
def sumAt (S : List SW) (lo n : Nat) : Except Fault Int :=
  if n = 0 ∨ lo + n ≤ S.length then .ok ((((S.drop lo).take n).map BitVec.toInt).sum)
  else .error .index

/-- A read of the outbound message: the index must be below `TX.len` (R41, R64). -/
def msgRead (t : Tx) (i : Nat) : Except Fault Byte :=
  if t.len.toNat ≤ i then .error .index else memRead t.msg i

/-- The bytes `TX.msg[0 .. TX.len − 1]` (R236). -/
def msgBytes (t : Tx) : Except Fault (List Byte) :=
  if t.len.toNat ≤ t.msg.length then .ok (t.msg.take t.len.toNat) else .error .index

/-- `for i in 0 .. len−1: MemWrite(TX.msg, i, bytes[i])` (R234). -/
def msgStore (msg bytes : List Byte) : Except Fault (List Byte) :=
  if bytes.length ≤ msg.length then .ok (bytes ++ msg.drop bytes.length) else .error .index

/-! ### The shift register -/

/-- SR.PUSH (R121, R63): the oldest entry leaves, `v` becomes the newest. A register of length 0 has
no entry `N−1` to write. -/
def srPush (S : List SW) (v : Int) : Except Fault (List SW) :=
  match toS v with
  | .error e => .error e
  | .ok w => match S with
    | [] => .error .index
    | _ :: rest => .ok (rest ++ [w])

/-- SR.AT (R122). -/
def srAt (S : List SW) (i : Int) : Except Fault SW := memRead S i

/-- The accumulation of SR.CONV from `acc` on, oldest entries first; each product and each partial
sum must lie in `sW` (R123, R124). -/
def convFrom (acc : SW) : List SW → List SW → Except Fault SW
  | a :: as, b :: bs =>
    match toS (a.toInt * b.toInt) with
    | .error e => .error e
    | .ok p =>
      match toS (acc.toInt + p.toInt) with
      | .error e => .error e
      | .ok acc' => convFrom acc' as bs
  | _, _ => .ok acc

/-- SR.CONV (R123): the dot product over the shorter length, aligned at the oldest entries. -/
def srConv (A B : List SW) : Except Fault SW := convFrom 0 A B

/-! ### The channel -/

/-- XC.PUSH (R205): a full slot keeps its word, and the overflow flag is set. -/
def chanPush (x : Chan) (w : U32) : Chan :=
  if x.full then { x with ovf := true } else { x with word := w, full := true }

/-- XC.POP (R206): the slot's word, and the slot empty. -/
def chanPop (x : Chan) : Chan × Option U32 :=
  if x.full then ({ x with full := false }, some x.word) else (x, none)

/-- XC.TAKE_OVF (R207): the flag read and cleared in one step. -/
def chanTakeOvf (x : Chan) : Chan × Bool := ({ x with ovf := false }, x.ovf)

/-! ### Updates of the whole state -/

/-- Writes to the acquisition agent's registers. -/
def State.withAcq (s : State) (a : Acq) : State := { s with acq := a }

/-- Writes to the channel. -/
def State.withXc (s : State) (x : Chan) : State := { s with xc := x }

/-- Writes to the control agent's registers. -/
def State.withTx (s : State) (t : Tx) : State := { s with tx := t }

/-- The returned value of an operation. -/
def State.withRet (s : State) (r : Ret) : State := { s with ret := r }

/-- `emit`, in order (R12). -/
def State.emit (s : State) (as : List Action) : State := { s with out := s.out ++ as }

/-- The outcome of an operation that ends in a next state or in a fault. -/
def outcome (r : Except Fault State) : Host.Outcome State Fault Refusal :=
  match r with
  | .ok s => .next s
  | .error e => .fault e

/-- An operation of the acquisition agent: stuck before its first reset (R323). -/
def acqOp (s : State) (r : Except Fault State) : Host.Outcome State Fault Refusal :=
  if s.acqUp then outcome r else .fault .beforeReset

/-- An operation of the control agent: stuck before its first reset (R323). -/
def ctlOp (s : State) (r : Except Fault State) : Host.Outcome State Fault Refusal :=
  if s.ctlUp then outcome r else .fault .beforeReset

/-- An arm of UD.UPDATE: it is selected while `UD.st` holds its code (R172). -/
def udArm (s : State) (st : UdState) (r : Except Fault State) : Host.Outcome State Fault Refusal :=
  if !s.acqUp then .fault .beforeReset
  else if s.acq.udSt = st then outcome r else .refused .armNotSelected

/-- An arm of TX.TICK: it is selected while `TX.st` holds its code (R232). -/
def txArm (s : State) (st : TxState) (r : Except Fault State) : Host.Outcome State Fault Refusal :=
  if !s.ctlUp then .fault .beforeReset
  else if s.tx.st = st then outcome r else .refused .armNotSelected

/-! ### `signal`: the analogue of taking an exception, and the return from it -/

/-- `arm(T)`: the deadline `(now + T) mod 2^32` (R13, R233). -/
def deadline (now : U32) (T : BitVec 31) : U32 := now + T.setWidth 32

/-- `seterr(code)`: the first error of an attempt wins (R233, R292). -/
def setErr (code : Status) (t : Tx) : Tx :=
  if t.err then t else { t with err := true, status := code }

/-- `to_idle` (R233): the attempt is over. -/
def toIdle (t : Tx) : Tx × List Action :=
  ({ t with st := .idle, len := 0, off := 0, coll := false, drv := false },
   (if t.drv then [.drvEnable false] else []) ++ [.done t.status])

/-- `signal` before any byte is queued (R288): `seterr(code); to_idle`. -/
def signalIdle (code : Status) (t : Tx) : Tx × List Action := toIdle (setErr code t)

/-- `abort_tx(code)`, `signal` once bytes are queued (R233, R288): `seterr`, `TxFlush`, and the
state RunningWaitForIdle with its deadline. -/
def abortTx (c : Config) (now : U32) (code : Status) (t : Tx) : Tx × List Action :=
  ({ setErr code t with
      coll := false, st := .runningWaitForIdle, dl := deadline now c.tWaitIdle },
   [.txFlush])

/-- The return (R289, R234): accepting a request clears the error of the last attempt. -/
def clearErr (t : Tx) : Tx := { t with err := false, status := .ok }

end Sys2Proof.Machine
end

