-- ==== Sys2Proof/Machine/Operands.lean ====
section
/-! DEFINITION. The operand forms: which window a shift-register operand names (spec 20_memory R61),
and the fields of the event word (30_encoding R96, R97) with its packing (44_linebusy_channel
R211). -/

namespace Sys2Proof.Machine

/-- The window a pushed register names. -/
def winGet (w : Win) (a : Acq) : List SW :=
  match w with
  | .firX => a.firX
  | .bdRaw => a.bdRaw
  | .bdAb => a.bdAb
  | .udPh => a.udPh

/-- A write of the whole window of a pushed register. -/
def winSet (w : Win) (S : List SW) (a : Acq) : Acq :=
  match w with
  | .firX => { a with firX := S }
  | .bdRaw => { a with bdRaw := S }
  | .bdAb => { a with bdAb := S }
  | .udPh => { a with udPh := S }

/-- The window a readable register names; `FIR.k` is the constant of R23. -/
def sregGet (c : Config) (r : SReg) (a : Acq) : List SW :=
  match r with
  | .win w => winGet w a
  | .firK => firK c

/-- `byte`, bits 7:0 of the event word (R96). -/
def evByte (w : U32) : Byte := w.extractLsb' 0 8

/-- `valid`, bit 8. -/
def evValid (w : U32) : Bool := w.getLsbD 8

/-- `error`, bit 9. -/
def evError (w : U32) : Bool := w.getLsbD 9

/-- `busy_edge`, bit 10. -/
def evBusyEdge (w : U32) : Bool := w.getLsbD 10

/-- `free_edge`, bit 11. -/
def evFreeEdge (w : U32) : Bool := w.getLsbD 11

/-- `decoder_err`, bit 12. -/
def evDecoderErr (w : U32) : Bool := w.getLsbD 12

/-- One flag at its bit of the event word. -/
def evBit (k : Nat) (b : Bool) : U32 := if b then BitVec.ofNat 32 (2 ^ k) else 0

/-- `pack` (R96). Bits 31:13 are 0. -/
def pack (byte : Byte) (valid error be fe derr : Bool) : U32 :=
  byte.setWidth 32 ||| evBit 8 valid ||| evBit 9 error ||| evBit 10 be ||| evBit 11 fe ||| evBit 12 derr

/-- The word ACQ.SAMPLE makes of a byte event and the edges (R211): a framing error withholds the
byte, a parity error delivers it. -/
def packEvent (ev : Option ByteEvent) (be fe : Bool) : U32 :=
  match ev with
  | none => pack 0 false false be fe false
  | some e =>
    if !e.framingOk then pack 0 false true be fe false
    else if !e.parityOk then pack e.data true true be fe false
    else pack e.data true false be fe false

/-- The word of ACQ.OVERRUN (R212): `0x00001000`. -/
def overrunWord : U32 := pack 0 false false false false true

end Sys2Proof.Machine
end

