-- ==== Sys2Proof/Machine/Flags.lean ====
section
/-! DEFINITION. The status flags (spec 10_state R47): `receiving` (43_uart_decoder R180), `expired`
(00_scope R13), the timeout status (45_tx_arbiter R233), the mirror of the line-busy level (R232),
and the control agent's register outputs (30_encoding R92). -/

namespace Sys2Proof.Machine

/-- UD.RECEIVING (R180): `UD.st != WaitIdle`. -/
def receiving (a : Acq) : Bool := a.udSt != .waitIdle

/-- `expired(now, dl)` (R13): `((now − dl) mod 2^32) < 2^31`. -/
def expired (now dl : U32) : Bool := decide ((now - dl).toNat < 2 ^ 31)

/-- `timed_out` (R233). -/
def timedOut (i : CtlIn) (t : Tx) : Bool := expired i.now t.dl

/-- `tstatus` (R233): NOFRAMING with the line busy, COLLISION with the line free. -/
def tstatus (t : Tx) : Status := if t.lineBusy then .noFraming else .collision

/-- The new line-busy mirror (R232): `free_edge` is applied after `busy_edge`, `decoder_err` last. -/
def lineBusyAfter (ev : U32) (b : Bool) : Bool :=
  let b := if evBusyEdge ev then true else b
  let b := if evFreeEdge ev then false else b
  if evDecoderErr ev then false else b

/-- The prologue of TX.TICK (R232). -/
def prologue (ev : U32) (t : Tx) : Tx := { t with lineBusy := lineBusyAfter ev t.lineBusy }

/-- The register outputs of the control agent (R92): `st`, `err`, `status`, `drv_en`. -/
structure CtlOut where
  st : BitVec 3
  err : Bool
  status : BitVec 3
  drvEn : Bool
deriving DecidableEq, Repr

/-- The outputs are the registers `TX.st`, `TX.err`, `TX.status`, `TX.drv` (R92). -/
def ctlOut (t : Tx) : CtlOut := ⟨t.st.code, t.err, t.status.code, t.drv⟩

end Sys2Proof.Machine
end

