-- ==== Sys2Proof/Machine/Arbiter.lean ====
section
/-! DEFINITION. TX.TICK and its six arms, the half-duplex transmit arbiter (spec 45_tx_arbiter R232
to R239). In every arm the conditions are tried in the listed order and the timeout is last (R233). -/

namespace Sys2Proof.Machine

/-- What one arm does: the new registers and the actions, in order. -/
abbrev TxResult := Except Fault (Tx × List Action)

/-- The request an Idle tick accepts (R234): its length is in `1 .. MSG_MAX`, the line is free and
the transmitter hardware is idle. -/
def acceptable (c : Config) (i : CtlIn) (t : Tx) : Option (List Byte) :=
  match i.req with
  | none => none
  | some bs =>
    if 1 ≤ bs.length ∧ bs.length ≤ c.msgMax.toNat ∧ t.lineBusy = false ∧ i.txHwIdle = true then some bs
    else none

/-- The Idle arm (R234). -/
def txIdleArm (c : Config) (i : CtlIn) (t : Tx) : TxResult :=
  match acceptable c i t with
  | none => .ok (t, [])
  | some bs =>
    match msgStore t.msg bs, toU 8 (bs.length : Int) with
    | .ok msg, .ok len =>
      .ok ({ clearErr t with
              msg := msg, len := len, off := 0, coll := false,
              st := .idleWaitLineFree, dl := deadline i.now c.tWaitFree }, [.reqTaken])
    | .error e, _ => .error e
    | .ok _, .error e => .error e

/-- The IdleWaitLineFree arm (R235). -/
def txIdleWaitLineFreeArm (c : Config) (i : CtlIn) (ev : U32) (t : Tx) : TxResult :=
  if evDecoderErr ev then .ok (signalIdle .internal t)
  else if i.extColl then .ok (signalIdle .collision t)
  else if !t.lineBusy then
    .ok ({ t with drv := true, st := .waitPowerOn, dl := deadline i.now c.tPowerOn }, [.drvEnable true])
  else if timedOut i t then .ok (signalIdle (tstatus t) t)
  else .ok (t, [])

/-- The WaitPowerOn arm (R236). -/
def txWaitPowerOnArm (c : Config) (i : CtlIn) (ev : U32) (t : Tx) : TxResult :=
  if evDecoderErr ev then .ok (signalIdle .internal t)
  else if i.extColl then .ok (signalIdle .collision t)
  else if t.lineBusy then .ok (signalIdle (tstatus t) t)
  else if timedOut i t then
    match msgBytes t with
    | .ok bs =>
      .ok ({ t with st := .startedWaitForBusy, dl := deadline i.now c.tStart }, bs.map .txWrite)
    | .error e => .error e
  else .ok (t, [])

/-- The RunningCheckData arm (R238). -/
def txRunningCheckDataArm (c : Config) (i : CtlIn) (ev : U32) (t : Tx) : TxResult :=
  if evDecoderErr ev then .ok (abortTx c i.now .internal t)
  else if t.coll || evError ev || i.extColl then .ok (abortTx c i.now .collision t)
  else if evValid ev then
    match msgRead t t.off.toNat with
    | .error e => .error e
    | .ok b =>
      if evByte ev ≠ b then .ok (abortTx c i.now .collision t)
      else
        match toU 8 ((t.off.toNat : Int) + 1) with
        | .error e => .error e
        | .ok off =>
          if off = t.len then
            .ok ({ t with off := off, st := .runningWaitForIdle, dl := deadline i.now c.tWaitIdle }, [])
          else .ok ({ t with off := off, dl := deadline i.now c.tByte }, [])
  else if !t.lineBusy then .ok (abortTx c i.now (tstatus t) t)
  else if timedOut i t then .ok (abortTx c i.now (tstatus t) t)
  else .ok (t, [])

/-- The StartedWaitForBusy arm (R237), with the fall-through into RunningCheckData on a valid byte. -/
def txStartedWaitForBusyArm (c : Config) (i : CtlIn) (ev : U32) (t : Tx) : TxResult :=
  if evDecoderErr ev then .ok (abortTx c i.now .internal t)
  else if i.extColl then .ok (abortTx c i.now .collision t)
  else
    let t := if evError ev then { t with coll := true } else t
    if t.lineBusy || evValid ev || evError ev then
      let t := { t with st := .runningCheckData, dl := deadline i.now c.tByte }
      if evValid ev then txRunningCheckDataArm c i ev t else .ok (t, [])
    else if timedOut i t then .ok (abortTx c i.now (tstatus t) t)
    else .ok (t, [])

/-- The power-down test of RunningWaitForIdle, made on every tick (R239). -/
def powerDown (i : CtlIn) (t : Tx) : Tx × List Action :=
  if i.txHwIdle && t.drv then ({ t with drv := false }, [.drvEnable false]) else (t, [])

/-- The RunningWaitForIdle arm (R239): the power-down test, then the end of the attempt. -/
def txRunningWaitForIdleArm (i : CtlIn) (t : Tx) : TxResult :=
  let r := powerDown i t
  if !r.1.lineBusy then
    let d := toIdle r.1
    .ok (d.1, r.2 ++ d.2)
  else if timedOut i r.1 then
    let d := signalIdle (tstatus r.1) r.1
    .ok (d.1, r.2 ++ d.2)
  else .ok r

/-- TX.TICK (R232): the prologue, then the arm of `TX.st` at the start of the tick. -/
def txTick (c : Config) (i : CtlIn) (ev : U32) (t : Tx) : TxResult :=
  match t.st with
  | .idle => txIdleArm c i (prologue ev t)
  | .idleWaitLineFree => txIdleWaitLineFreeArm c i ev (prologue ev t)
  | .waitPowerOn => txWaitPowerOnArm c i ev (prologue ev t)
  | .startedWaitForBusy => txStartedWaitForBusyArm c i ev (prologue ev t)
  | .runningCheckData => txRunningCheckDataArm c i ev (prologue ev t)
  | .runningWaitForIdle => txRunningWaitForIdleArm i (prologue ev t)

/-- The next state of an operation of the arbiter. -/
def txNext (s : State) (r : TxResult) : Except Fault State :=
  match r with
  | .ok (t, acts) => .ok ((s.withTx t).emit acts)
  | .error e => .error e

/-- TX.TICK (R232). -/
def execTxTick (i : CtlIn) (ev : U32) (s : State) : Host.Outcome State Fault Refusal :=
  ctlOp s (txNext s (txTick s.cfg i ev s.tx))

/-- TX.TICK.IDLE (R234); the event word is not looked at. -/
def execTxIdle (i : CtlIn) (_ev : U32) (s : State) : Host.Outcome State Fault Refusal :=
  txArm s .idle (txNext s (txIdleArm s.cfg i s.tx))

/-- TX.TICK.IDLEWAITLINEFREE (R235). -/
def execTxIdleWaitLineFree (i : CtlIn) (ev : U32) (s : State) : Host.Outcome State Fault Refusal :=
  txArm s .idleWaitLineFree (txNext s (txIdleWaitLineFreeArm s.cfg i ev s.tx))

/-- TX.TICK.WAITPOWERON (R236). -/
def execTxWaitPowerOn (i : CtlIn) (ev : U32) (s : State) : Host.Outcome State Fault Refusal :=
  txArm s .waitPowerOn (txNext s (txWaitPowerOnArm s.cfg i ev s.tx))

/-- TX.TICK.STARTEDWAITFORBUSY (R237). -/
def execTxStartedWaitForBusy (i : CtlIn) (ev : U32) (s : State) : Host.Outcome State Fault Refusal :=
  txArm s .startedWaitForBusy (txNext s (txStartedWaitForBusyArm s.cfg i ev s.tx))

/-- TX.TICK.RUNNINGCHECKDATA (R238). -/
def execTxRunningCheckData (i : CtlIn) (ev : U32) (s : State) : Host.Outcome State Fault Refusal :=
  txArm s .runningCheckData (txNext s (txRunningCheckDataArm s.cfg i ev s.tx))

/-- TX.TICK.RUNNINGWAITFORIDLE (R239); the event word is not looked at. -/
def execTxRunningWaitForIdle (i : CtlIn) (_ev : U32) (s : State) : Host.Outcome State Fault Refusal :=
  txArm s .runningWaitForIdle (txNext s (txRunningWaitForIdleArm i s.tx))

end Sys2Proof.Machine
end

