-- ==== Sys2Proof/Machine/BitDetector.lean ====
section
/-! DEFINITION. BD.UPDATE, the symbol probability detector (spec 42_bit_detector R160 to R162). -/

namespace Sys2Proof.Machine

/-- `high_corr` (R162): the sum of the raw window over `PULSE`, the indices `1 .. N/2`;
`Fault(Overflow)` if the window sum leaves `sW` (93_implementation_defined U3, assumption log 22). -/
def highCorr (c : Config) (raw : List SW) : Except Fault SW :=
  match sumAt raw 1 (osr c / 2) with
  | .ok v => toS v
  | .error e => .error e

/-- `abs_energy` (R162): the magnitudes at `LEAD`, index 0, and over `TAIL`, the indices
`N/2+1 .. N−1`, each once (R160); `Fault(Overflow)` if the window sum leaves `sW` (U3, assumption
log 22). -/
def absEnergy (c : Config) (ab : List SW) : Except Fault SW :=
  match memRead ab 0, sumAt ab (osr c / 2 + 1) (osr c - 1 - osr c / 2) with
  | .ok lead, .ok tail => toS (lead.toInt + tail)
  | .error e, _ => .error e
  | .ok _, .error e => .error e

/-- The value reported for the two sums (R162): `p_high` or `−p_low` if it reaches the threshold,
else 0. -/
def symbolProb (c : Config) (hc ae : Int) : Int :=
  if rxThresh c ≤ hc - ae then hc - ae
  else if rxThresh c ≤ -hc - ae then -(-hc - ae)
  else 0

/-- BD.UPDATE (R162): the magnitude, both window sums (U3) and the reported value are narrowed to
`sW`. -/
def bdUpdate (c : Config) (a : Acq) (x : SW) : Except Fault (Acq × SW) :=
  match srPush a.bdRaw x.toInt, srPush a.bdAb (x.toInt.natAbs : Int) with
  | .ok raw, .ok ab =>
    match highCorr c raw, absEnergy c ab with
    | .ok hc, .ok ae =>
      match toS (symbolProb c hc.toInt ae.toInt) with
      | .ok p => .ok ({ a with bdRaw := raw, bdAb := ab }, p)
      | .error e => .error e
    | .error e, _ => .error e
    | .ok _, .error e => .error e
  | .error e, _ => .error e
  | .ok _, .error e => .error e

/-- BD.UPDATE (R162). -/
def execBdUpdate (x : SW) (s : State) : Host.Outcome State Fault Refusal :=
  acqOp s <|
    match bdUpdate s.cfg s.acq x with
    | .ok (a, p) => .ok ((s.withAcq a).withRet (.sample p))
    | .error e => .error e

end Sys2Proof.Machine
end

