-- ==== Sys2Proof/Machine/Dsp.lean ====
section
/-! DEFINITION. RS.UPDATE, DC.UPDATE and LV.UPDATE (spec 41_resample_dc_level R141, R145, R150). -/

namespace Sys2Proof.Machine

/-- RS.UPDATE (R141): the sample passes when the counter is 0; the counter cycles `0 .. RS_DROP`. -/
def rsUpdate (c : Config) (a : Acq) (x : SW) : Except Fault (Acq × Option SW) :=
  match (if a.rsCnt = c.rsDrop then .ok 0 else toU 16 ((a.rsCnt.toNat : Int) + 1)) with
  | .error e => .error e
  | .ok cnt => .ok ({ a with rsCnt := cnt }, if a.rsCnt = 0 then some x else none)

/-- The new fixed-point state of the DC blocker, exact (R145): `d × 2^Q + tdiv(A × DC.ya, 2^Q)`. -/
def dcNext (c : Config) (a : Acq) (x : SW) : Int :=
  (x.toInt - a.dcXp.toInt) * 2 ^ c.dcQ.toNat + tdiv ((c.dcA.toNat : Int) * a.dcYa.toInt) (2 ^ c.dcQ.toNat)

/-- DC.UPDATE (R145). -/
def dcUpdate (c : Config) (a : Acq) (x : SW) : Except Fault (Acq × SW) :=
  match toS (dcNext c a x) with
  | .error e => .error e
  | .ok ya =>
    match toS (tdiv (dcNext c a x) (2 ^ c.dcQ.toNat)) with
    | .error e => .error e
    | .ok y => .ok ({ a with dcXp := x, dcYa := ya }, y)

/-- The level classifier's next state (R150): the three tests in order, else hold. -/
def lvNext (c : Config) (st : LvState) (x : SW) : LvState :=
  if c.thHigh.toInt ≤ x.toInt then .high
  else if x.toInt ≤ -c.thHigh.toInt then .low
  else if (x.toInt.natAbs : Int) < c.thLow.toInt then .idle
  else st

/-- LV.UPDATE (R150): the output is chosen by the new state. `ATT_DEN = 0`, which R322 refuses,
leaves the division without a value (assumption log 13). -/
def lvUpdate (c : Config) (a : Acq) (x : SW) : Except Fault (Acq × SW) :=
  let st := lvNext c a.lvSt x
  match (if st = .idle then
           (if c.attDen = 0 then .error .config
            else toS (tdiv (x.toInt * (c.attNum.toNat : Int)) (c.attDen.toNat : Int)))
         else .ok x) with
  | .error e => .error e
  | .ok y => .ok ({ a with lvSt := st }, y)

/-- RS.UPDATE (R141). -/
def execRsUpdate (x : SW) (s : State) : Host.Outcome State Fault Refusal :=
  acqOp s <|
    match rsUpdate s.cfg s.acq x with
    | .ok (a, y) => .ok ((s.withAcq a).withRet (.optSample y))
    | .error e => .error e

/-- DC.UPDATE (R145). -/
def execDcUpdate (x : SW) (s : State) : Host.Outcome State Fault Refusal :=
  acqOp s <|
    match dcUpdate s.cfg s.acq x with
    | .ok (a, y) => .ok ((s.withAcq a).withRet (.sample y))
    | .error e => .error e

/-- LV.UPDATE (R150). -/
def execLvUpdate (x : SW) (s : State) : Host.Outcome State Fault Refusal :=
  acqOp s <|
    match lvUpdate s.cfg s.acq x with
    | .ok (a, y) => .ok ((s.withAcq a).withRet (.sample y))
    | .error e => .error e

end Sys2Proof.Machine
end

