-- ==== Sys2Proof/Machine/LineBusy.lean ====
section
/-! DEFINITION. LB.UPDATE, XC.PUSH, XC.POP and XC.TAKE_OVF (spec 44_linebusy_channel R202, R205 to
R207). -/

namespace Sys2Proof.Machine

/-- The edge pulses of one sample (R202). -/
structure Edges where
  busy : Bool
  free : Bool
deriving DecidableEq, Repr

/-- LB.UPDATE (R202). -/
def lbUpdate (c : Config) (a : Acq) (rcv : Bool) : Except Fault (Acq × Edges) :=
  if rcv && !a.lbPrev then
    match toU 32 (idleTimeout c : Int) with
    | .ok n => .ok ({ a with lbBusy := true, lbCnt := n, lbPrev := rcv }, ⟨!a.lbBusy, false⟩)
    | .error e => .error e
  else if !rcv && a.lbBusy then
    match toU 32 ((a.lbCnt.toNat : Int) - 1) with
    | .ok cnt => .ok ({ a with lbBusy := cnt != 0, lbCnt := cnt, lbPrev := rcv }, ⟨false, cnt == 0⟩)
    | .error e => .error e
  else .ok ({ a with lbPrev := rcv }, ⟨false, false⟩)

/-- LB.UPDATE (R202). -/
def execLbUpdate (rcv : Bool) (s : State) : Host.Outcome State Fault Refusal :=
  acqOp s <|
    match lbUpdate s.cfg s.acq rcv with
    | .ok (a, e) => .ok ((s.withAcq a).withRet (.edges e.busy e.free))
    | .error e => .error e

/-- XC.PUSH (R205): the acquisition agent's side. -/
def execXcPush (w : U32) (s : State) : Host.Outcome State Fault Refusal :=
  acqOp s (.ok (s.withXc (chanPush s.xc w)))

/-- XC.POP (R206): the control agent's side. -/
def execXcPop (s : State) : Host.Outcome State Fault Refusal :=
  ctlOp s (.ok ((s.withXc (chanPop s.xc).1).withRet (.optWord (chanPop s.xc).2)))

/-- XC.TAKE_OVF (R207): the control agent's side. -/
def execXcTakeOvf (s : State) : Host.Outcome State Fault Refusal :=
  ctlOp s (.ok ((s.withXc (chanTakeOvf s.xc).1).withRet (.flag (chanTakeOvf s.xc).2)))

end Sys2Proof.Machine
end

