-- ==== Sys2Proof/Machine/ShiftReg.lean ====
section
/-! DEFINITION. SR.PUSH, SR.AT, SR.CONV and FIR.UPDATE (spec 40_shiftreg_fir R121 to R126). -/

namespace Sys2Proof.Machine

/-- FIR.UPDATE (R126): push, then the dot product over the window that already contains `x`, then
the arithmetic right shift. -/
def firUpdate (c : Config) (a : Acq) (x : SW) : Except Fault (Acq × SW) :=
  match srPush a.firX x.toInt with
  | .error e => .error e
  | .ok X =>
    match srConv X (firK c) with
    | .error e => .error e
    | .ok acc =>
      match toS (asr acc.toInt c.firShift.toNat) with
      | .error e => .error e
      | .ok y => .ok ({ a with firX := X }, y)

/-- SR.PUSH on one of the pushed windows (R121). -/
def execSrPush (w : Win) (v : Int) (s : State) : Host.Outcome State Fault Refusal :=
  acqOp s <|
    match srPush (winGet w s.acq) v with
    | .ok S => .ok (s.withAcq (winSet w S s.acq))
    | .error e => .error e

/-- SR.AT (R122). -/
def execSrAt (r : SReg) (i : Int) (s : State) : Host.Outcome State Fault Refusal :=
  acqOp s <|
    match srAt (sregGet s.cfg r s.acq) i with
    | .ok v => .ok (s.withRet (.sample v))
    | .error e => .error e

/-- SR.CONV (R123). -/
def execSrConv (a b : SReg) (s : State) : Host.Outcome State Fault Refusal :=
  acqOp s <|
    match srConv (sregGet s.cfg a s.acq) (sregGet s.cfg b s.acq) with
    | .ok v => .ok (s.withRet (.sample v))
    | .error e => .error e

/-- FIR.UPDATE (R126). -/
def execFirUpdate (x : SW) (s : State) : Host.Outcome State Fault Refusal :=
  acqOp s <|
    match firUpdate s.cfg s.acq x with
    | .ok (a, y) => .ok ((s.withAcq a).withRet (.sample y))
    | .error e => .error e

end Sys2Proof.Machine
end

