-- ==== Sys2Proof/Machine/UartDecoder.lean ====
section
/-! DEFINITION. The byte/UART decoder: UD.UPDATE with its four arms, UD.PHASE_SEARCH and
UD.RECEIVING (spec 43_uart_decoder R170 to R180). -/

namespace Sys2Proof.Machine

/-! ### The evaluation of one phase (R177) -/

/-- The values at the ticks of one phase: `v[b] = UD.ph[b × OSR + q]` for the slots `b` (R171, R177). -/
def slotValues (c : Config) (ph : List SW) (q : Nat) : List SW :=
  (List.range (slots c)).map fun b => ph.getD (b * osr c + q) 0

/-- `conf`: the sum of the magnitudes over the slots, an exact integer (R177). -/
def confidence (v : List SW) : Nat := (v.map fun x => x.toInt.natAbs).sum

/-- Bit `k` of the byte as slot `1 + k` shows it: 1 where there is no pulse (R177, 20_memory R65). -/
def slotBit (v : List SW) (b : Nat) : Bool := v.getD b 0 == 0

/-- `data` (R177): slot `1 + k` gives bit `k`, least significant bit first (R65). -/
def dataBits (v : List SW) : Byte :=
  BitVec.ofNat 8 (((List.range 8).map fun k => if slotBit v (1 + k) then 2 ^ k else 0).sum)

/-- `popcount` of a byte (R7). -/
def popcount (b : Byte) : Nat := (List.range 8).countP fun k => b.getLsbD k

/-- `par_ok` (R177): the 1s among the data bits and the parity bit of slot 9, even or odd as
`PARITY` says; true without parity. -/
def parityOk (c : Config) (v : List SW) : Bool :=
  if par c = 0 then true
  else
    let ones := popcount (dataBits v) + (if slotBit v 9 then 1 else 0)
    if c.parity = 1 then ones % 2 == 0 else ones % 2 == 1

/-- No two consecutive members have the same sign. -/
def alternates : List SW → Bool
  | a :: b :: rest => (decide (a.toInt < 0) != decide (b.toInt < 0)) && alternates (b :: rest)
  | _ => true

/-- `alt_ok` (R177): the non-zero values, slots ascending, alternate in sign. -/
def altOk (v : List SW) : Bool := alternates (v.filter fun x => x != 0)

/-- `frame_ok` (R177): the start slot has a pulse, the stop slot has none, the pulses alternate. -/
def frameOk (c : Config) (v : List SW) : Bool :=
  !slotBit v 0 && slotBit v (slots c - 1) && altOk v

/-- What R177 says of one phase. -/
structure PhaseEval where
  phase : Nat
  conf : Nat
  data : Byte
  parOk : Bool
  frmOk : Bool
deriving DecidableEq, Repr

/-- The evaluation of phase `q` (R177). -/
def evalPhase (c : Config) (ph : List SW) (q : Nat) : PhaseEval :=
  let v := slotValues c ph q
  { phase := q, conf := confidence v, data := dataBits v, parOk := parityOk c v, frmOk := frameOk c v }

/-! ### The search (R178) -/

/-- The evaluations of all `OSR/2` phases, phase 0 first. -/
def allPhases (c : Config) (ph : List SW) : List PhaseEval :=
  (List.range (osr c / 2)).map (evalPhase c ph)

/-- The phase passes every check. -/
def passes (e : PhaseEval) : Bool := e.frmOk && e.parOk

/-- The set `C` (R178): the passing phases, or all phases where none passes. -/
def candidates (es : List PhaseEval) : List PhaseEval :=
  if (es.filter passes).isEmpty then es else es.filter passes

/-- The first member of greatest confidence. -/
def mostConfident : List PhaseEval → Option PhaseEval
  | [] => none
  | e :: es =>
    match mostConfident es with
    | none => some e
    | some m => if e.conf < m.conf then some m else some e

/-- Every tick of every phase is an index of the buffer (R171, R64). -/
def ticksInside (c : Config) (ph : List SW) : Bool :=
  decide ((slots c - 1) * osr c + osr c / 2 ≤ ph.length)

/-- UD.PHASE_SEARCH (R178). Without any phase (`OSR < 2`, which R322 refuses) there is no best one
(assumption log 13). -/
def phaseSearch (c : Config) (a : Acq) : Except Fault ByteEvent :=
  if !ticksInside c a.udPh then .error .index
  else match mostConfident (candidates (allPhases c a.udPh)) with
    | none => .error .config
    | some best =>
      .ok { data := best.data, parityOk := best.parOk, framingOk := best.frmOk && best.conf != 0 }

/-! ### The state machine (R172 to R176) -/

/-- The WaitIdle arm (R173). -/
def udWaitIdleArm (a : Acq) (p : SW) : Except Fault (Acq × Option ByteEvent) :=
  .ok (if p = 0 then a else { a with udSt := .waitStart }, none)

/-- The WaitStart arm (R174). -/
def udWaitStartArm (c : Config) (a : Acq) (p : SW) : Except Fault (Acq × Option ByteEvent) :=
  if p = 0 then .ok ({ a with udSt := .waitIdle }, none)
  else match toU 16 (dataLen c : Int) with
    | .ok n => .ok ({ a with udSt := .data, udCnt := n }, none)
    | .error e => .error e

/-- The Data arm (R175). -/
def udDataArm (a : Acq) (p : SW) : Except Fault (Acq × Option ByteEvent) :=
  match srPush a.udPh p.toInt, toU 16 ((a.udCnt.toNat : Int) - 1) with
  | .ok ph, .ok cnt =>
    .ok ({ a with udPh := ph, udCnt := cnt, udSt := if cnt = 0 then .stop else a.udSt }, none)
  | .error e, _ => .error e
  | .ok _, .error e => .error e

/-- The Stop arm (R176): the sample of this call is ignored. -/
def udStopArm (c : Config) (a : Acq) : Except Fault (Acq × Option ByteEvent) :=
  match phaseSearch c a with
  | .ok e => .ok ({ a with udSt := .waitIdle }, some e)
  | .error e => .error e

/-- UD.UPDATE (R172): exactly one arm, the one of `UD.st` before the call. -/
def udUpdate (c : Config) (a : Acq) (p : SW) : Except Fault (Acq × Option ByteEvent) :=
  match a.udSt with
  | .waitIdle => udWaitIdleArm a p
  | .waitStart => udWaitStartArm c a p
  | .data => udDataArm a p
  | .stop => udStopArm c a

/-- The next state of an operation that returns `Option<ByteEvent>`. -/
def udNext (s : State) (r : Except Fault (Acq × Option ByteEvent)) : Except Fault State :=
  match r with
  | .ok (a, ev) => .ok ((s.withAcq a).withRet (.optByteEvent ev))
  | .error e => .error e

/-- UD.UPDATE (R172). -/
def execUdUpdate (p : SW) (s : State) : Host.Outcome State Fault Refusal :=
  acqOp s (udNext s (udUpdate s.cfg s.acq p))

/-- UD.RECEIVING (R180). -/
def execUdReceiving (s : State) : Host.Outcome State Fault Refusal :=
  acqOp s (.ok (s.withRet (.flag (receiving s.acq))))

/-- UD.PHASE_SEARCH (R178). -/
def execUdPhaseSearch (s : State) : Host.Outcome State Fault Refusal :=
  acqOp s <|
    match phaseSearch s.cfg s.acq with
    | .ok e => .ok (s.withRet (.byteEvent e))
    | .error e => .error e

/-- UD.UPDATE.WAITIDLE (R173). -/
def execUdWaitIdle (p : SW) (s : State) : Host.Outcome State Fault Refusal :=
  udArm s .waitIdle (udNext s (udWaitIdleArm s.acq p))

/-- UD.UPDATE.WAITSTART (R174). -/
def execUdWaitStart (p : SW) (s : State) : Host.Outcome State Fault Refusal :=
  udArm s .waitStart (udNext s (udWaitStartArm s.cfg s.acq p))

/-- UD.UPDATE.DATA (R175). -/
def execUdData (p : SW) (s : State) : Host.Outcome State Fault Refusal :=
  udArm s .data (udNext s (udDataArm s.acq p))

/-- UD.UPDATE.STOP (R176); the probability is not looked at. -/
def execUdStop (_p : SW) (s : State) : Host.Outcome State Fault Refusal :=
  udArm s .stop (udNext s (udStopArm s.cfg s.acq))

end Sys2Proof.Machine
end

