-- ==== Sys2Proof/Machine/Agents.lean ====
section
/-! DEFINITION. The external operations of the two agents (spec 44_linebusy_channel R210 to R213,
45_tx_arbiter R231, R241, 70_reset R320, R321). -/

namespace Sys2Proof.Machine

/-- The part of ACQ.SAMPLE that runs on a sample the Resampler passed (R210): DC, LV, BD, UD,
UD.RECEIVING, LB, and the word of R211. -/
def processSample (c : Config) (a : Acq) (r : SW) : Except Fault (Acq × U32) :=
  match dcUpdate c a r with
  | .error e => .error e
  | .ok (a2, y2) =>
    match lvUpdate c a2 y2 with
    | .error e => .error e
    | .ok (a3, y3) =>
      match bdUpdate c a3 y3 with
      | .error e => .error e
      | .ok (a4, p) =>
        match udUpdate c a4 p with
        | .error e => .error e
        | .ok (a5, ev) =>
          match lbUpdate c a5 (receiving a5) with
          | .error e => .error e
          | .ok (a6, ed) => .ok (a6, packEvent ev ed.busy ed.free)

/-- The chain of one raw sample (R210): the new registers and the word of R211, 0 where the
Resampler dropped the sample. -/
def acqChain (c : Config) (a : Acq) (x : SW) : Except Fault (Acq × U32) :=
  match firUpdate c a x with
  | .error e => .error e
  | .ok (a1, y1) =>
    match rsUpdate c a1 y1 with
    | .error e => .error e
    | .ok (a2, none) => .ok (a2, 0)
    | .ok (a2, some r) => processSample c a2 r

/-- ACQ.SAMPLE (R210): a word is pushed iff it is not 0. -/
def execAcqSample (x : SW) (s : State) : Host.Outcome State Fault Refusal :=
  acqOp s <|
    match acqChain s.cfg s.acq x with
    | .error e => .error e
    | .ok (a, w) => .ok ((s.withAcq a).withXc (if w = 0 then s.xc else chanPush s.xc w))

/-- ACQ.OVERRUN (R212): the pipeline reset and the `decoder_err` word; the channel is not reset. -/
def execAcqOverrun (s : State) : Host.Outcome State Fault Refusal :=
  acqOp s (.ok ((s.withAcq (acqResetVals s.cfg)).withXc (chanPush s.xc overrunWord)))

/-- ACQ.NOP (R213). -/
def execAcqNop (s : State) : Host.Outcome State Fault Refusal := acqOp s (.ok s)

/-- ACQ.RESET (R320): the configuration check, then the acquisition column of R50. -/
def execAcqReset (s : State) : Host.Outcome State Fault Refusal :=
  if cfgOk s.cfg then .next { s.withAcq (acqResetVals s.cfg) with acqUp := true }
  else .fault .config

/-- The actions of CTL.TICK before the arbiter's (R231, R291): the overflow report, the forwarded
word, the report of a `decoder_err` word. -/
def tickReports (o : Bool) (w : Option U32) : List Action :=
  (if o then [.report .overflow] else []) ++
  (match w with
   | none => []
   | some x => .forward x :: (if evDecoderErr x then [.report .internal] else []))

/-- CTL.TICK (R231). -/
def execCtlTick (i : CtlIn) (s : State) : Host.Outcome State Fault Refusal :=
  let p := chanPop s.xc
  let o := chanTakeOvf p.1
  let w := p.2
  ctlOp s <|
    match txTick s.cfg i (w.getD 0) s.tx with
    | .error e => .error e
    | .ok (t, acts) => .ok (((s.withXc o.1).withTx t).emit (tickReports o.2 w ++ acts))

/-- CTL.NOP (R241). -/
def execCtlNop (s : State) : Host.Outcome State Fault Refusal := ctlOp s (.ok s)

/-- CTL.RESET (R321): the configuration check, then the channel and control columns of R50, and
`DrvEnable(0)` unconditionally. -/
def execCtlReset (s : State) : Host.Outcome State Fault Refusal :=
  if cfgOk s.cfg then
    .next { ((s.withXc chanResetVals).withTx (txResetVals s.cfg)).emit [.drvEnable false] with
            ctlUp := true }
  else .fault .config

end Sys2Proof.Machine
end

