-- ==== Sys2Proof/Machine/Dispatch.lean ====
section
/-! DEFINITION. One arm per row of spec/opcode_table.json. -/

namespace Sys2Proof.Machine

def exec (i : Instr) (s : State) : Host.Outcome State Fault Refusal :=
  match i with
  | .acqReset => Sys2Proof.Machine.execAcqReset s
  | .acqOverrun => Sys2Proof.Machine.execAcqOverrun s
  | .acqSample x => Sys2Proof.Machine.execAcqSample x s
  | .acqNop => Sys2Proof.Machine.execAcqNop s
  | .ctlReset => Sys2Proof.Machine.execCtlReset s
  | .ctlTick p => Sys2Proof.Machine.execCtlTick p s
  | .ctlNop => Sys2Proof.Machine.execCtlNop s
  | .srPush w v => Sys2Proof.Machine.execSrPush w v s
  | .srAt r k => Sys2Proof.Machine.execSrAt r k s
  | .srConv a b => Sys2Proof.Machine.execSrConv a b s
  | .firUpdate x => Sys2Proof.Machine.execFirUpdate x s
  | .rsUpdate x => Sys2Proof.Machine.execRsUpdate x s
  | .dcUpdate x => Sys2Proof.Machine.execDcUpdate x s
  | .lvUpdate x => Sys2Proof.Machine.execLvUpdate x s
  | .bdUpdate x => Sys2Proof.Machine.execBdUpdate x s
  | .udUpdate p => Sys2Proof.Machine.execUdUpdate p s
  | .udReceiving => Sys2Proof.Machine.execUdReceiving s
  | .udPhaseSearch => Sys2Proof.Machine.execUdPhaseSearch s
  | .lbUpdate rcv => Sys2Proof.Machine.execLbUpdate rcv s
  | .xcPush w => Sys2Proof.Machine.execXcPush w s
  | .xcPop => Sys2Proof.Machine.execXcPop s
  | .xcTakeOvf => Sys2Proof.Machine.execXcTakeOvf s
  | .txTick p ev => Sys2Proof.Machine.execTxTick p ev s
  | .udWaitIdle p => Sys2Proof.Machine.execUdWaitIdle p s
  | .udWaitStart p => Sys2Proof.Machine.execUdWaitStart p s
  | .udData p => Sys2Proof.Machine.execUdData p s
  | .udStop p => Sys2Proof.Machine.execUdStop p s
  | .txIdle p ev => Sys2Proof.Machine.execTxIdle p ev s
  | .txIdleWaitLineFree p ev => Sys2Proof.Machine.execTxIdleWaitLineFree p ev s
  | .txWaitPowerOn p ev => Sys2Proof.Machine.execTxWaitPowerOn p ev s
  | .txStartedWaitForBusy p ev => Sys2Proof.Machine.execTxStartedWaitForBusy p ev s
  | .txRunningCheckData p ev => Sys2Proof.Machine.execTxRunningCheckData p ev s
  | .txRunningWaitForIdle p ev => Sys2Proof.Machine.execTxRunningWaitForIdle p ev s

end Sys2Proof.Machine
end

