-- ==== Sys2Proof/Machine/Fetch.lean ====
section
/-! DEFINITION. Where the next operation comes from: the stimulus lines of State (spec 30_encoding
R106), and how a table word is presented as the next line. -/

namespace Sys2Proof.Machine

/-- The next line, and the state with it taken from the list; none where nothing is presented. -/
def fetch (s : State) : Option (List U32 × State) :=
  match s.stim with
  | [] => none
  | l :: rest => some (l, { s with stim := rest })

/-- The line presented as the next one. -/
def present (l : List U32) (s : State) : State := { s with stim := l :: s.stim }

/-- The state register that selects an arm, set to the arm's code: a word of format UD_STATE or
TX_STATE is the content of that register (R95, R99, R100; assumption log 20). -/
def selectArm (l : List U32) (s : State) : State :=
  match decode l with
  | .ok (.udWaitIdle _) => s.withAcq { s.acq with udSt := .waitIdle }
  | .ok (.udWaitStart _) => s.withAcq { s.acq with udSt := .waitStart }
  | .ok (.udData _) => s.withAcq { s.acq with udSt := .data }
  | .ok (.udStop _) => s.withAcq { s.acq with udSt := .stop }
  | .ok (.txIdle _ _) => s.withTx { s.tx with st := .idle }
  | .ok (.txIdleWaitLineFree _ _) => s.withTx { s.tx with st := .idleWaitLineFree }
  | .ok (.txWaitPowerOn _ _) => s.withTx { s.tx with st := .waitPowerOn }
  | .ok (.txStartedWaitForBusy _ _) => s.withTx { s.tx with st := .startedWaitForBusy }
  | .ok (.txRunningCheckData _ _) => s.withTx { s.tx with st := .runningCheckData }
  | .ok (.txRunningWaitForIdle _ _) => s.withTx { s.tx with st := .runningWaitForIdle }
  | _ => s

/-- The table word as the next line, with the selecting register of its arm where it is one. -/
def presentTableWord (s : State) (nbits w : Nat) : State :=
  present (tableLine nbits w) (selectArm (tableLine nbits w) s)

end Sys2Proof.Machine
end

