-- ==== Sys2Proof/Machine/Step.lean ====
section
/-! DEFINITION. One step of the machine: the next stimulus line, decoded and run (spec 20_memory R71,
30_encoding R94, R106). -/

namespace Sys2Proof.Machine

/-- One step. With nothing presented both agents idle and nothing changes (assumption log 2). -/
def step (s : State) : Host.Outcome State Fault Refusal :=
  match fetch s with
  | none => .next s
  | some (l, s') =>
    match decode l with
    | .ok i => exec i s'
    | .error e => .refused (.undecodable e)

/-- `s` with the table word presented as the next line. -/
def State.withFetchWord (s : State) (nbits w : Nat) : State := presentTableWord s nbits w

end Sys2Proof.Machine
end

