-- ==== Sys2Proof/Machine/Stimulus.lean ====
section
/-! DEFINITION. The stimulus notation (spec 30_encoding R106): the lines `RA`, `OV`, `S v`, `RC`,
`T ...`, the macros `S*k v` and `IDLE k`, and a run of lines. (`FRAME b` is a test waveform that is
"not part of the CORE" and is left out, assumption log 18.) -/

namespace Sys2Proof.Machine

/-- `RA` (R106). -/
def lineRA : List U32 := encode .acqReset

/-- `OV`. -/
def lineOV : List U32 := encode .acqOverrun

/-- `S v`. -/
def lineS (v : Int) : List U32 := encode (.acqSample (BitVec.ofInt 32 v))

/-- `RC`. -/
def lineRC : List U32 := encode .ctlReset

/-- `T now [hw=0] [req=..] [nc]`. -/
def lineT (now : Nat) (hw : Bool) (req : Option (List Byte)) (nc : Bool) : List U32 :=
  encode (.ctlTick { now := BitVec.ofNat 32 now, txHwIdle := hw, req := req, extColl := nc })

/-- `S*k v`. -/
def linesS (k : Nat) (v : Int) : List (List U32) := List.replicate k (lineS v)

/-- `IDLE k`. -/
def linesIdle (k : Nat) : List (List U32) := linesS k 0

/-- A run (R106): the lines presented one after the other, one step each, and what is left. -/
def runLines (ls : List (List U32)) (s : State) : Host.Outcome State Fault Refusal :=
  match ls with
  | [] => .next s
  | l :: rest =>
    match step { s with stim := [l] } with
    | .next s' => runLines rest s'
    | .fault f => .fault f
    | .refused r => .refused r

end Sys2Proof.Machine
end

