-- ==== Sys2Proof/Safety.lean ====
section
/-! DEFINITION. The terms claims are made in: runs of operations, the canonical form of the index
spaces (spec 20_memory R61), the invariants of the two agents (43_uart_decoder R181,
44_linebusy_channel R203, 45_tx_arbiter R242), which operations are external (30_encoding R94), and
the input ranges in which no sample faults (70_reset R324 to R326). -/

namespace Sys2Proof.Machine

/-! ### Runs -/

/-- The operations one after the other, stopping at the first fault or refusal. -/
def runOps : List Instr → State → Host.Outcome State Fault Refusal
  | [], s => .next s
  | i :: is, s =>
    match exec i s with
    | .next s' => runOps is s'
    | .fault f => .fault f
    | .refused r => .refused r

/-- The operations one after the other, with what each of them returned (R95): the returned values
in order, and the last state; none at a fault or refusal. -/
def runRets : List Instr → State → Option (List Ret × State)
  | [], s => some ([], s)
  | i :: is, s =>
    match exec i s with
    | .next s' => (runRets is s').map fun r => (s'.ret :: r.1, r.2)
    | _ => none

/-- The operations an agent's strobe vector can select (R94); the other rows are the component
operations they are built from (R95). -/
def External : Instr → Prop
  | .acqReset | .acqOverrun | .acqSample _ | .acqNop | .ctlReset | .ctlTick _ | .ctlNop => True
  | _ => False

/-- The two agents (spec 00_scope R14). -/
inductive Agent where
  | acquisition
  | control
deriving DecidableEq, Repr

/-- The agent that executes an operation (R14, R72, R94, R95). -/
def agentOf : Instr → Agent
  | .acqReset | .acqOverrun | .acqSample _ | .acqNop => .acquisition
  | .srPush _ _ | .srAt _ _ | .srConv _ _ | .firUpdate _ | .rsUpdate _ | .dcUpdate _ => .acquisition
  | .lvUpdate _ | .bdUpdate _ | .udUpdate _ | .udReceiving | .udPhaseSearch | .lbUpdate _ => .acquisition
  | .xcPush _ | .udWaitIdle _ | .udWaitStart _ | .udData _ | .udStop _ => .acquisition
  | .ctlReset | .ctlTick _ | .ctlNop | .xcPop | .xcTakeOvf | .txTick _ _ => .control
  | .txIdle _ _ | .txIdleWaitLineFree _ _ | .txWaitPowerOn _ _ => .control
  | .txStartedWaitForBusy _ _ | .txRunningCheckData _ _ | .txRunningWaitForIdle _ _ => .control

/-- The arm of UD.UPDATE whose code is `st` (R99, R172), as an operation. -/
def udArmOf (st : UdState) (p : SW) : Instr :=
  match st with
  | .waitIdle => .udWaitIdle p
  | .waitStart => .udWaitStart p
  | .data => .udData p
  | .stop => .udStop p

/-- The arm of TX.TICK whose code is `st` (R100, R232), as an operation. -/
def txArmOf (st : TxState) (i : CtlIn) (ev : U32) : Instr :=
  match st with
  | .idle => .txIdle i ev
  | .idleWaitLineFree => .txIdleWaitLineFree i ev
  | .waitPowerOn => .txWaitPowerOn i ev
  | .startedWaitForBusy => .txStartedWaitForBusy i ev
  | .runningCheckData => .txRunningCheckData i ev
  | .runningWaitForIdle => .txRunningWaitForIdle i ev

/-- One operation after another: a fault or refusal of the first is that of the whole. -/
def andThen (r : Host.Outcome State Fault Refusal) (k : State → Host.Outcome State Fault Refusal) :
    Host.Outcome State Fault Refusal :=
  match r with
  | .next s => k s
  | .fault f => .fault f
  | .refused r => .refused r

/-- The next state of an outcome, changed. -/
def mapNext (f : State → State) (r : Host.Outcome State Fault Refusal) :
    Host.Outcome State Fault Refusal := andThen r fun s => .next (f s)

/-- The word in the slot, if there is one (R35). -/
def slotWords (x : Chan) : List U32 := if x.full then [x.word] else []

/-- The words the channel accepted during the operations: a push that found the slot empty (R73). -/
def acceptedWords : List Instr → State → List U32
  | [], _ => []
  | i :: is, s =>
    match exec i s with
    | .next t =>
      (if agentOf i = .acquisition ∧ s.xc.full = false then slotWords t.xc else []) ++ acceptedWords is t
    | _ => []

/-- The words handed on by `Forward` (R93). -/
def forwardedWords (acts : List Action) : List U32 :=
  acts.filterMap fun a => match a with
    | .forward w => some w
    | _ => none

/-- The bytes handed to the transmitter by `TxWrite` (R93). -/
def writtenBytes (acts : List Action) : List Byte :=
  acts.filterMap fun a => match a with
    | .txWrite b => some b
    | _ => none

/-- The driver commands `DrvEnable` (R93). -/
def driverCommands (acts : List Action) : List Bool :=
  acts.filterMap fun a => match a with
    | .drvEnable b => some b
    | _ => none

/-- The action ends an attempt (R93, R230). -/
def Action.isDone : Action → Bool
  | .done _ => true
  | _ => false

/-- The samples the Resampler passed, among returned values (R141). -/
def passedSamples (rets : List Ret) : List SW :=
  rets.filterMap fun r => match r with
    | .optSample v => v
    | _ => none

/-- The actions an operation or a run from `s` to `t` emitted. -/
def newActions (s t : State) : List Action := t.out.drop s.out.length

/-! ### The index spaces -/

/-- Every stored index space of R61 has its length. -/
def Memory.wf (s : State) : Bool :=
  decide (s.acq.firX.length = 7 ∧ s.acq.bdRaw.length = osr s.cfg ∧ s.acq.bdAb.length = osr s.cfg ∧
    s.acq.udPh.length = dataLen s.cfg ∧ s.tx.msg.length = s.cfg.msgMax.toNat)

/-! ### Invariants -/

/-- The acquisition agent's registers: the windows have their lengths (R61), the Resampler's counter
is in range (R24), `UD.cnt > 0` iff `UD.st = Data` (R181), and the line-busy countdown is as R203
says; while `receiving` was 1 at the last sample the countdown stands frozen at `IDLE_TIMEOUT`
(R202, corner case a). -/
def AcqInv (c : Config) (a : Acq) : Prop :=
  a.firX.length = 7 ∧ a.bdRaw.length = osr c ∧ a.bdAb.length = osr c ∧ a.udPh.length = dataLen c ∧
  a.rsCnt.toNat ≤ c.rsDrop.toNat ∧
  (0 < a.udCnt.toNat ↔ a.udSt = .data) ∧ a.udCnt.toNat ≤ dataLen c ∧
  (a.lbBusy = true → 1 ≤ a.lbCnt.toNat ∧ a.lbCnt.toNat ≤ idleTimeout c) ∧
  (a.lbBusy = false → a.lbCnt = 0) ∧
  (a.lbPrev = true → a.lbBusy = true ∧ a.lbCnt.toNat = idleTimeout c)

/-- What the external operations keep beyond `AcqInv`: `BD.ab` holds the magnitudes of `BD.raw`
(R27), and `LB.prev` is `receiving` after the last processed sample (R203). A component operation run
alone (a push into `BD.raw`, say) breaks it. -/
def AcqSync (a : Acq) : Prop :=
  a.bdAb.map BitVec.toInt = a.bdRaw.map (fun v => (v.toInt.natAbs : Int)) ∧
  a.lbPrev = receiving a

/-- The control agent's registers (R242). -/
def TxInv (c : Config) (t : Tx) : Prop :=
  t.msg.length = c.msgMax.toNat ∧ t.len.toNat ≤ c.msgMax.toNat ∧ t.off.toNat ≤ t.len.toNat ∧
  (t.len = 0 ↔ t.st = .idle) ∧
  ((t.st = .idleWaitLineFree ∨ t.st = .waitPowerOn ∨ t.st = .startedWaitForBusy) → t.off = 0) ∧
  ((t.st = .startedWaitForBusy ∨ t.st = .runningCheckData) → t.off.toNat < t.len.toNat) ∧
  ((t.st = .waitPowerOn ∨ t.st = .startedWaitForBusy ∨ t.st = .runningCheckData) → t.drv = true) ∧
  ((t.st = .idle ∨ t.st = .idleWaitLineFree) → t.drv = false) ∧
  (t.coll = true → t.st = .runningCheckData) ∧
  (t.err = false ↔ t.status = .ok)

/-- The whole machine: an agent that has had its first reset runs a legal configuration (R322, R79)
and its registers meet its invariant. Before that its registers are unspecified (R323). -/
def Inv (s : State) : Prop :=
  (s.acqUp = true → CfgLegal s.cfg ∧ AcqInv s.cfg s.acq) ∧
  (s.ctlUp = true → CfgLegal s.cfg ∧ TxInv s.cfg s.tx)

/-- `Inv`, and what only the external operations keep. -/
def InvExternal (s : State) : Prop :=
  Inv s ∧ (s.acqUp = true → AcqSync s.acq)

/-! ### Input ranges -/

/-- `Σ |FIR_COEF[i]|`. -/
def coefAbsSum (c : Config) : Nat := ((firK c).map fun k => k.toInt.natAbs).sum

/-- The bounds `X` of the raw samples and `Y` of the FIR's outputs meet the hazards: R324 for the
FIR, R325 for the DC blocker, and the bit detector's bound on its window (R162, R326). -/
def RangeOk (c : Config) (X Y : Nat) : Prop :=
  X * coefAbsSum c ≤ 2147483647 ∧
  X * coefAbsSum c ≤ Y * 2 ^ c.firShift.toNat ∧
  Y * 2 ^ (c.dcQ.toNat + 2) ≤ 2147483648 ∧
  (2 * Y + 1) * osr c ≤ 2147483647

/-- The registers a sample can meet under these bounds (R325, R326): every raw sample was within
`X`, every FIR output within `Y`, the DC blocker's state within `(Y+1) × 2^Q` of its last input, and
the bit detector's window within the DC blocker's output bound `2Y + 1`. -/
def ChainInRange (c : Config) (X Y : Nat) (a : Acq) : Prop :=
  (∀ v ∈ a.firX, v.toInt.natAbs ≤ X) ∧
  a.dcXp.toInt.natAbs ≤ Y ∧
  (a.dcYa.toInt - a.dcXp.toInt * 2 ^ c.dcQ.toNat).natAbs ≤ (Y + 1) * 2 ^ c.dcQ.toNat ∧
  (∀ v ∈ a.bdRaw, v.toInt.natAbs ≤ 2 * Y + 1) ∧
  (∀ v ∈ a.bdAb, v.toInt.natAbs ≤ 2 * Y + 1)

end Sys2Proof.Machine
end

