-- ==== Sys2Proof/Certificates/Slice0/Obligations.lean ====
section
/-! DEFINITION. The statements for the provers. Each docstring names the rule of spec/ it formalises,
or says that it rests on a choice of the model. -/

open Sys2Proof Sys2Proof.Machine

/-! ### Lines, decoding, stepping -/

/-- Decode and encode agree, for every operation and every operand its encoding admits (the codes of
R94, R95, R99, R100; the operand words are the model's choice, assumption log 3). -/
def Obligations.DecodeInvertsEncode : Prop :=
  ∀ i : Instr, i.wf = true → decode (encode i) = .ok i

/-- The decoder answers well-formed operations only (operand words: assumption log 3). -/
def Obligations.DecodedOperationsAreWellFormed : Prop :=
  ∀ (l : List U32) (i : Instr), decode l = .ok i → i.wf = true

/-- Every value of the strobe vectors selects an operation, by the priority of R94: reset over
overrun over a sample; reset over a tick (the line's layout is the model's, assumption log 3). A
TX_STATE code 6 or 7 (R104) selects none. -/
def Obligations.StrobeVectorsSelectByPriority : Prop :=
  (∀ (rstA overrun sampleValid : Bool) (x : SW),
    decode [BitVec.ofNat 32 (256 + 4 * rstA.toNat + 2 * overrun.toNat + sampleValid.toNat), x] =
      .ok (if rstA then .acqReset else if overrun then .acqOverrun
           else if sampleValid then .acqSample x else .acqNop)) ∧
  (∀ (rstC tick : Bool) (i : CtlIn), i.wf = true →
    decode (BitVec.ofNat 32 (512 + 2 * rstC.toNat + tick.toNat) :: ctlInWords i) =
      .ok (if rstC then .ctlReset else if tick then .ctlTick i else .ctlNop)) ∧
  (∀ ops : List U32, decode (0x506 :: ops) = .error .unknownCode ∧
    decode (0x507 :: ops) = .error .unknownCode)

/-- A few lines written out from R94, R95 and R100 decode to the operations they stand for (the
format and operand words: assumption log 3). -/
def Obligations.LinesOfTheSpecDecode : Prop :=
  decode [0x101, 0xFFFFFFFF] = .ok (.acqSample (-1)) ∧
  decode [0x102] = .ok .acqOverrun ∧
  decode [0x202] = .ok .ctlReset ∧
  decode [0x201, 1000, 1, 0, 1, 3, 0x40, 0x00, 0x0F] =
    .ok (.ctlTick { now := 1000, txHwIdle := true, req := some [0x40, 0x00, 0x0F], extColl := false }) ∧
  decode [0x314, 500] = .ok (.bdUpdate 500) ∧
  decode [0x403, 0] = .ok (.udStop 0) ∧
  decode [0x504, 0x140, 100, 1, 0, 0] =
    .ok (.txRunningCheckData { now := 100, txHwIdle := true, req := none, extColl := false } 0x140)

/-- A step runs the decoded operation on the state without its line. The two other clauses are the
model's choice: with nothing presented a step changes nothing (assumption log 2), and a line that is
no operation is refused by name (assumption log 3). -/
def Obligations.StepRunsTheDecodedOperation : Prop :=
  ∀ s : State,
    (∀ l rest i, s.stim = l :: rest → decode l = .ok i → step s = exec i { s with stim := rest }) ∧
    (s.stim = [] → step s = .next s) ∧
    (∀ l rest e, s.stim = l :: rest → decode l = .error e → step s = .refused (.undecodable e))

/-- The stimulus list is an input only: no operation reads or writes the lines still to come
(20_memory R71: an operation is atomic; the list itself is the model's, assumption log 1). -/
def Obligations.OperationsIgnoreTheStimulus : Prop :=
  ∀ (i : Instr) (s : State) (l : List (List U32)),
    exec i { s with stim := l } = mapNext (fun t => { t with stim := l }) (exec i s)

/-! ### Reset and configuration -/

/-- ACQ.RESET (R320): the check, then every acquisition-side register at its value of R50; nothing
else changes. (`acqUp` is the model's own, assumption log 9.) -/
def Obligations.AcqResetWritesTheResetValues : Prop :=
  ∀ s : State,
    (CfgLegal s.cfg → exec .acqReset s = .next { s with
      acqUp := true
      acq := { firX := List.replicate 7 0, rsCnt := 0, dcXp := 0, dcYa := 0, lvSt := .idle,
               bdRaw := List.replicate (osr s.cfg) 0, bdAb := List.replicate (osr s.cfg) 0,
               udSt := .waitIdle, udCnt := 0, udPh := List.replicate (dataLen s.cfg) 0,
               lbBusy := false, lbPrev := false, lbCnt := 0 } }) ∧
    (¬ CfgLegal s.cfg → exec .acqReset s = .fault .config)

/-- CTL.RESET (R321): the check, then the channel and the control registers at their values of R50,
and `DrvEnable(0)` emitted unconditionally. (`ctlUp` is the model's own, assumption log 9.) -/
def Obligations.CtlResetWritesTheResetValues : Prop :=
  ∀ s : State,
    (CfgLegal s.cfg → exec .ctlReset s = .next { s with
      ctlUp := true
      xc := { full := false, word := 0, ovf := false }
      tx := { st := .idle, msg := List.replicate s.cfg.msgMax.toNat 0, len := 0, off := 0, dl := 0,
              lineBusy := false, coll := false, err := false, status := .ok, drv := false }
      out := s.out ++ [.drvEnable false] }) ∧
    (¬ CfgLegal s.cfg → exec .ctlReset s = .fault .config)

/-- The configuration check of R322, condition by condition, is made by both resets: they raise
`Fault(Config)` unless all of them hold. -/
def Obligations.ResetsRefuseExactlyTheIllegalConfigurations : Prop :=
  ∀ s : State,
    let c := s.cfg
    let legal : Prop :=
      (∀ i, i < 3 → (firK c).getD i 0 = (firK c).getD (6 - i) 0) ∧
      (∀ k ∈ firK c, InSW k.toInt) ∧
      c.firShift.toNat < 32 ∧ c.rsDrop.toNat < 2 ^ 16 ∧
      (1 ≤ c.dcQ.toNat ∧ c.dcQ.toNat ≤ 15) ∧ (0 < c.dcA.toNat ∧ c.dcA.toNat < 2 ^ c.dcQ.toNat) ∧
      (0 < c.thLow.toInt ∧ c.thLow.toInt ≤ c.thHigh.toInt ∧ c.thHigh.toInt < 2 ^ 31) ∧
      (1 ≤ c.attDen.toNat ∧ c.attNum.toNat ≤ c.attDen.toNat) ∧
      (Even c.osr.toNat ∧ 4 ≤ c.osr.toNat ∧ c.osr.toNat ≤ 256) ∧
      (0 ≤ c.lowLevel.toInt ∧ c.lowLevel.toInt < c.highLevel.toInt) ∧
      c.errNum.toNat ≤ 255 ∧
      1 ≤ ((c.osr.toNat / 2 : Nat) : Int) * (c.highLevel.toInt - c.lowLevel.toInt) *
          (256 - (c.errNum.toNat : Int)) / 256 ∧
      (c.parity = 0 ∨ c.parity = 1 ∨ c.parity = 2) ∧
      1 ≤ c.lineFreeChars.toNat ∧ 1 ≤ c.charTime.toNat ∧
      (∀ T ∈ [c.tWaitFree, c.tPowerOn, c.tStart, c.tByte, c.tWaitIdle],
        1 ≤ T.toNat ∧ T.toNat ≤ 2 ^ 31 - 1) ∧
      (1 ≤ c.msgMax.toNat ∧ c.msgMax.toNat ≤ 255)
    (exec .acqReset s = .fault .config ↔ ¬ legal) ∧ (exec .ctlReset s = .fault .config ↔ ¬ legal)

/-- The start-up order of R323, CTL.RESET then ACQ.RESET, leads every state whatever (the registers
before it are unspecified) to the reset state of its configuration, which meets the invariants; so
does the model's `State.reset` (REFCFG: assumption log 10). -/
def Obligations.StartUpReachesTheResetState : Prop :=
  (∀ s : State, CfgLegal s.cfg →
    runOps [.ctlReset, .acqReset] s =
      .next { State.resetOf s.cfg with
              out := s.out ++ [.drvEnable false], ret := s.ret, stim := s.stim } ∧
    InvExternal (State.resetOf s.cfg)) ∧
  InvExternal State.reset

/-- Where the spec gives no step, the model stops by name: an agent's operation other than its reset
before its first reset (R323, assumption log 9), and an arm run by name while its state register
holds another code (R172, R232, assumption log 6). -/
def Obligations.StopsWhereThereIsNoStep : Prop :=
  (∀ (i : Instr) (s : State), i ≠ .acqReset → i ≠ .ctlReset →
    (agentOf i = .acquisition → s.acqUp = false → exec i s = .fault .beforeReset) ∧
    (agentOf i = .control → s.ctlUp = false → exec i s = .fault .beforeReset)) ∧
  (∀ (st : UdState) (p : SW) (s : State), s.acqUp = true → s.acq.udSt ≠ st →
    exec (udArmOf st p) s = .refused .armNotSelected) ∧
  (∀ (st : TxState) (i : CtlIn) (ev : U32) (s : State), s.ctlUp = true → s.tx.st ≠ st →
    exec (txArmOf st i ev) s = .refused .armNotSelected)

/-! ### Shift registers and FIR -/

/-- SR.PUSH (R121): the oldest entry leaves and `v` becomes the newest; nothing else changes; a value
outside `sW` is `Fault(Overflow)`. -/
def Obligations.PushShiftsTheWindow : Prop :=
  ∀ (w : Win) (v : Int) (s : State), s.acqUp = true → winGet w s.acq ≠ [] →
    (InSW v → exec (.srPush w v) s =
      .next { s with acq := winSet w ((winGet w s.acq).tail ++ [BitVec.ofInt 32 v]) s.acq }) ∧
    (¬ InSW v → exec (.srPush w v) s = .fault .overflow)

/-- Index order (R62) and the empty register (R51), in one: pushing `k <= N` values one after the
other leaves the window as its newest `N − k` old entries followed by the values in the order of
their pushes, every entry readable at its index. -/
def Obligations.PushedValuesStandOldestFirst : Prop :=
  ∀ (w : Win) (vs : List SW) (s : State), s.acqUp = true → vs.length ≤ (winGet w s.acq).length →
    ∃ t, runOps (vs.map fun v => .srPush w v.toInt) s = .next t ∧
      t = { s with acq := winSet w ((winGet w s.acq).drop vs.length ++ vs) s.acq } ∧
      ∀ i, i < vs.length →
        exec (.srAt (.win w) (((winGet w s.acq).length - vs.length + i : Nat) : Int)) t =
          .next { t with ret := .sample (vs.getD i 0) }

/-- SR.AT (R122): the `i`-th oldest entry, and nothing changes; an index outside the window is
`Fault(Index)`. -/
def Obligations.AtReadsTheIthOldest : Prop :=
  ∀ (r : SReg) (i : Int) (s : State), s.acqUp = true →
    let S := sregGet s.cfg r s.acq
    (0 ≤ i ∧ i < S.length → exec (.srAt r i) s = .next { s with ret := .sample (S.getD i.toNat 0) }) ∧
    (i < 0 ∨ (S.length : Int) ≤ i → exec (.srAt r i) s = .fault .index)

/-- SR.CONV (R123) with its accumulator (R124): the dot product over the shorter length, oldest
entries aligned, if every product and every partial sum in that order lies in `sW`; else
`Fault(Overflow)`. Nothing changes. -/
def Obligations.ConvIsTheCheckedDotProduct : Prop :=
  ∀ (a b : SReg) (s : State), s.acqUp = true →
    let ps := List.zipWith (fun x y => x.toInt * y.toInt)
      (sregGet s.cfg a s.acq) (sregGet s.cfg b s.acq)
    let fits := (∀ p ∈ ps, InSW p) ∧ (∀ k, k ≤ ps.length → InSW (ps.take k).sum)
    (fits → exec (.srConv a b) s = .next { s with ret := .sample (BitVec.ofInt 32 ps.sum) }) ∧
    (¬ fits → exec (.srConv a b) s = .fault .overflow)

/-- FIR.UPDATE (R126): push first, then `floor((Σ FIR_COEF[i] × window[i]) / 2^FIR_SHIFT)` over the
window that already contains `x`; the only fault is the accumulator's (R124). -/
def Obligations.FirConvolvesAfterThePush : Prop :=
  ∀ (x : SW) (s : State), s.acqUp = true → s.acq.firX.length = 7 →
    let X := s.acq.firX.tail ++ [x]
    let ps := List.zipWith (fun v k => v.toInt * k.toInt) X (firK s.cfg)
    let fits := (∀ p ∈ ps, InSW p) ∧ (∀ k, k ≤ ps.length → InSW (ps.take k).sum)
    (fits → exec (.firUpdate x) s = .next { s with
      acq := { s.acq with firX := X }
      ret := .sample (BitVec.ofInt 32 (Int.floor ((ps.sum : ℚ) / 2 ^ s.cfg.firShift.toNat))) }) ∧
    (¬ fits → exec (.firUpdate x) s = .fault .overflow)

/-! ### Resampler, DC blocker, level detector -/

/-- RS.UPDATE (R141), for a counter in its range `0 .. RS_DROP` (R24). -/
def Obligations.ResamplerPassesWhenTheCounterIsZero : Prop :=
  ∀ (x : SW) (s : State), s.acqUp = true → s.acq.rsCnt.toNat ≤ s.cfg.rsDrop.toNat →
    exec (.rsUpdate x) s = .next { s with
      acq := { s.acq with rsCnt := if s.acq.rsCnt = s.cfg.rsDrop then 0 else s.acq.rsCnt + 1 }
      ret := .optSample (if s.acq.rsCnt = 0 then some x else none) }

/-- The Resampler over any number of calls from counter 0 (R142): `ceil(total / (RS_DROP+1))`
samples pass, and the `k`-th carries the input of call `k × (RS_DROP+1)`. -/
def Obligations.ResamplerEmitsEveryNthSample : Prop :=
  ∀ (xs : List SW) (s : State), s.acqUp = true → s.acq.rsCnt = 0 →
    ∃ rets t, runRets (xs.map .rsUpdate) s = some (rets, t) ∧
      let passed := passedSamples rets
      let n := s.cfg.rsDrop.toNat
      passed.length = (xs.length + n) / (n + 1) ∧
      ∀ k, k < passed.length → passed[k]? = xs[k * (n + 1)]?

/-- DC.UPDATE (R145), with `Fault(Overflow)` when the new state leaves `sW`. -/
def Obligations.DcBlockerFollowsItsEquation : Prop :=
  ∀ (x : SW) (s : State), s.acqUp = true →
    let Q := s.cfg.dcQ.toNat
    let d := x.toInt - s.acq.dcXp.toInt
    let ya := d * 2 ^ Q + Int.tdiv ((s.cfg.dcA.toNat : Int) * s.acq.dcYa.toInt) (2 ^ Q)
    (InSW ya → exec (.dcUpdate x) s = .next { s with
      acq := { s.acq with dcYa := BitVec.ofInt 32 ya, dcXp := x }
      ret := .sample (BitVec.ofInt 32 (Int.tdiv ya (2 ^ Q))) }) ∧
    (¬ InSW ya → exec (.dcUpdate x) s = .fault .overflow)

/-- The DC blocker's range (R325): while every input is within `X` with `X <= 2^(W−3−DC_Q)`, no call
faults, every output is within `2X + 1` and the state within `(2X + 1) × 2^DC_Q`. The state is
carried as "within `(X+1) × 2^DC_Q` of the last input", which each call keeps. -/
def Obligations.DcBlockerStaysInRange : Prop :=
  ∀ (X : Nat) (x : SW) (s : State), s.acqUp = true → CfgLegal s.cfg →
    X * 2 ^ (s.cfg.dcQ.toNat + 2) ≤ 2147483648 →
    s.acq.dcXp.toInt.natAbs ≤ X →
    (s.acq.dcYa.toInt - s.acq.dcXp.toInt * 2 ^ s.cfg.dcQ.toNat).natAbs ≤ (X + 1) * 2 ^ s.cfg.dcQ.toNat →
    x.toInt.natAbs ≤ X →
    ∃ t y, exec (.dcUpdate x) s = .next t ∧ t.ret = .sample y ∧ t.acq.dcXp = x ∧
      y.toInt.natAbs ≤ 2 * X + 1 ∧
      t.acq.dcYa.toInt.natAbs ≤ (2 * X + 1) * 2 ^ s.cfg.dcQ.toNat ∧
      (t.acq.dcYa.toInt - x.toInt * 2 ^ s.cfg.dcQ.toNat).natAbs ≤ (X + 1) * 2 ^ s.cfg.dcQ.toNat

/-- A constant input (R145, corner case a): the magnitude of `DC.ya` strictly decreases while it is
not 0, and 0 stays 0; within as many calls as the magnitude it started from, the state is 0. -/
def Obligations.DcBlockerForgetsAConstant : Prop :=
  ∀ (x : SW) (s : State), s.acqUp = true → CfgLegal s.cfg → s.acq.dcXp = x →
    (∃ t, exec (.dcUpdate x) s = .next t ∧ t.acq.dcXp = x ∧
      (s.acq.dcYa ≠ 0 → t.acq.dcYa.toInt.natAbs < s.acq.dcYa.toInt.natAbs) ∧
      (s.acq.dcYa = 0 → t.acq.dcYa = 0)) ∧
    ∀ n, s.acq.dcYa.toInt.natAbs ≤ n →
      ∃ t, runOps (List.replicate n (.dcUpdate x)) s = .next t ∧ t.acq.dcYa = 0

/-- LV.UPDATE (R150): the three tests from any state, else hold; the output follows the new state,
attenuated when it is Idle. -/
def Obligations.LevelDetectorClassifies : Prop :=
  ∀ (x : SW) (s : State), s.acqUp = true → CfgLegal s.cfg →
    let st : LvState :=
      if s.cfg.thHigh.toInt ≤ x.toInt then .high
      else if x.toInt ≤ -s.cfg.thHigh.toInt then .low
      else if |x.toInt| < s.cfg.thLow.toInt then .idle
      else s.acq.lvSt
    exec (.lvUpdate x) s = .next { s with
      acq := { s.acq with lvSt := st }
      ret := .sample (if st = .idle then
          BitVec.ofInt 32 (Int.tdiv (x.toInt * (s.cfg.attNum.toNat : Int)) (s.cfg.attDen.toNat : Int))
        else x) }

/-! ### Bit detector -/

/-- BD.UPDATE (R162), with the index sets of R160 and the threshold of R161: both windows pushed,
`high_corr` over the indices `1 .. N/2`, `abs_energy` over index 0 and `N/2+1 .. N−1`, the reported
value `p_high`, `−p_low` or 0; `Fault(Overflow)` if `|x|` or the reported value is not in `sW`. That a
window sum outside `sW` faults too, where the reported value would fit, is ruling U3 of
93_implementation_defined, which R162's own list of faults does not name (assumption log 22). -/
def Obligations.BitDetectorScoresTheWindow : Prop :=
  ∀ (x : SW) (s : State), s.acqUp = true → CfgLegal s.cfg →
    s.acq.bdRaw.length = osr s.cfg → s.acq.bdAb.length = osr s.cfg →
    let N := s.cfg.osr.toNat
    let T := ((N / 2 : Nat) : Int) * (s.cfg.highLevel.toInt - s.cfg.lowLevel.toInt) *
      (256 - (s.cfg.errNum.toNat : Int)) / 256
    let raw := s.acq.bdRaw.tail ++ [x]
    let ab := s.acq.bdAb.tail ++ [BitVec.ofInt 32 |x.toInt|]
    let hc := ∑ i ∈ Finset.Icc 1 (N / 2), (raw.getD i 0).toInt
    let ae := (ab.getD 0 0).toInt + ∑ i ∈ Finset.Icc (N / 2 + 1) (N - 1), (ab.getD i 0).toInt
    let p := if T ≤ hc - ae then hc - ae else if T ≤ -hc - ae then -(-hc - ae) else 0
    let fits := InSW |x.toInt| ∧ InSW hc ∧ InSW ae ∧ InSW p
    (fits → exec (.bdUpdate x) s = .next { s with
      acq := { s.acq with bdRaw := raw, bdAb := ab }
      ret := .sample (BitVec.ofInt 32 p) }) ∧
    (¬ fits → exec (.bdUpdate x) s = .fault .overflow)

/-! ### UART decoder -/

/-- The WaitIdle and WaitStart arms (R173, R174): a start needs two consecutive non-zero
probabilities; the sign is not looked at and nothing is stored. -/
def Obligations.StartNeedsTwoConsecutiveHits : Prop :=
  ∀ (p : SW) (s : State), s.acqUp = true →
    (s.acq.udSt = .waitIdle → exec (.udWaitIdle p) s = .next { s with
      acq := { s.acq with udSt := if p ≠ 0 then .waitStart else .waitIdle }
      ret := .optByteEvent none }) ∧
    (s.acq.udSt = .waitStart → p ≠ 0 → exec (.udWaitStart p) s = .next { s with
      acq := { s.acq with udSt := .data, udCnt := BitVec.ofNat 16 (dataLen s.cfg) }
      ret := .optByteEvent none }) ∧
    (s.acq.udSt = .waitStart → p = 0 → exec (.udWaitStart p) s = .next { s with
      acq := { s.acq with udSt := .waitIdle }
      ret := .optByteEvent none }) ∧
    dataLen s.cfg < 2 ^ 16

/-- The Data arm (R175), for a countdown that has not run out (R181). -/
def Obligations.DataArmStoresAndCountsDown : Prop :=
  ∀ (p : SW) (s : State), s.acqUp = true → s.acq.udSt = .data → s.acq.udPh ≠ [] → 0 < s.acq.udCnt.toNat →
    exec (.udData p) s = .next { s with
      acq := { s.acq with
        udPh := s.acq.udPh.tail ++ [p]
        udCnt := s.acq.udCnt - 1
        udSt := if s.acq.udCnt = 1 then .stop else .data }
      ret := .optByteEvent none }

/-- The Stop arm (R176): the event of UD.PHASE_SEARCH, and back to WaitIdle whatever this call's
probability is. -/
def Obligations.StopArmEmitsTheSearchedByte : Prop :=
  ∀ (p : SW) (s : State), s.acqUp = true → s.acq.udSt = .stop → CfgLegal s.cfg →
    s.acq.udPh.length = dataLen s.cfg →
    ∃ e, exec .udPhaseSearch s = .next { s with ret := .byteEvent e } ∧
      exec (.udStop p) s = .next { s with
        acq := { s.acq with udSt := .waitIdle }
        ret := .optByteEvent (some e) }

/-- UD.UPDATE (R172) completes on every state that meets the invariant of R181, and runs exactly the
arm whose code equals `UD.st` before the call. -/
def Obligations.UpdateRunsTheArmOfTheState : Prop :=
  ∀ (p : SW) (s : State), s.acqUp = true → CfgLegal s.cfg → AcqInv s.cfg s.acq →
    ∃ t, exec (.udUpdate p) s = .next t ∧ exec (udArmOf s.acq.udSt p) s = .next t

/-- The evaluation of one phase (R177), rule by rule: the confidence, the data bits with slot `1+k`
for bit `k` (R65), the parity check, the start, stop and alternation checks. -/
def Obligations.PhaseIsReadAsTheRuleSays : Prop :=
  ∀ (c : Config) (ph : List SW) (q : Nat), c.parity.toNat ≤ 2 →
    let v : Nat → SW := fun b => ph.getD (b * osr c + q) 0
    let e := evalPhase c ph q
    let ones := ((Finset.range 8).filter fun k => v (1 + k) = 0).card + if v 9 = 0 then 1 else 0
    e.conf = ∑ b ∈ Finset.range (slots c), (v b).toInt.natAbs ∧
    (∀ k, k < 8 → e.data.getLsbD k = decide (v (1 + k) = 0)) ∧
    (c.parity = 0 → e.parOk = true) ∧
    (c.parity = 1 → (e.parOk = true ↔ Even ones)) ∧
    (c.parity = 2 → (e.parOk = true ↔ Odd ones)) ∧
    (e.frmOk = true ↔
      v 0 ≠ 0 ∧ v (slots c - 1) = 0 ∧
      ∀ b1 b2, b1 < b2 → b2 < slots c → v b1 ≠ 0 → v b2 ≠ 0 →
        (∀ b, b1 < b → b < b2 → v b = 0) → ((v b1).toInt < 0 ↔ 0 < (v b2).toInt))

/-- UD.PHASE_SEARCH (R178): it completes on a full buffer, and the byte is that of the first phase of
greatest confidence among those that pass every check, or among all where none passes; no energy is
a framing error. -/
def Obligations.SearchPicksTheMostConfidentPassingPhase : Prop :=
  ∀ s : State, s.acqUp = true → CfgLegal s.cfg → s.acq.udPh.length = dataLen s.cfg →
    let e : Nat → PhaseEval := evalPhase s.cfg s.acq.udPh
    let good : Nat → Prop := fun q => (e q).frmOk = true ∧ (e q).parOk = true
    ∃ q, q < osr s.cfg / 2 ∧
      exec .udPhaseSearch s = .next { s with
        ret := .byteEvent
          ⟨(e q).data, (e q).parOk, (e q).frmOk && decide ((e q).conf ≠ 0)⟩ } ∧
      ((∃ r, r < osr s.cfg / 2 ∧ good r) → good q) ∧
      (∀ r, r < osr s.cfg / 2 → (good r ∨ ¬ ∃ r', r' < osr s.cfg / 2 ∧ good r') →
        (e r).conf ≤ (e q).conf ∧ (r < q → (e r).conf < (e q).conf))

/-- The all-zero buffer (R178, corner case a): `data = 0xFF`, `framing_ok = 0`, and `parity_ok` 0
for EVEN (nine 1s), 1 for ODD and NONE. -/
def Obligations.QuietBufferIsAFramingError : Prop :=
  ∀ s : State, s.acqUp = true → CfgLegal s.cfg → s.acq.udPh = List.replicate (dataLen s.cfg) 0 →
    exec .udPhaseSearch s = .next { s with
      ret := .byteEvent ⟨0xFF, decide (s.cfg.parity ≠ 1), false⟩ }

/-- One frame (R175, R176, R181): from WaitIdle, two non-zero probabilities, then `DATA_LEN` calls
whatever they carry, then one more call. The first `DATA_LEN + 2` calls return no event; after them
the buffer holds exactly the Data calls' probabilities, oldest first; the last call returns the one
event of the frame and the decoder is back in WaitIdle. -/
def Obligations.OneFrameGivesOneEvent : Prop :=
  ∀ (p1 p2 p3 : SW) (ps : List SW) (s : State), s.acqUp = true → CfgLegal s.cfg → AcqInv s.cfg s.acq →
    s.acq.udSt = .waitIdle → p1 ≠ 0 → p2 ≠ 0 → ps.length = dataLen s.cfg →
    ∃ t e, runRets (.udUpdate p1 :: .udUpdate p2 :: ps.map .udUpdate) s =
        some (List.replicate (dataLen s.cfg + 2) (.optByteEvent none), t) ∧
      t.acq.udSt = .stop ∧ t.acq.udPh = ps ∧ t.acq.udCnt = 0 ∧
      exec (.udUpdate p3) t = .next { t with
        acq := { t.acq with udSt := .waitIdle }
        ret := .optByteEvent (some e) }

/-- A quiet line keeps the decoder in WaitIdle without any event (R173): any number of zero
probabilities changes nothing. -/
def Obligations.QuietLineStaysIdle : Prop :=
  ∀ (n : Nat) (s : State), s.acqUp = true → s.acq.udSt = .waitIdle →
    ∃ t, runRets (List.replicate n (.udUpdate 0)) s = some (List.replicate n (.optByteEvent none), t) ∧
      t.acq = s.acq ∧ t.xc = s.xc ∧ t.tx = s.tx ∧ t.out = s.out ∧ t.cfg = s.cfg

/-- UD.RECEIVING (R180): true in every state but WaitIdle; nothing is written. -/
def Obligations.ReceivingIsEveryStateButWaitIdle : Prop :=
  ∀ s : State, s.acqUp = true →
    exec .udReceiving s = .next { s with ret := .flag (decide (s.acq.udSt ≠ .waitIdle)) }

/-! ### Line-busy tracker and channel -/

/-- LB.UPDATE (R202), for a countdown that stands at 1 or more while the line is busy (R203). -/
def Obligations.LineBusyTracksReceiving : Prop :=
  ∀ (rcv : Bool) (s : State), s.acqUp = true → (s.acq.lbBusy = true → s.acq.lbCnt ≠ 0) →
    (rcv = true ∧ s.acq.lbPrev = false → exec (.lbUpdate rcv) s = .next { s with
      acq := { s.acq with lbBusy := true, lbPrev := true,
                          lbCnt := BitVec.ofNat 32 (idleTimeout s.cfg) }
      ret := .edges (!s.acq.lbBusy) false }) ∧
    (rcv = false ∧ s.acq.lbBusy = true → exec (.lbUpdate rcv) s = .next { s with
      acq := { s.acq with lbBusy := decide (s.acq.lbCnt ≠ 1), lbPrev := false,
                          lbCnt := s.acq.lbCnt - 1 }
      ret := .edges false (decide (s.acq.lbCnt = 1)) }) ∧
    ((rcv = true ∧ s.acq.lbPrev = true) ∨ (rcv = false ∧ s.acq.lbBusy = false) →
      exec (.lbUpdate rcv) s = .next { s with
        acq := { s.acq with lbPrev := rcv }
        ret := .edges false false }) ∧
    idleTimeout s.cfg < 2 ^ 32

/-- The debounce (R202, corner case b): after a frame the free edge comes on the
`IDLE_TIMEOUT`-th consecutive non-receiving sample and on none before it. -/
def Obligations.FreeEdgeComesAfterTheIdleTimeout : Prop :=
  ∀ s : State, s.acqUp = true → CfgLegal s.cfg → AcqInv s.cfg s.acq → s.acq.lbPrev = true →
    ∃ t, runRets (List.replicate (idleTimeout s.cfg) (.lbUpdate false)) s =
        some (List.replicate (idleTimeout s.cfg - 1) (.edges false false) ++ [.edges false true], t) ∧
      t.acq.lbBusy = false ∧ t.acq.lbCnt = 0

/-- XC.PUSH (R205), XC.POP (R206), XC.TAKE_OVF (R207): a full slot keeps its word and the flag is
set; a pop empties the slot and keeps its word; the flag is read and cleared. -/
def Obligations.ChannelOperations : Prop :=
  ∀ (w : U32) (s : State),
    (s.acqUp = true → s.xc.full = true → exec (.xcPush w) s = .next { s with
      xc := { full := true, word := s.xc.word, ovf := true } }) ∧
    (s.acqUp = true → s.xc.full = false → exec (.xcPush w) s = .next { s with
      xc := { full := true, word := w, ovf := s.xc.ovf } }) ∧
    (s.ctlUp = true → s.xc.full = true → exec .xcPop s = .next { s with
      xc := { full := false, word := s.xc.word, ovf := s.xc.ovf }
      ret := .optWord (some s.xc.word) }) ∧
    (s.ctlUp = true → s.xc.full = false → exec .xcPop s = .next { s with ret := .optWord none }) ∧
    (s.ctlUp = true → exec .xcTakeOvf s = .next { s with
      xc := { full := s.xc.full, word := s.xc.word, ovf := false }
      ret := .flag s.xc.ovf })

/-- The channel over any interleaving of the two agents' operations without a CTL.RESET (R73, R74,
R75, R231): the word that stood in the slot and then the accepted words, in the order of their
pushes, are exactly the forwarded words and then the word that stands in the slot. No accepted word
is lost, repeated, torn or reordered. -/
def Obligations.AcceptedWordsAreForwardedInOrder : Prop :=
  ∀ (ops : List Instr) (s t : State), (∀ i ∈ ops, External i ∧ i ≠ .ctlReset) →
    runOps ops s = .next t →
    slotWords s.xc ++ acceptedWords ops s = forwardedWords (newActions s t) ++ slotWords t.xc

/-! ### The acquisition step -/

/-- ACQ.SAMPLE (R210) is its components in their order, each on the value the one before returned,
with the word of R211 pushed iff it is not 0; a fault of one of them is the fault of the whole. (The
returned value `ret` is the model's own and is left as it was, assumption log 7.) -/
def Obligations.SampleIsTheChainOfItsComponents : Prop :=
  ∀ (x : SW) (s : State), s.acqUp = true →
    exec (.acqSample x) s =
      andThen (exec (.firUpdate x) s) fun s1 => match s1.ret with
      | .sample y1 => andThen (exec (.rsUpdate y1) s1) fun s2 => match s2.ret with
        | .optSample none => .next { s2 with ret := s.ret }
        | .optSample (some r) => andThen (exec (.dcUpdate r) s2) fun s3 => match s3.ret with
          | .sample y2 => andThen (exec (.lvUpdate y2) s3) fun s4 => match s4.ret with
            | .sample y3 => andThen (exec (.bdUpdate y3) s4) fun s5 => match s5.ret with
              | .sample p => andThen (exec (.udUpdate p) s5) fun s6 => match s6.ret with
                | .optByteEvent ev => andThen (exec .udReceiving s6) fun s7 => match s7.ret with
                  | .flag rcv => andThen (exec (.lbUpdate rcv) s7) fun s8 => match s8.ret with
                    | .edges be fe =>
                      let byte : Nat := match ev with
                        | none => 0
                        | some e => if e.framingOk then e.data.toNat else 0
                      let valid : Bool := match ev with
                        | none => false
                        | some e => e.framingOk
                      let error : Bool := match ev with
                        | none => false
                        | some e => !e.framingOk || !e.parityOk
                      let w : U32 := BitVec.ofNat 32 (byte + 256 * valid.toNat + 512 * error.toNat +
                        1024 * be.toNat + 2048 * fe.toNat)
                      if w = 0 then .next { s8 with ret := s.ret }
                      else andThen (exec (.xcPush w) s8) fun s9 => .next { s9 with ret := s.ret }
                    | _ => .next s8
                  | _ => .next s7
                | _ => .next s6
              | _ => .next s5
            | _ => .next s4
          | _ => .next s3
        | _ => .next s2
      | _ => .next s1

/-- The whole-chain input range (R324, R325, R326): for bounds `X`, `Y` that meet the hazards, every
raw sample within `X` completes from a state such samples can lead to, and the next state is again
one; only the acquisition registers and the channel change, and `FIR.x` takes the sample. -/
def Obligations.SamplesInRangeNeverFault : Prop :=
  ∀ (X Y : Nat) (x : SW) (s : State), s.acqUp = true → CfgLegal s.cfg → RangeOk s.cfg X Y →
    AcqInv s.cfg s.acq → ChainInRange s.cfg X Y s.acq → x.toInt.natAbs ≤ X →
    ∃ a xc, exec (.acqSample x) s = .next { s with acq := a, xc := xc } ∧
      ChainInRange s.cfg X Y a ∧ AcqInv s.cfg a ∧ a.firX = s.acq.firX.tail ++ [x]

/-- The words the producer makes (R97): a sample that changes the channel leaves in an empty slot a
byte word with bits 12:10 zero and `valid` or `error` set, or an edge word `0x400` or `0x800`; on a
full slot only `XC.ovf` changes (R75). -/
def Obligations.SamplesPushOnlyByteWordsAndEdgeWords : Prop :=
  ∀ (x : SW) (s t : State), s.acqUp = true → InvExternal s → exec (.acqSample x) s = .next t →
    t.xc = s.xc ∨
    (s.xc.full = true ∧ t.xc = { s.xc with ovf := true }) ∨
    (s.xc.full = false ∧ t.xc.full = true ∧ t.xc.ovf = s.xc.ovf ∧
      (t.xc.word = 0x400 ∨ t.xc.word = 0x800 ∨
        (t.xc.word.toNat < 1024 ∧ (t.xc.word.getLsbD 8 = true ∨ t.xc.word.getLsbD 9 = true) ∧
          (t.xc.word.getLsbD 8 = false → t.xc.word = 0x200))))

/-- ACQ.OVERRUN (R212): every acquisition-side register at its reset value and the word `0x1000`
pushed; the channel is not reset, so a waiting word stays and `XC.ovf` is set. -/
def Obligations.OverrunResetsThePipelineAndSaysSo : Prop :=
  ∀ s : State, s.acqUp = true →
    exec .acqOverrun s = .next { s with
      acq := { firX := List.replicate 7 0, rsCnt := 0, dcXp := 0, dcYa := 0, lvSt := .idle,
               bdRaw := List.replicate (osr s.cfg) 0, bdAb := List.replicate (osr s.cfg) 0,
               udSt := .waitIdle, udCnt := 0, udPh := List.replicate (dataLen s.cfg) 0,
               lbBusy := false, lbPrev := false, lbCnt := 0 }
      xc := if s.xc.full then { s.xc with ovf := true } else { s.xc with word := 0x1000, full := true } }

/-- ACQ.NOP (R213) and CTL.NOP (R241): no state changes, no actions. -/
def Obligations.IdleStepsChangeNothing : Prop :=
  ∀ s : State, (s.acqUp = true → exec .acqNop s = .next s) ∧ (s.ctlUp = true → exec .ctlNop s = .next s)

/-! ### The control step and the arbiter -/

/-- CTL.TICK (R231) is XC.POP, XC.TAKE_OVF, the reports in their order, and TX.TICK on the popped
word or on 0. (The returned value `ret` is the model's own and is left as it was, log 7.) -/
def Obligations.TickIsTheChainOfItsComponents : Prop :=
  ∀ (i : CtlIn) (s : State), s.ctlUp = true →
    exec (.ctlTick i) s =
      andThen (exec .xcPop s) fun s1 => match s1.ret with
      | .optWord w => andThen (exec .xcTakeOvf s1) fun s2 => match s2.ret with
        | .flag o =>
          let reports : List Action :=
            (if o then [.report .overflow] else []) ++
            (match w with
             | none => []
             | some x => [.forward x] ++ (if x.getLsbD 12 then [.report .internal] else []))
          exec (.txTick i (w.getD 0)) { s2 with out := s2.out ++ reports, ret := s.ret }
        | _ => .next s2
      | _ => .next s1

/-- CTL.TICK completes, whatever is presented, on every state that meets the arbiter's invariant
(R242); the acquisition side is untouched, the slot is empty and the overflow flag clear after it
(R206, R207), and the actions only grow. -/
def Obligations.TicksNeverFault : Prop :=
  ∀ (i : CtlIn) (s : State), s.ctlUp = true → TxInv s.cfg s.tx →
    ∃ tx acts, exec (.ctlTick i) s = .next { s with
        tx := tx, xc := { s.xc with full := false, ovf := false }, out := s.out ++ acts } ∧
      TxInv s.cfg tx

/-- TX.TICK (R232) completes on every state that meets R242, and is its prologue (busy edge, then
free edge, then decoder error) followed by the arm of `TX.st`. -/
def Obligations.TxTickIsThePrologueThenTheArm : Prop :=
  ∀ (i : CtlIn) (ev : U32) (s : State), s.ctlUp = true → TxInv s.cfg s.tx →
    let lb : Bool :=
      if ev.getLsbD 12 then false else if ev.getLsbD 11 then false
      else if ev.getLsbD 10 then true else s.tx.lineBusy
    ∃ t, exec (.txTick i ev) s = .next t ∧
      exec (txArmOf s.tx.st i ev) { s with tx := { s.tx with lineBusy := lb } } = .next t

/-- The Idle arm (R234): a legal request is taken on a free line with idle transmitter hardware;
otherwise nothing happens. -/
def Obligations.IdleTakesALegalRequest : Prop :=
  ∀ (i : CtlIn) (ev : U32) (s : State), s.ctlUp = true → s.tx.st = .idle →
    s.tx.msg.length = s.cfg.msgMax.toNat →
    (∀ bs, i.req = some bs → 1 ≤ bs.length → bs.length ≤ s.cfg.msgMax.toNat →
      s.tx.lineBusy = false → i.txHwIdle = true →
      exec (.txIdle i ev) s = .next { s with
        tx := { st := .idleWaitLineFree, msg := bs ++ s.tx.msg.drop bs.length,
                len := BitVec.ofNat 8 bs.length, off := 0,
                dl := BitVec.ofNat 32 (i.now.toNat + s.cfg.tWaitFree.toNat),
                lineBusy := false, coll := false, err := false, status := .ok, drv := s.tx.drv }
        out := s.out ++ [.reqTaken] }) ∧
    ((∀ bs, i.req = some bs → bs.length = 0 ∨ s.cfg.msgMax.toNat < bs.length) ∨
      s.tx.lineBusy = true ∨ i.txHwIdle = false → exec (.txIdle i ev) s = .next s)

/-- The IdleWaitLineFree arm (R235), its conditions in order; an error is `seterr; to_idle` (R233). -/
def Obligations.IdleWaitLineFreeArm : Prop :=
  ∀ (i : CtlIn) (ev : U32) (s : State), s.ctlUp = true → s.tx.st = .idleWaitLineFree →
    let status (code : Status) := if s.tx.err then s.tx.status else code
    let failed (code : Status) : State := { s with
      tx := { s.tx with st := .idle, len := 0, off := 0, coll := false, drv := false,
                        err := true, status := status code }
      out := s.out ++ (if s.tx.drv then [.drvEnable false] else []) ++ [.done (status code)] }
    exec (.txIdleWaitLineFree i ev) s = .next (
      if ev.getLsbD 12 then failed .internal
      else if i.extColl then failed .collision
      else if s.tx.lineBusy = false then { s with
        tx := { s.tx with drv := true, st := .waitPowerOn,
                          dl := BitVec.ofNat 32 (i.now.toNat + s.cfg.tPowerOn.toNat) }
        out := s.out ++ [.drvEnable true] }
      else if (i.now - s.tx.dl).toNat < 2 ^ 31 then failed .noFraming
      else s)

/-- The WaitPowerOn arm (R236): a busy line is an error; at the deadline the whole message is written
to the transmitter, byte 0 first. -/
def Obligations.WaitPowerOnArm : Prop :=
  ∀ (i : CtlIn) (ev : U32) (s : State), s.ctlUp = true → s.tx.st = .waitPowerOn →
    s.tx.len.toNat ≤ s.tx.msg.length →
    let status (code : Status) := if s.tx.err then s.tx.status else code
    let failed (code : Status) : State := { s with
      tx := { s.tx with st := .idle, len := 0, off := 0, coll := false, drv := false,
                        err := true, status := status code }
      out := s.out ++ (if s.tx.drv then [.drvEnable false] else []) ++ [.done (status code)] }
    exec (.txWaitPowerOn i ev) s = .next (
      if ev.getLsbD 12 then failed .internal
      else if i.extColl then failed .collision
      else if s.tx.lineBusy then failed .noFraming
      else if (i.now - s.tx.dl).toNat < 2 ^ 31 then { s with
        tx := { s.tx with st := .startedWaitForBusy,
                          dl := BitVec.ofNat 32 (i.now.toNat + s.cfg.tStart.toNat) }
        out := s.out ++ (List.range s.tx.len.toNat).map fun k => .txWrite (s.tx.msg.getD k 0) }
      else s)

/-- The StartedWaitForBusy arm (R237) completes, and: `abort_tx` (R233) on the two immediate errors and
on the timeout; a busy line or any valid or error byte moves on to RunningCheckData, and a valid byte
is checked there in the same tick, with the provisional collision flag as just set. -/
def Obligations.StartedWaitForBusyArm : Prop :=
  ∀ (i : CtlIn) (ev : U32) (s : State), s.ctlUp = true → s.tx.st = .startedWaitForBusy →
    s.tx.off.toNat < s.tx.len.toNat → s.tx.len.toNat ≤ s.tx.msg.length →
    let abort (code : Status) (t : State) : State := { t with
      tx := { t.tx with err := true, status := if t.tx.err then t.tx.status else code,
                        coll := false, st := .runningWaitForIdle,
                        dl := BitVec.ofNat 32 (i.now.toNat + s.cfg.tWaitIdle.toNat) }
      out := t.out ++ [.txFlush] }
    let flagged : State := { s with tx := { s.tx with coll := s.tx.coll || ev.getLsbD 9 } }
    let moved : State := { flagged with
      tx := { flagged.tx with st := .runningCheckData,
                              dl := BitVec.ofNat 32 (i.now.toNat + s.cfg.tByte.toNat) } }
    (∃ t, exec (.txStartedWaitForBusy i ev) s = .next t) ∧
    exec (.txStartedWaitForBusy i ev) s =
      if ev.getLsbD 12 then .next (abort .internal s)
      else if i.extColl then .next (abort .collision s)
      else if ev.getLsbD 8 then exec (.txRunningCheckData i ev) moved
      else if s.tx.lineBusy || ev.getLsbD 9 then .next moved
      else if (i.now - s.tx.dl).toNat < 2 ^ 31 then .next (abort .collision s)
      else .next s

/-- The RunningCheckData arm (R238): each valid byte is compared with exactly one message byte; a
mismatch, an error byte, a provisional collision, a notification, a free line or the timeout aborts;
the last matching byte moves on to RunningWaitForIdle. -/
def Obligations.RunningCheckDataArm : Prop :=
  ∀ (i : CtlIn) (ev : U32) (s : State), s.ctlUp = true → s.tx.st = .runningCheckData →
    s.tx.off.toNat < s.tx.len.toNat → s.tx.len.toNat ≤ s.tx.msg.length →
    let abort (code : Status) : State := { s with
      tx := { s.tx with err := true, status := if s.tx.err then s.tx.status else code,
                        coll := false, st := .runningWaitForIdle,
                        dl := BitVec.ofNat 32 (i.now.toNat + s.cfg.tWaitIdle.toNat) }
      out := s.out ++ [.txFlush] }
    exec (.txRunningCheckData i ev) s = .next (
      if ev.getLsbD 12 then abort .internal
      else if s.tx.coll || ev.getLsbD 9 || i.extColl then abort .collision
      else if ev.getLsbD 8 then
        if ev.extractLsb' 0 8 ≠ s.tx.msg.getD s.tx.off.toNat 0 then abort .collision
        else if s.tx.off.toNat + 1 = s.tx.len.toNat then { s with
          tx := { s.tx with off := s.tx.len, st := .runningWaitForIdle,
                            dl := BitVec.ofNat 32 (i.now.toNat + s.cfg.tWaitIdle.toNat) } }
        else { s with
          tx := { s.tx with off := s.tx.off + 1,
                            dl := BitVec.ofNat 32 (i.now.toNat + s.cfg.tByte.toNat) } }
      else if s.tx.lineBusy = false then abort .collision
      else if (i.now - s.tx.dl).toNat < 2 ^ 31 then abort .noFraming
      else s)

/-- The RunningWaitForIdle arm (R239, `to_idle` of R233): the power-down test first, then the end of
the attempt on a free line with the status it has, or with NOFRAMING at the timeout if it had none.
That `to_idle` sees `TX.drv` as the power-down test left it, so that `DrvEnable(0)` is emitted at most
once, is the model's reading, from row T52 of 95_test_vectors (assumption log 15). -/
def Obligations.RunningWaitForIdleArm : Prop :=
  ∀ (i : CtlIn) (ev : U32) (s : State), s.ctlUp = true → s.tx.st = .runningWaitForIdle →
    let off : Bool := i.txHwIdle && s.tx.drv
    let ended (err : Bool) (status : Status) : State := { s with
      tx := { s.tx with st := .idle, len := 0, off := 0, coll := false, drv := false,
                        err := err, status := status }
      out := s.out ++ (if s.tx.drv then [.drvEnable false] else []) ++ [.done status] }
    exec (.txRunningWaitForIdle i ev) s = .next (
      if s.tx.lineBusy = false then ended s.tx.err s.tx.status
      else if (i.now - s.tx.dl).toNat < 2 ^ 31 then
        ended true (if s.tx.err then s.tx.status else .noFraming)
      else { s with
        tx := { s.tx with drv := s.tx.drv && !i.txHwIdle }
        out := s.out ++ (if off then [.drvEnable false] else []) })

/-- Nesting and return (R289, R292): the first error of an attempt stays, in `TX.err` and
`TX.status`, through every tick until a request is taken, which clears both. -/
def Obligations.FirstErrorOfAnAttemptStays : Prop :=
  ∀ (i : CtlIn) (s t : State), exec (.ctlTick i) s = .next t →
    (s.tx.err = true → Action.reqTaken ∉ newActions s t →
      t.tx.err = true ∧ t.tx.status = s.tx.status) ∧
    (Action.reqTaken ∈ newActions s t → t.tx.err = false ∧ t.tx.status = .ok)

/-- Attempts (R230, R242): over any run of the two agents' external operations without a CTL.RESET,
each `ReqTaken` is answered by exactly one `Done`, but for an attempt still going on at the start or
at the end. -/
def Obligations.EachAttemptEndsWithOneDone : Prop :=
  ∀ (ops : List Instr) (s t : State), (∀ i ∈ ops, External i ∧ i ≠ .ctlReset) →
    runOps ops s = .next t →
    (newActions s t).countP (fun a => decide (a = .reqTaken)) + (if s.tx.st = .idle then 0 else 1) =
      (newActions s t).countP Action.isDone +
        (if t.tx.st = .idle then 0 else 1)

/-- The transmitter's actions (R46, R235, R242): bytes are written only on the tick that leaves
WaitPowerOn for StartedWaitForBusy, `TX.len` of them, byte 0 first; the queue is flushed only on a
tick that enters RunningWaitForIdle from StartedWaitForBusy or RunningCheckData; the driver is
powered on only on the tick from IdleWaitLineFree to WaitPowerOn, and off only on a tick that starts
in RunningWaitForIdle or ends in Idle; and `TX.drv` mirrors the last `DrvEnable`. -/
def Obligations.TransmitterIsDrivenOnlyWhereTheRulesSay : Prop :=
  ∀ (i : CtlIn) (s t : State), exec (.ctlTick i) s = .next t →
    (∀ b, Action.txWrite b ∈ newActions s t →
      s.tx.st = .waitPowerOn ∧ t.tx.st = .startedWaitForBusy ∧
      writtenBytes (newActions s t) = s.tx.msg.take s.tx.len.toNat) ∧
    (Action.txFlush ∈ newActions s t →
      (s.tx.st = .startedWaitForBusy ∨ s.tx.st = .runningCheckData) ∧ t.tx.st = .runningWaitForIdle) ∧
    (Action.drvEnable true ∈ newActions s t →
      s.tx.st = .idleWaitLineFree ∧ t.tx.st = .waitPowerOn) ∧
    (Action.drvEnable false ∈ newActions s t →
      s.tx.st = .runningWaitForIdle ∨ t.tx.st = .idle) ∧
    t.tx.drv = ((driverCommands (newActions s t)).getLast?).getD s.tx.drv

/-- Time (R13): a deadline armed at `now` with `T` below `2^31` has expired `d` units later, for `d`
below `2^31`, exactly when `T <= d`, whatever wraps. -/
def Obligations.DeadlinesExpireAfterTheirBound : Prop :=
  ∀ (now : U32) (T : BitVec 31) (d : Nat), d < 2 ^ 31 →
    expired (now + BitVec.ofNat 32 d) (deadline now T) = decide (T.toNat ≤ d)

/-! ### Whole-machine rules -/

/-- Every step keeps the machine's invariants (R24, R61, R181, R203, R242): the windows keep their
lengths, the counters their ranges, the arbiter its invariants. -/
def Obligations.InvariantsAreKeptByEveryStep : Prop :=
  ∀ s t : State, Inv s → step s = .next t → Inv t

/-- Every external operation also keeps `BD.ab` the magnitudes of `BD.raw` (R27) and `LB.prev` equal
to `receiving` (R203). -/
def Obligations.ExternalOperationsKeepTheInvariants : Prop :=
  ∀ (i : Instr) (s t : State), External i → InvExternal s → exec i s = .next t → InvExternal t

/-- `Fault(Index)` is unreachable from the external operations (R64), and so is every fault of an
agent that is up other than the overflow of a sample (R8) and the refused configuration of a
reset. -/
def Obligations.ExternalOperationsNeverIndexOutside : Prop :=
  ∀ (i : Instr) (s : State), External i → Inv s →
    exec i s ≠ .fault .index ∧
    (∀ f, exec i s = .fault f → s.acqUp = true → s.ctlUp = true →
      f = .overflow ∧ ∃ x, i = .acqSample x)

/-- Ownership (R70, R79, R295): no operation writes CFG; an operation of one agent leaves the other
agent's registers as they are; the acquisition agent emits no action. -/
def Obligations.AgentsWriteOnlyWhatTheyOwn : Prop :=
  ∀ (i : Instr) (s t : State), exec i s = .next t →
    t.cfg = s.cfg ∧
    (agentOf i = .acquisition → t.tx = s.tx ∧ t.ctlUp = s.ctlUp ∧ t.out = s.out) ∧
    (agentOf i = .control → t.acq = s.acq ∧ t.acqUp = s.acqUp)

/-- Isolation (R70): an operation of one agent does not read the other agent's registers: with any
others in their place it has the same outcome and writes the same values. -/
def Obligations.AgentsReadOnlyWhatTheyOwn : Prop :=
  ∀ (i : Instr) (s : State),
    (agentOf i = .acquisition → ∀ (t : Tx) (u : Bool) (o : List Action),
      exec i { s with tx := t, ctlUp := u, out := o } =
        mapNext (fun n => { n with tx := t, ctlUp := u, out := o }) (exec i s)) ∧
    (agentOf i = .control → ∀ (a : Acq) (u : Bool),
      exec i { s with acq := a, acqUp := u } =
        mapNext (fun n => { n with acq := a, acqUp := u }) (exec i s))
end

