-- ==== Sys2Proof/Laws/State.lean ====
section
/-! SUPPORT. What each update of the whole state leaves in each field: one lemma per field per update.
-/

namespace Sys2Proof.Machine

@[simp] theorem State.withAcq_cfg (s : State) (a : Acq) : (s.withAcq a).cfg = s.cfg := rfl
@[simp] theorem State.withAcq_acq (s : State) (a : Acq) : (s.withAcq a).acq = a := rfl
@[simp] theorem State.withAcq_xc (s : State) (a : Acq) : (s.withAcq a).xc = s.xc := rfl
@[simp] theorem State.withAcq_tx (s : State) (a : Acq) : (s.withAcq a).tx = s.tx := rfl
@[simp] theorem State.withAcq_acqUp (s : State) (a : Acq) : (s.withAcq a).acqUp = s.acqUp := rfl
@[simp] theorem State.withAcq_ctlUp (s : State) (a : Acq) : (s.withAcq a).ctlUp = s.ctlUp := rfl
@[simp] theorem State.withAcq_out (s : State) (a : Acq) : (s.withAcq a).out = s.out := rfl
@[simp] theorem State.withAcq_ret (s : State) (a : Acq) : (s.withAcq a).ret = s.ret := rfl
@[simp] theorem State.withAcq_stim (s : State) (a : Acq) : (s.withAcq a).stim = s.stim := rfl

@[simp] theorem State.withXc_cfg (s : State) (x : Chan) : (s.withXc x).cfg = s.cfg := rfl
@[simp] theorem State.withXc_acq (s : State) (x : Chan) : (s.withXc x).acq = s.acq := rfl
@[simp] theorem State.withXc_xc (s : State) (x : Chan) : (s.withXc x).xc = x := rfl
@[simp] theorem State.withXc_tx (s : State) (x : Chan) : (s.withXc x).tx = s.tx := rfl
@[simp] theorem State.withXc_acqUp (s : State) (x : Chan) : (s.withXc x).acqUp = s.acqUp := rfl
@[simp] theorem State.withXc_ctlUp (s : State) (x : Chan) : (s.withXc x).ctlUp = s.ctlUp := rfl
@[simp] theorem State.withXc_out (s : State) (x : Chan) : (s.withXc x).out = s.out := rfl
@[simp] theorem State.withXc_ret (s : State) (x : Chan) : (s.withXc x).ret = s.ret := rfl
@[simp] theorem State.withXc_stim (s : State) (x : Chan) : (s.withXc x).stim = s.stim := rfl

@[simp] theorem State.withTx_cfg (s : State) (t : Tx) : (s.withTx t).cfg = s.cfg := rfl
@[simp] theorem State.withTx_acq (s : State) (t : Tx) : (s.withTx t).acq = s.acq := rfl
@[simp] theorem State.withTx_xc (s : State) (t : Tx) : (s.withTx t).xc = s.xc := rfl
@[simp] theorem State.withTx_tx (s : State) (t : Tx) : (s.withTx t).tx = t := rfl
@[simp] theorem State.withTx_acqUp (s : State) (t : Tx) : (s.withTx t).acqUp = s.acqUp := rfl
@[simp] theorem State.withTx_ctlUp (s : State) (t : Tx) : (s.withTx t).ctlUp = s.ctlUp := rfl
@[simp] theorem State.withTx_out (s : State) (t : Tx) : (s.withTx t).out = s.out := rfl
@[simp] theorem State.withTx_ret (s : State) (t : Tx) : (s.withTx t).ret = s.ret := rfl
@[simp] theorem State.withTx_stim (s : State) (t : Tx) : (s.withTx t).stim = s.stim := rfl

@[simp] theorem State.withRet_cfg (s : State) (r : Ret) : (s.withRet r).cfg = s.cfg := rfl
@[simp] theorem State.withRet_acq (s : State) (r : Ret) : (s.withRet r).acq = s.acq := rfl
@[simp] theorem State.withRet_xc (s : State) (r : Ret) : (s.withRet r).xc = s.xc := rfl
@[simp] theorem State.withRet_tx (s : State) (r : Ret) : (s.withRet r).tx = s.tx := rfl
@[simp] theorem State.withRet_acqUp (s : State) (r : Ret) : (s.withRet r).acqUp = s.acqUp := rfl
@[simp] theorem State.withRet_ctlUp (s : State) (r : Ret) : (s.withRet r).ctlUp = s.ctlUp := rfl
@[simp] theorem State.withRet_out (s : State) (r : Ret) : (s.withRet r).out = s.out := rfl
@[simp] theorem State.withRet_ret (s : State) (r : Ret) : (s.withRet r).ret = r := rfl
@[simp] theorem State.withRet_stim (s : State) (r : Ret) : (s.withRet r).stim = s.stim := rfl

@[simp] theorem State.emit_cfg (s : State) (as : List Action) : (s.emit as).cfg = s.cfg := rfl
@[simp] theorem State.emit_acq (s : State) (as : List Action) : (s.emit as).acq = s.acq := rfl
@[simp] theorem State.emit_xc (s : State) (as : List Action) : (s.emit as).xc = s.xc := rfl
@[simp] theorem State.emit_tx (s : State) (as : List Action) : (s.emit as).tx = s.tx := rfl
@[simp] theorem State.emit_acqUp (s : State) (as : List Action) : (s.emit as).acqUp = s.acqUp := rfl
@[simp] theorem State.emit_ctlUp (s : State) (as : List Action) : (s.emit as).ctlUp = s.ctlUp := rfl
@[simp] theorem State.emit_out (s : State) (as : List Action) : (s.emit as).out = s.out ++ as := rfl
@[simp] theorem State.emit_ret (s : State) (as : List Action) : (s.emit as).ret = s.ret := rfl
@[simp] theorem State.emit_stim (s : State) (as : List Action) : (s.emit as).stim = s.stim := rfl

/-- No action emitted leaves the state as it was. -/
@[simp] theorem State.emit_nil (s : State) : s.emit [] = s := by simp [State.emit]

/-- Two lists of actions one after the other are their concatenation. -/
@[simp] theorem State.emit_emit (s : State) (as bs : List Action) :
    (s.emit as).emit bs = s.emit (as ++ bs) := by simp [State.emit, List.append_assoc]

@[simp] theorem State.resetOf_cfg (c : Config) : (State.resetOf c).cfg = c := rfl
@[simp] theorem State.resetOf_acq (c : Config) : (State.resetOf c).acq = acqResetVals c := rfl
@[simp] theorem State.resetOf_xc (c : Config) : (State.resetOf c).xc = chanResetVals := rfl
@[simp] theorem State.resetOf_tx (c : Config) : (State.resetOf c).tx = txResetVals c := rfl

end Sys2Proof.Machine
end

