-- ==== Sys2Proof/Laws/Ops.lean ====
section
/-! SUPPORT. One lemma per shared operation: once and for all what it can do. -/

namespace Sys2Proof.Machine

/-! ### Narrowing (R8) -/

/-- A value of `sW` survives the narrowing to its type. -/
theorem toInt_ofInt_of_inSW {v : Int} (h : InSW v) : (BitVec.ofInt 32 v).toInt = v := by
  rw [BitVec.toInt_ofInt]
  exact Int.bmod_eq_of_le (by unfold InSW at h; omega) (by unfold InSW at h; omega)

/-- Every register value is in `sW`. -/
theorem inSW_toInt (w : SW) : InSW w.toInt := by
  have := BitVec.toInt_lt (x := w)
  have := BitVec.le_toInt (x := w)
  unfold InSW
  omega

theorem toS_of_inSW {v : Int} (h : InSW v) : toS v = .ok (BitVec.ofInt 32 v) := if_pos h

theorem toS_of_not_inSW {v : Int} (h : ¬ InSW v) : toS v = .error .overflow := if_neg h

/-- A narrowing to `sW` answers a value exactly for the integers of `sW`, and it is that value. -/
theorem toS_ok_iff {v : Int} {w : SW} : toS v = .ok w ↔ w.toInt = v := by
  constructor
  · intro h
    by_cases hv : InSW v
    · rw [toS_of_inSW hv] at h
      cases h
      exact toInt_ofInt_of_inSW hv
    · rw [toS_of_not_inSW hv] at h
      cases h
  · rintro rfl
    rw [toS_of_inSW (inSW_toInt w), BitVec.ofInt_toInt]

@[simp] theorem toS_toInt (w : SW) : toS w.toInt = .ok w := toS_ok_iff.2 rfl

/-- A narrowing fails by overflow only, exactly outside `sW`. -/
theorem toS_error_iff {v : Int} {e : Fault} : toS v = .error e ↔ ¬ InSW v ∧ e = .overflow := by
  unfold toS
  split <;> simp_all [eq_comm]

theorem toU_of_mem {n : Nat} {v : Int} (h : 0 ≤ v ∧ v < 2 ^ n) : toU n v = .ok (BitVec.ofInt n v) :=
  if_pos h

theorem toU_error_iff {n : Nat} {v : Int} {e : Fault} :
    toU n v = .error e ↔ ¬ (0 ≤ v ∧ v < 2 ^ n) ∧ e = .overflow := by
  unfold toU
  split <;> simp_all [eq_comm]

/-- A natural number narrows to itself in `uN`. -/
theorem toU_natCast {n k : Nat} (h : k < 2 ^ n) : toU n (k : Int) = .ok (BitVec.ofNat n k) := by
  rw [toU_of_mem ⟨Int.natCast_nonneg k, by exact_mod_cast h⟩, BitVec.ofInt_natCast]

/-- Adding 1 to an unsigned register below its maximum. -/
theorem toU_succ {n : Nat} {b : BitVec n} (h : b.toNat + 1 < 2 ^ n) :
    toU n ((b.toNat : Int) + 1) = .ok (b + 1) := by
  have e : ((b.toNat : Int) + 1) = ((b.toNat + 1 : Nat) : Int) := by push_cast; rfl
  rw [e, toU_natCast h]
  congr 1
  apply BitVec.eq_of_toNat_eq
  simp [BitVec.toNat_add]

/-- Subtracting 1 from an unsigned register above 0. -/
theorem toU_pred {n : Nat} {b : BitVec n} (h : 0 < b.toNat) :
    toU n ((b.toNat : Int) - 1) = .ok (b - 1) := by
  have hb := b.isLt
  have e : ((b.toNat : Int) - 1) = ((b.toNat - 1 : Nat) : Int) := by omega
  rw [e, toU_natCast (by omega)]
  congr 1
  have hn : 1 < 2 ^ n := by omega
  apply BitVec.eq_of_toNat_eq
  rw [BitVec.toNat_sub, BitVec.toNat_ofNat]
  have h1 : (1 : BitVec n).toNat = 1 := by simp [BitVec.toNat_ofNat, Nat.mod_eq_of_lt hn]
  rw [h1, show 2 ^ n - 1 + b.toNat = (b.toNat - 1) + 2 ^ n by omega, Nat.add_mod_right]

/-! ### Index spaces (R64) -/

/-- A read inside the space answers the entry. -/
theorem memRead_of_lt {S : List SW} {i : Int} (h0 : 0 ≤ i) (h : i < S.length) :
    memRead S i = .ok (S.getD i.toNat 0) := by
  have hi : i.toNat < S.length := by omega
  unfold memRead
  rw [if_neg (by omega), List.getElem?_eq_getElem hi]
  simp [hi]

/-- A read outside the space is an index fault. -/
theorem memRead_of_outside {α : Type} {S : List α} {i : Int} (h : i < 0 ∨ (S.length : Int) ≤ i) :
    memRead S i = .error .index := by
  unfold memRead
  split
  · rfl
  · rw [List.getElem?_eq_none (by omega)]

/-- A read fails by index only. -/
theorem memRead_error {α : Type} {S : List α} {i : Int} {e : Fault} (h : memRead S i = .error e) :
    e = .index := by
  unfold memRead at h
  split at h
  · cases h; rfl
  · split at h
    · cases h
    · cases h; rfl

/-- A write keeps the length of its space. -/
theorem memWrite_length {α : Type} {S S' : List α} {i : Int} {v : α}
    (h : memWrite S i v = .ok S') : S'.length = S.length := by
  unfold memWrite at h
  split at h
  · cases h
  · cases h; simp

/-- A read after a write to the same place gives the value written. -/
theorem memRead_memWrite_same {α : Type} {S S' : List α} {i : Int} {v : α}
    (h : memWrite S i v = .ok S') : memRead S' i = .ok v := by
  unfold memWrite at h
  split at h
  · cases h
  · rename_i hi
    cases h
    unfold memRead
    rw [if_neg (by omega)]
    simp [show i.toNat < S.length by omega]

/-- A write leaves every other place alone. -/
theorem memRead_memWrite_other {α : Type} {S S' : List α} {i j : Int} {v : α}
    (h : memWrite S i v = .ok S') (hj : j ≠ i) : memRead S' j = memRead S j := by
  unfold memWrite at h
  split at h
  · cases h
  · rename_i hi
    cases h
    unfold memRead
    split
    · rfl
    · rw [List.getElem?_set_ne (by omega)]

theorem sumAt_of_le {S : List SW} {lo n : Nat} (h : lo + n ≤ S.length) :
    sumAt S lo n = .ok ((((S.drop lo).take n).map BitVec.toInt).sum) := if_pos (.inr h)

theorem sumAt_error {S : List SW} {lo n : Nat} {e : Fault} (h : sumAt S lo n = .error e) :
    e = .index := by
  unfold sumAt at h
  split at h
  · cases h
  · cases h; rfl

/-- Storing a message that fits keeps the buffer's length. -/
theorem msgStore_of_le {msg bytes : List Byte} (h : bytes.length ≤ msg.length) :
    msgStore msg bytes = .ok (bytes ++ msg.drop bytes.length) := if_pos h

theorem msgStore_length {msg bytes msg' : List Byte} (h : msgStore msg bytes = .ok msg') :
    msg'.length = msg.length := by
  unfold msgStore at h
  split at h
  · cases h; simp; omega
  · cases h

theorem msgBytes_of_le {t : Tx} (h : t.len.toNat ≤ t.msg.length) :
    msgBytes t = .ok (t.msg.take t.len.toNat) := if_pos h

/-- A read below `TX.len` answers the byte. -/
theorem msgRead_of_lt {t : Tx} {i : Nat} (h : i < t.len.toNat) (hl : t.len.toNat ≤ t.msg.length) :
    msgRead t i = .ok (t.msg.getD i 0) := by
  have hi : i < t.msg.length := by omega
  unfold msgRead memRead
  rw [if_neg (by omega), if_neg (by omega)]
  simp [hi]

/-! ### The shift register (R121 to R124) -/

/-- A push on a window that is not empty: the oldest entry leaves, the value becomes the newest. -/
theorem srPush_of_inSW {S : List SW} {v : Int} (hS : S ≠ []) (h : InSW v) :
    srPush S v = .ok (S.tail ++ [BitVec.ofInt 32 v]) := by
  cases S with
  | nil => exact absurd rfl hS
  | cons a rest => simp [srPush, toS_of_inSW h]

theorem srPush_of_not_inSW {S : List SW} {v : Int} (h : ¬ InSW v) : srPush S v = .error .overflow := by
  simp [srPush, toS_of_not_inSW h]

/-- A push of a register value never faults on a window that is not empty. -/
theorem srPush_toInt {S : List SW} (x : SW) (hS : S ≠ []) : srPush S x.toInt = .ok (S.tail ++ [x]) := by
  rw [srPush_of_inSW hS (inSW_toInt x), BitVec.ofInt_toInt]

/-- Once and for all: what a push answers. -/
theorem srPush_ok {S S' : List SW} {v : Int} (h : srPush S v = .ok S') :
    S ≠ [] ∧ InSW v ∧ S' = S.tail ++ [BitVec.ofInt 32 v] := by
  by_cases hv : InSW v
  · cases S with
    | nil => simp [srPush, toS_of_inSW hv] at h
    | cons a rest =>
      simp [srPush, toS_of_inSW hv] at h
      exact ⟨by simp, hv, by simp [← h]⟩
  · rw [srPush_of_not_inSW hv] at h
    cases h

/-- A push keeps the length of the window. -/
theorem srPush_length {S S' : List SW} {v : Int} (h : srPush S v = .ok S') : S'.length = S.length := by
  obtain ⟨hS, -, rfl⟩ := srPush_ok h
  have := List.length_pos_iff.2 hS
  simp
  omega

/-- The newest entry after a push is the value pushed; every other entry moved one place down. -/
theorem srPush_getD {S S' : List SW} {v : Int} (h : srPush S v = .ok S') (i : Nat) :
    S'.getD i 0 = if i + 1 = S.length then BitVec.ofInt 32 v else S.getD (i + 1) 0 := by
  obtain ⟨hS, -, rfl⟩ := srPush_ok h
  cases S with
  | nil => exact absurd rfl hS
  | cons a rest =>
    simp only [List.tail_cons, List.length_cons, Nat.add_right_cancel_iff, List.getD_eq_getElem?_getD,
      List.getElem?_append, List.getElem?_cons_succ]
    rcases Nat.lt_trichotomy i rest.length with hi | hi | hi
    · rw [if_pos hi, if_neg (by omega)]
    · simp [hi]
    · rw [if_neg (by omega), if_neg (by omega), List.getElem?_eq_none (by simp; omega),
        List.getElem?_eq_none (by omega)]

/-- A push or a sum fails by overflow or by index only. -/
theorem srPush_error {S : List SW} {v : Int} {e : Fault} (h : srPush S v = .error e) :
    (e = .overflow ∧ ¬ InSW v) ∨ (e = .index ∧ S = []) := by
  by_cases hv : InSW v
  · cases S with
    | nil =>
      simp [srPush, toS_of_inSW hv] at h
      exact .inr ⟨h.symm, rfl⟩
    | cons a rest => simp [srPush, toS_of_inSW hv] at h
  · rw [srPush_of_not_inSW hv] at h
    cases h
    exact .inl ⟨rfl, hv⟩

/-- The dot product fails by overflow only. -/
theorem convFrom_error {acc : SW} {A B : List SW} {e : Fault} (h : convFrom acc A B = .error e) :
    e = .overflow := by
  induction A generalizing acc B with
  | nil => simp [convFrom] at h
  | cons a as ih =>
    cases B with
    | nil => simp [convFrom] at h
    | cons b bs =>
      simp only [convFrom] at h
      split at h
      · rename_i hp
        cases h
        exact (toS_error_iff.1 hp).2
      · split at h
        · rename_i hp
          cases h
          exact (toS_error_iff.1 hp).2
        · exact ih h

/-- Once and for all: what an accumulation answers is the exact sum. -/
theorem convFrom_ok {acc r : SW} {A B : List SW} (h : convFrom acc A B = .ok r) :
    r.toInt = acc.toInt + (List.zipWith (fun x y => x.toInt * y.toInt) A B).sum := by
  induction A generalizing acc B with
  | nil => simp [convFrom] at h; simp [h]
  | cons a as ih =>
    cases B with
    | nil => simp [convFrom] at h; simp [h]
    | cons b bs =>
      simp only [convFrom] at h
      split at h
      · cases h
      · rename_i p hp
        split at h
        · cases h
        · rename_i acc' hacc
          rw [ih h, toS_ok_iff.1 hacc, toS_ok_iff.1 hp]
          simp [add_assoc]

/-! ### The channel (R205 to R207) -/

@[simp] theorem chanPush_full (x : Chan) (w : U32) : (chanPush x w).full = true := by
  unfold chanPush; split <;> simp_all

theorem chanPush_word (x : Chan) (w : U32) :
    (chanPush x w).word = if x.full then x.word else w := by
  unfold chanPush; split <;> simp_all

theorem chanPush_ovf (x : Chan) (w : U32) : (chanPush x w).ovf = (x.full || x.ovf) := by
  unfold chanPush; split <;> simp_all

@[simp] theorem chanPop_full (x : Chan) : (chanPop x).1.full = false := by
  unfold chanPop; split <;> simp_all

@[simp] theorem chanPop_word (x : Chan) : (chanPop x).1.word = x.word := by
  unfold chanPop; split <;> rfl

@[simp] theorem chanPop_ovf (x : Chan) : (chanPop x).1.ovf = x.ovf := by
  unfold chanPop; split <;> rfl

theorem chanPop_snd (x : Chan) : (chanPop x).2 = if x.full then some x.word else none := by
  unfold chanPop; split <;> rfl

@[simp] theorem chanTakeOvf_ovf (x : Chan) : (chanTakeOvf x).1.ovf = false := rfl
@[simp] theorem chanTakeOvf_full (x : Chan) : (chanTakeOvf x).1.full = x.full := rfl
@[simp] theorem chanTakeOvf_word (x : Chan) : (chanTakeOvf x).1.word = x.word := rfl
@[simp] theorem chanTakeOvf_snd (x : Chan) : (chanTakeOvf x).2 = x.ovf := rfl

/-! ### Outcomes -/

@[simp] theorem outcome_ok (s : State) : outcome (.ok s) = .next s := rfl
@[simp] theorem outcome_error (e : Fault) : outcome (.error e) = .fault e := rfl

theorem outcome_next_iff {r : Except Fault State} {t : State} : outcome r = .next t ↔ r = .ok t := by
  cases r <;> simp

theorem outcome_fault_iff {r : Except Fault State} {f : Fault} : outcome r = .fault f ↔ r = .error f := by
  cases r <;> simp

theorem acqOp_up {s : State} (h : s.acqUp = true) (r : Except Fault State) : acqOp s r = outcome r := by
  simp [acqOp, h]

theorem ctlOp_up {s : State} (h : s.ctlUp = true) (r : Except Fault State) : ctlOp s r = outcome r := by
  simp [ctlOp, h]

theorem acqOp_down {s : State} (h : s.acqUp = false) (r : Except Fault State) :
    acqOp s r = .fault .beforeReset := by simp [acqOp, h]

theorem ctlOp_down {s : State} (h : s.ctlUp = false) (r : Except Fault State) :
    ctlOp s r = .fault .beforeReset := by simp [ctlOp, h]

/-- An acquisition operation answers a next state only when the agent is up. -/
theorem acqOp_next_iff {s t : State} {r : Except Fault State} :
    acqOp s r = .next t ↔ s.acqUp = true ∧ r = .ok t := by
  cases h : s.acqUp <;> simp [acqOp, h, outcome_next_iff]

/-- A control operation answers a next state only when the agent is up. -/
theorem ctlOp_next_iff {s t : State} {r : Except Fault State} :
    ctlOp s r = .next t ↔ s.ctlUp = true ∧ r = .ok t := by
  cases h : s.ctlUp <;> simp [ctlOp, h, outcome_next_iff]

/-- An arm of UD.UPDATE answers a next state only when it is selected. -/
theorem udArm_next_iff {s t : State} {st : UdState} {r : Except Fault State} :
    udArm s st r = .next t ↔ s.acqUp = true ∧ s.acq.udSt = st ∧ r = .ok t := by
  cases h : s.acqUp <;> by_cases h' : s.acq.udSt = st <;> simp [udArm, h, h', outcome_next_iff]

/-- An arm of TX.TICK answers a next state only when it is selected. -/
theorem txArm_next_iff {s t : State} {st : TxState} {r : Except Fault State} :
    txArm s st r = .next t ↔ s.ctlUp = true ∧ s.tx.st = st ∧ r = .ok t := by
  cases h : s.ctlUp <;> by_cases h' : s.tx.st = st <;> simp [txArm, h, h', outcome_next_iff]

theorem udArm_selected {s : State} {st : UdState} (h : s.acqUp = true) (hs : s.acq.udSt = st)
    (r : Except Fault State) : udArm s st r = outcome r := by simp [udArm, h, hs]

theorem txArm_selected {s : State} {st : TxState} (h : s.ctlUp = true) (hs : s.tx.st = st)
    (r : Except Fault State) : txArm s st r = outcome r := by simp [txArm, h, hs]

/-! ### `signal` and the return (R233, R288, R289) -/

@[simp] theorem setErr_err (code : Status) (t : Tx) : (setErr code t).err = true := by
  unfold setErr; split <;> simp_all

/-- The first error of an attempt wins (R292). -/
theorem setErr_status (code : Status) (t : Tx) :
    (setErr code t).status = if t.err then t.status else code := by
  unfold setErr; split <;> rfl

@[simp] theorem setErr_st (code : Status) (t : Tx) : (setErr code t).st = t.st := by
  unfold setErr; split <;> rfl
@[simp] theorem setErr_msg (code : Status) (t : Tx) : (setErr code t).msg = t.msg := by
  unfold setErr; split <;> rfl
@[simp] theorem setErr_len (code : Status) (t : Tx) : (setErr code t).len = t.len := by
  unfold setErr; split <;> rfl
@[simp] theorem setErr_off (code : Status) (t : Tx) : (setErr code t).off = t.off := by
  unfold setErr; split <;> rfl
@[simp] theorem setErr_dl (code : Status) (t : Tx) : (setErr code t).dl = t.dl := by
  unfold setErr; split <;> rfl
@[simp] theorem setErr_lineBusy (code : Status) (t : Tx) : (setErr code t).lineBusy = t.lineBusy := by
  unfold setErr; split <;> rfl
@[simp] theorem setErr_coll (code : Status) (t : Tx) : (setErr code t).coll = t.coll := by
  unfold setErr; split <;> rfl
@[simp] theorem setErr_drv (code : Status) (t : Tx) : (setErr code t).drv = t.drv := by
  unfold setErr; split <;> rfl

/-- `setErr` is the update of the two error registers. -/
theorem setErr_eq (code : Status) (t : Tx) :
    setErr code t = { t with err := true, status := if t.err then t.status else code } := by
  unfold setErr
  split
  · rename_i h
    cases t
    simp_all
  · rfl

theorem toIdle_eq (t : Tx) : toIdle t =
    ({ t with st := .idle, len := 0, off := 0, coll := false, drv := false },
     (if t.drv then [.drvEnable false] else []) ++ [.done t.status]) := rfl

/-- `signal` before any byte is queued. -/
theorem signalIdle_eq (code : Status) (t : Tx) : signalIdle code t =
    ({ t with st := .idle, len := 0, off := 0, coll := false, drv := false, err := true,
              status := if t.err then t.status else code },
     (if t.drv then [.drvEnable false] else []) ++ [.done (if t.err then t.status else code)]) := by
  simp [signalIdle, toIdle, setErr_eq]

/-- `signal` once bytes are queued. -/
theorem abortTx_eq (c : Config) (now : U32) (code : Status) (t : Tx) : abortTx c now code t =
    ({ t with err := true, status := if t.err then t.status else code, coll := false,
              st := .runningWaitForIdle, dl := deadline now c.tWaitIdle }, [.txFlush]) := by
  simp [abortTx, setErr_eq]

@[simp] theorem clearErr_err (t : Tx) : (clearErr t).err = false := rfl
@[simp] theorem clearErr_status (t : Tx) : (clearErr t).status = .ok := rfl

/-- A deadline is the armed bound after `now` (R13). -/
theorem deadline_eq (now : U32) (T : BitVec 31) :
    deadline now T = BitVec.ofNat 32 (now.toNat + T.toNat) := by
  apply BitVec.eq_of_toNat_eq
  have := T.isLt
  simp [deadline, BitVec.toNat_add, BitVec.toNat_setWidth]

end Sys2Proof.Machine
end

