-- ==== Sys2Proof/Laws/Params.lean ====
section
/-! SUPPORT. What a legal configuration (R322) gives: the bounds of the derived constants. -/

namespace Sys2Proof.Machine

theorem cfgOk_of_legal {c : Config} (h : CfgLegal c) : cfgOk c = true := decide_eq_true h

theorem cfgOk_of_not_legal {c : Config} (h : ¬ CfgLegal c) : cfgOk c = false := decide_eq_false h

/-- The parts of a legal configuration that the proofs use, by name. -/
structure LegalBounds (c : Config) : Prop where
  q_pos : 1 ≤ c.dcQ.toNat
  a_pos : 0 < c.dcA.toNat
  a_lt : c.dcA.toNat < 2 ^ c.dcQ.toNat
  low_pos : 0 < c.thLow.toInt
  low_le_high : c.thLow.toInt ≤ c.thHigh.toInt
  den_pos : 1 ≤ c.attDen.toNat
  num_le_den : c.attNum.toNat ≤ c.attDen.toNat
  osr_even : osr c % 2 = 0
  osr_ge : 4 ≤ osr c
  osr_le : osr c ≤ 256
  thresh_pos : 1 ≤ rxThresh c
  parity_le : c.parity.toNat ≤ 2
  chars_pos : 1 ≤ c.lineFreeChars.toNat
  msgMax_pos : 1 ≤ c.msgMax.toNat

theorem CfgLegal.bounds {c : Config} (h : CfgLegal c) : LegalBounds c := by
  obtain ⟨-, -, -, h1, h2, h3, h4, h5, h6, h7, h8, h9, h10, -, -, h11, h12, h13, -, -, -, -, -, -, h14⟩ := h
  exact ⟨h1, h2, h3, h4, h5, h6, h7, h8, h9, h10, h11, h12, h13, h14⟩

theorem par_le (c : Config) : par c ≤ 1 := by unfold par; split <;> omega

theorem slots_eq (c : Config) : slots c = if c.parity = 0 then 10 else 11 := by
  unfold slots par; split <;> rfl

theorem slots_ge (c : Config) : 10 ≤ slots c := Nat.le_add_right 10 _

theorem slots_le (c : Config) : slots c ≤ 11 := Nat.add_le_add_left (par_le c) 10

theorem osr_lt (c : Config) : osr c < 512 := c.osr.isLt

/-- `DATA_LEN` fits `UD.cnt`, whatever the configuration holds. -/
theorem dataLen_lt (c : Config) : dataLen c < 2 ^ 16 := by
  have h1 := Nat.mul_le_mul (slots_le c) (Nat.le_of_lt_succ (osr_lt c))
  unfold dataLen
  omega

/-- `IDLE_TIMEOUT` fits `LB.cnt`, whatever the configuration holds (R201). -/
theorem idleTimeout_lt (c : Config) : idleTimeout c < 2 ^ 32 := by
  have h0 : c.lineFreeChars.toNat ≤ 255 := Nat.le_of_lt_succ c.lineFreeChars.isLt
  have h1 := Nat.mul_le_mul (Nat.mul_le_mul h0 (slots_le c)) (Nat.le_of_lt_succ (osr_lt c))
  unfold idleTimeout
  omega

/-- `DATA_LEN` is the last tick's index plus 1 (R171). -/
theorem dataLen_eq_lastTick (c : Config) (h : osr c % 2 = 0) :
    dataLen c = (slots c - 1) * osr c + osr c / 2 := by
  obtain ⟨k, hk⟩ : ∃ k, slots c = k + 1 := ⟨slots c - 1, by have := slots_ge c; omega⟩
  unfold dataLen
  rw [hk, Nat.add_sub_cancel, Nat.add_mul]
  omega

theorem dataLen_pos {c : Config} (h : LegalBounds c) : 0 < dataLen c := by
  have := h.osr_ge
  rw [dataLen_eq_lastTick c h.osr_even]
  omega

/-- The countdown of a legal configuration is longer than one sample (R211). -/
theorem idleTimeout_ge {c : Config} (h : LegalBounds c) : 2 ≤ idleTimeout c := by
  have h1 := Nat.mul_le_mul (Nat.mul_le_mul h.chars_pos (slots_ge c)) h.osr_ge
  unfold idleTimeout
  omega

end Sys2Proof.Machine
end

