-- ==== Sys2Proof/Laws/Dsp.lean ====
section
/-! SUPPORT. What FIR.UPDATE, RS.UPDATE, DC.UPDATE, LV.UPDATE and BD.UPDATE can do: when each
answers, what it answers, and how it fails. -/

namespace Sys2Proof.Machine

/-! ### Arithmetic -/

/-- The floor of a value of `sW` by a power of two is in `sW`. -/
theorem inSW_asr {v : Int} (h : InSW v) (n : Nat) : InSW (asr v n) := by
  have hp : (1 : Int) ≤ 2 ^ n := one_le_pow₀ (by decide)
  unfold InSW asr at *
  constructor
  · rw [Int.le_ediv_iff_mul_le (by omega)]
    nlinarith
  · rw [Int.ediv_lt_iff_lt_mul (by omega)]
    nlinarith

/-- Division toward zero does not grow a magnitude. -/
theorem natAbs_tdiv_le (v : Int) (d : Int) : (tdiv v d).natAbs ≤ v.natAbs := by
  unfold tdiv
  rw [Int.natAbs_tdiv]
  exact Nat.div_le_self _ _

/-- A value of magnitude at most that of a value of `sW`, and not below its negation, is in `sW`. -/
theorem inSW_tdiv {v : Int} (h : InSW v) (d : Int) (hd : 0 < d) : InSW (tdiv v d) := by
  unfold InSW tdiv at *
  rcases le_total 0 v with hv | hv
  · have h1 := Int.tdiv_nonneg hv hd.le
    have h2 := natAbs_tdiv_le v d
    unfold tdiv at h2
    omega
  · have h1 : Int.tdiv v d ≤ 0 := by
      rw [← neg_neg v, Int.neg_tdiv]
      have := Int.tdiv_nonneg (a := -v) (by omega) hd.le
      omega
    have h2 := natAbs_tdiv_le v d
    unfold tdiv at h2
    omega

/-! ### FIR.UPDATE (R126) -/

/-- FIR.UPDATE answers when the window is not empty and the dot product does. -/
theorem firUpdate_of_conv {c : Config} {a : Acq} {x acc : SW} (hne : a.firX ≠ [])
    (h : srConv (a.firX.tail ++ [x]) (firK c) = .ok acc) :
    firUpdate c a x = .ok ({ a with firX := a.firX.tail ++ [x] },
      BitVec.ofInt 32 (asr acc.toInt c.firShift.toNat)) := by
  simp only [firUpdate, srPush_toInt x hne, h, toS_of_inSW (inSW_asr (inSW_toInt acc) _)]

/-- Once and for all: what FIR.UPDATE answers. -/
theorem firUpdate_ok {c : Config} {a a' : Acq} {x y : SW} (h : firUpdate c a x = .ok (a', y)) :
    a.firX ≠ [] ∧ a' = { a with firX := a.firX.tail ++ [x] } := by
  unfold firUpdate at h
  split at h
  · cases h
  · rename_i X hX
    obtain ⟨hne, -, rfl⟩ := srPush_ok hX
    split at h
    · cases h
    · split at h
      · cases h
      · cases h
        exact ⟨hne, by rw [BitVec.ofInt_toInt]⟩

/-- FIR.UPDATE on a full window fails by overflow only (R126). -/
theorem firUpdate_error {c : Config} {a : Acq} {x : SW} {e : Fault} (hne : a.firX ≠ [])
    (h : firUpdate c a x = .error e) : e = .overflow := by
  unfold firUpdate at h
  rw [srPush_toInt x hne] at h
  split at h
  · rename_i hX
    cases hX
  · split at h
    · rename_i hc
      cases h
      exact convFrom_error hc
    · split at h
      · rename_i ht
        cases h
        exact (toS_error_iff.1 ht).2
      · cases h

/-! ### RS.UPDATE (R141) -/

/-- RS.UPDATE answers whenever the counter is in its range (R24). -/
theorem rsUpdate_of_le {c : Config} {a : Acq} (x : SW) (h : a.rsCnt.toNat ≤ c.rsDrop.toNat) :
    rsUpdate c a x = .ok ({ a with rsCnt := if a.rsCnt = c.rsDrop then 0 else a.rsCnt + 1 },
      if a.rsCnt = 0 then some x else none) := by
  unfold rsUpdate
  by_cases he : a.rsCnt = c.rsDrop
  · simp only [he, if_true]
  · have hlt := c.rsDrop.isLt
    have hne : a.rsCnt.toNat ≠ c.rsDrop.toNat := fun e => he (BitVec.eq_of_toNat_eq e)
    rw [if_neg he, toU_succ (n := 16) (by omega), if_neg he]

/-- The counter stays in its range (R24). -/
theorem rsUpdate_cnt_le {c : Config} {a : Acq} (h : a.rsCnt.toNat ≤ c.rsDrop.toNat) :
    (if a.rsCnt = c.rsDrop then 0 else a.rsCnt + 1 : BitVec 16).toNat ≤ c.rsDrop.toNat := by
  split
  · simp
  · rename_i he
    have hlt := c.rsDrop.isLt
    have hne : a.rsCnt.toNat ≠ c.rsDrop.toNat := fun e => he (BitVec.eq_of_toNat_eq e)
    rw [BitVec.toNat_add, show (1 : BitVec 16).toNat = 1 from rfl, Nat.mod_eq_of_lt (by omega)]
    omega

/-- RS.UPDATE writes its counter only. -/
theorem rsUpdate_frame {c : Config} {a a' : Acq} {x : SW} {y : Option SW}
    (h : rsUpdate c a x = .ok (a', y)) : a' = { a with rsCnt := a'.rsCnt } := by
  unfold rsUpdate at h
  split at h <;> cases h
  rfl

/-! ### DC.UPDATE (R145) -/

theorem dcUpdate_of_inSW {c : Config} {a : Acq} {x : SW} (h : InSW (dcNext c a x)) :
    dcUpdate c a x = .ok ({ a with dcXp := x, dcYa := BitVec.ofInt 32 (dcNext c a x) },
      BitVec.ofInt 32 (tdiv (dcNext c a x) (2 ^ c.dcQ.toNat))) := by
  have hd : InSW (tdiv (dcNext c a x) (2 ^ c.dcQ.toNat)) := inSW_tdiv h _ (by positivity)
  simp only [dcUpdate, toS_of_inSW h, toS_of_inSW hd]

theorem dcUpdate_of_not_inSW {c : Config} {a : Acq} {x : SW} (h : ¬ InSW (dcNext c a x)) :
    dcUpdate c a x = .error .overflow := by
  simp only [dcUpdate, toS_of_not_inSW h]

/-- Once and for all: what DC.UPDATE answers. -/
theorem dcUpdate_ok {c : Config} {a a' : Acq} {x y : SW} (h : dcUpdate c a x = .ok (a', y)) :
    InSW (dcNext c a x) ∧
    a' = { a with dcXp := x, dcYa := BitVec.ofInt 32 (dcNext c a x) } ∧
    y = BitVec.ofInt 32 (tdiv (dcNext c a x) (2 ^ c.dcQ.toNat)) := by
  by_cases hin : InSW (dcNext c a x)
  · rw [dcUpdate_of_inSW hin] at h
    cases h
    exact ⟨hin, rfl, rfl⟩
  · rw [dcUpdate_of_not_inSW hin] at h
    cases h

theorem dcUpdate_error {c : Config} {a : Acq} {x : SW} {e : Fault} (h : dcUpdate c a x = .error e) :
    e = .overflow := by
  by_cases hin : InSW (dcNext c a x)
  · rw [dcUpdate_of_inSW hin] at h
    cases h
  · rw [dcUpdate_of_not_inSW hin] at h
    cases h
    rfl

/-! ### LV.UPDATE (R150) -/

/-- The attenuated sample is no larger than the sample, so it is in `sW`. -/
theorem natAbs_attenuated_le {c : Config} (h : LegalBounds c) (x : SW) :
    (tdiv (x.toInt * (c.attNum.toNat : Int)) (c.attDen.toNat : Int)).natAbs ≤ x.toInt.natAbs := by
  unfold tdiv
  rw [Int.natAbs_tdiv, Int.natAbs_mul, Int.natAbs_natCast, Int.natAbs_natCast]
  apply Nat.div_le_of_le_mul
  rw [Nat.mul_comm]
  exact Nat.mul_le_mul_right _ h.num_le_den

theorem inSW_attenuated {c : Config} (h : LegalBounds c) (x : SW) :
    InSW (tdiv (x.toInt * (c.attNum.toNat : Int)) (c.attDen.toNat : Int)) := by
  have h1 := natAbs_attenuated_le h x
  have h2 := inSW_toInt x
  have hd : (0 : Int) < c.attDen.toNat := by exact_mod_cast h.den_pos
  unfold InSW at *
  rcases le_total 0 x.toInt with hx | hx
  · have : 0 ≤ tdiv (x.toInt * (c.attNum.toNat : Int)) (c.attDen.toNat : Int) :=
      Int.tdiv_nonneg (mul_nonneg hx (Int.natCast_nonneg _)) hd.le
    omega
  · have : tdiv (x.toInt * (c.attNum.toNat : Int)) (c.attDen.toNat : Int) ≤ 0 := by
      unfold tdiv
      rw [← neg_neg (x.toInt * _), Int.neg_tdiv]
      have := Int.tdiv_nonneg (a := -(x.toInt * (c.attNum.toNat : Int)))
        (b := (c.attDen.toNat : Int)) (by nlinarith [Int.natCast_nonneg c.attNum.toNat]) hd.le
      omega
    omega

/-- LV.UPDATE answers in every state of a legal configuration. -/
theorem lvUpdate_of_legal {c : Config} (h : LegalBounds c) (a : Acq) (x : SW) :
    lvUpdate c a x = .ok ({ a with lvSt := lvNext c a.lvSt x },
      if lvNext c a.lvSt x = .idle then
        BitVec.ofInt 32 (tdiv (x.toInt * (c.attNum.toNat : Int)) (c.attDen.toNat : Int))
      else x) := by
  have hden : c.attDen ≠ 0 := by
    intro e
    have := h.den_pos
    rw [e] at this
    exact absurd this (by decide)
  simp only [lvUpdate]
  by_cases hst : lvNext c a.lvSt x = .idle
  · simp only [hst, if_true, if_neg hden, toS_of_inSW (inSW_attenuated h x)]
  · simp only [if_neg hst]

/-- LV.UPDATE writes `LV.st` only. -/
theorem lvUpdate_ok {c : Config} {a a' : Acq} {x y : SW} (h : lvUpdate c a x = .ok (a', y)) :
    a' = { a with lvSt := lvNext c a.lvSt x } := by
  simp only [lvUpdate] at h
  split at h
  · cases h
  · cases h; rfl

/-- LV.UPDATE never makes a sample larger (R326). -/
theorem lvUpdate_natAbs_le {c : Config} (hc : LegalBounds c) {a a' : Acq} {x y : SW}
    (h : lvUpdate c a x = .ok (a', y)) : y.toInt.natAbs ≤ x.toInt.natAbs := by
  rw [lvUpdate_of_legal hc] at h
  cases h
  split
  · rw [toInt_ofInt_of_inSW (inSW_attenuated hc x)]
    exact natAbs_attenuated_le hc x
  · exact le_rfl

/-! ### BD.UPDATE (R162) -/

/-- On a full window `high_corr` is its sum over `1 .. N/2`, narrowed. -/
theorem highCorr_of_length {c : Config} {raw : List SW} (hc : LegalBounds c) (h : raw.length = osr c) :
    highCorr c raw = toS (((raw.drop 1).take (osr c / 2)).map BitVec.toInt).sum := by
  have := hc.osr_ge
  simp only [highCorr, sumAt_of_le (show 1 + osr c / 2 ≤ raw.length by omega)]

/-- On a full window `abs_energy` is its sum over index 0 and `N/2+1 .. N−1`, narrowed. -/
theorem absEnergy_of_length {c : Config} {ab : List SW} (hc : LegalBounds c) (h : ab.length = osr c) :
    absEnergy c ab = toS ((ab.getD 0 0).toInt +
      (((ab.drop (osr c / 2 + 1)).take (osr c - 1 - osr c / 2)).map BitVec.toInt).sum) := by
  have := hc.osr_ge
  unfold absEnergy
  rw [memRead_of_lt (by omega) (by omega), sumAt_of_le (by omega)]
  rfl

/-- Once and for all: what BD.UPDATE answers. -/
theorem bdUpdate_ok {c : Config} {a a' : Acq} {x p : SW} (h : bdUpdate c a x = .ok (a', p)) :
    InSW (x.toInt.natAbs : Int) ∧ a.bdRaw ≠ [] ∧ a.bdAb ≠ [] ∧
    a' = { a with
      bdRaw := a.bdRaw.tail ++ [x]
      bdAb := a.bdAb.tail ++ [BitVec.ofInt 32 (x.toInt.natAbs : Int)] } := by
  unfold bdUpdate at h
  split at h
  · rename_i raw ab hr ha
    obtain ⟨hr1, -, rfl⟩ := srPush_ok hr
    obtain ⟨ha1, hin, rfl⟩ := srPush_ok ha
    split at h
    · split at h
      · cases h
        rw [BitVec.ofInt_toInt]
        exact ⟨hin, hr1, ha1, rfl⟩
      · cases h
    · cases h
    · cases h
  · cases h
  · cases h

/-- Once and for all, on full windows: BD.UPDATE answers exactly when the magnitude, both window sums
and the reported value are in `sW`, and otherwise overflows (R162, U3). -/
theorem bdUpdate_of_length {c : Config} {a : Acq} (x : SW) (hc : LegalBounds c)
    (hr : a.bdRaw.length = osr c) (ha : a.bdAb.length = osr c) :
    let raw := a.bdRaw.tail ++ [x]
    let ab := a.bdAb.tail ++ [BitVec.ofInt 32 (x.toInt.natAbs : Int)]
    let high := (((raw.drop 1).take (osr c / 2)).map BitVec.toInt).sum
    let energy := (ab.getD 0 0).toInt +
      (((ab.drop (osr c / 2 + 1)).take (osr c - 1 - osr c / 2)).map BitVec.toInt).sum
    bdUpdate c a x =
      if InSW (x.toInt.natAbs : Int) ∧ InSW high ∧ InSW energy ∧ InSW (symbolProb c high energy) then
        .ok ({ a with bdRaw := raw, bdAb := ab }, BitVec.ofInt 32 (symbolProb c high energy))
      else .error .overflow := by
  intro raw ab high energy
  have hosr := hc.osr_ge
  have hne : a.bdRaw ≠ [] := by intro h0; rw [h0] at hr; simp at hr; omega
  have hna : a.bdAb ≠ [] := by intro h0; rw [h0] at ha; simp at ha; omega
  have hlen : raw.length = osr c := by simp [raw]; omega
  have hlab : ab.length = osr c := by simp [ab]; omega
  have hh : highCorr c raw = toS high := highCorr_of_length hc hlen
  have he : absEnergy c ab = toS energy := absEnergy_of_length hc hlab
  unfold bdUpdate
  rw [srPush_toInt x hne]
  by_cases h1 : InSW (x.toInt.natAbs : Int)
  · rw [srPush_of_inSW hna h1]
    simp only [show a.bdRaw.tail ++ [x] = raw from rfl,
      show a.bdAb.tail ++ [BitVec.ofInt 32 (x.toInt.natAbs : Int)] = ab from rfl, hh, he]
    by_cases h2 : InSW high
    · by_cases h3 : InSW energy
      · simp only [toS_of_inSW h2, toS_of_inSW h3, toInt_ofInt_of_inSW h2, toInt_ofInt_of_inSW h3]
        by_cases h4 : InSW (symbolProb c high energy)
        · rw [toS_of_inSW h4, if_pos ⟨h1, h2, h3, h4⟩]
        · rw [toS_of_not_inSW h4, if_neg fun h => h4 h.2.2.2]
      · rw [toS_of_inSW h2, toS_of_not_inSW h3, if_neg fun h => h3 h.2.2.1]
    · rw [toS_of_not_inSW h2, if_neg fun h => h2 h.2.1]
  · rw [srPush_of_not_inSW h1, if_neg fun h => h1 h.1]

/-- The only fault of BD.UPDATE on full windows is the overflow. -/
theorem bdUpdate_error {c : Config} {a : Acq} {x : SW} {e : Fault} (hc : LegalBounds c)
    (hr : a.bdRaw.length = osr c) (ha : a.bdAb.length = osr c) (h : bdUpdate c a x = .error e) :
    e = .overflow := by
  rw [bdUpdate_of_length x hc hr ha] at h
  split at h <;> cases h
  rfl

end Sys2Proof.Machine
end

