-- ==== Sys2Proof/Laws/UartDecoder.lean ====
section
/-! SUPPORT. What the decoder's arms, the phase search and the line-busy tracker can do. -/

namespace Sys2Proof.Machine

/-! ### The search (R178) -/

/-- The most confident of a list that is not empty exists, and it is a member. -/
theorem mostConfident_mem {es : List PhaseEval} {m : PhaseEval} (h : mostConfident es = some m) :
    m ∈ es := by
  induction es generalizing m with
  | nil => simp [mostConfident] at h
  | cons e es ih =>
    simp only [mostConfident] at h
    split at h
    · cases h; simp
    · rename_i k hk
      split at h <;> cases h
      · exact List.mem_cons_of_mem _ (ih hk)
      · simp

theorem mostConfident_isSome {es : List PhaseEval} (h : es ≠ []) : ∃ m, mostConfident es = some m := by
  cases es with
  | nil => exact absurd rfl h
  | cons e es =>
    simp only [mostConfident]
    split
    · exact ⟨_, rfl⟩
    · split <;> exact ⟨_, rfl⟩

/-- No member is more confident than the most confident one. -/
theorem conf_le_mostConfident {es : List PhaseEval} {m : PhaseEval} (h : mostConfident es = some m) :
    ∀ e ∈ es, e.conf ≤ m.conf := by
  induction es generalizing m with
  | nil => simp
  | cons e es ih =>
    simp only [mostConfident] at h
    intro x hx
    split at h
    · rename_i hn
      cases h
      have : es = [] := by
        by_contra hne
        obtain ⟨k, hk⟩ := mostConfident_isSome hne
        rw [hk] at hn
        cases hn
      subst this
      simp only [List.mem_singleton] at hx
      rw [hx]
    · rename_i k hk
      have hx' := List.mem_cons.1 hx
      split at h <;> cases h
      · rcases hx' with rfl | hx'
        · omega
        · exact ih hk x hx'
      · rcases hx' with rfl | hx'
        · exact le_rfl
        · have := ih hk x hx'
          omega

/-- The candidates are not empty where there is a phase at all. -/
theorem candidates_ne_nil {es : List PhaseEval} (h : es ≠ []) : candidates es ≠ [] := by
  unfold candidates
  split
  · exact h
  · rename_i hne
    intro h0
    rw [h0] at hne
    exact hne rfl

/-- Every candidate is one of the phases. -/
theorem candidates_subset (es : List PhaseEval) : ∀ e ∈ candidates es, e ∈ es := by
  intro e he
  unfold candidates at he
  split at he
  · exact he
  · exact (List.mem_filter.1 he).1

theorem ticksInside_of_length {c : Config} {ph : List SW} (hc : LegalBounds c)
    (h : ph.length = dataLen c) : ticksInside c ph = true := by
  rw [ticksInside, h, dataLen_eq_lastTick c hc.osr_even]
  exact decide_eq_true le_rfl

/-- UD.PHASE_SEARCH answers on a full buffer of a legal configuration, with the reading of one of the
phases. -/
theorem phaseSearch_of_length {c : Config} {a : Acq} (hc : LegalBounds c)
    (h : a.udPh.length = dataLen c) :
    ∃ q, q < osr c / 2 ∧ mostConfident (candidates (allPhases c a.udPh)) = some (evalPhase c a.udPh q) ∧
      phaseSearch c a = .ok { data := (evalPhase c a.udPh q).data
                              parityOk := (evalPhase c a.udPh q).parOk
                              framingOk := (evalPhase c a.udPh q).frmOk &&
                                (evalPhase c a.udPh q).conf != 0 } := by
  have hosr := hc.osr_ge
  have hne : allPhases c a.udPh ≠ [] := by
    intro h0
    have := congrArg List.length h0
    simp [allPhases] at this
    omega
  obtain ⟨m, hm⟩ := mostConfident_isSome (candidates_ne_nil hne)
  have hmem := candidates_subset _ m (mostConfident_mem hm)
  obtain ⟨q, hq, rfl⟩ := List.mem_map.1 hmem
  refine ⟨q, List.mem_range.1 hq, hm, ?_⟩
  simp only [phaseSearch, ticksInside_of_length hc h, hm, Bool.not_true, Bool.false_eq_true, if_false]

/-! ### The arms (R173 to R176) -/

theorem udWaitStartArm_of_hit {c : Config} {a : Acq} {p : SW} (h : p ≠ 0) :
    udWaitStartArm c a p =
      .ok ({ a with udSt := .data, udCnt := BitVec.ofNat 16 (dataLen c) }, none) := by
  simp only [udWaitStartArm, if_neg h, toU_natCast (dataLen_lt c)]

theorem udDataArm_of_pos {a : Acq} {p : SW} (hph : a.udPh ≠ []) (hcnt : 0 < a.udCnt.toNat) :
    udDataArm a p = .ok ({ a with
      udPh := a.udPh.tail ++ [p]
      udCnt := a.udCnt - 1
      udSt := if a.udCnt - 1 = 0 then .stop else a.udSt }, none) := by
  simp only [udDataArm, srPush_toInt p hph, toU_pred hcnt]

/-- The countdown after one Data call (R175). -/
theorem udCnt_pred {n : BitVec 16} (h : 0 < n.toNat) : (n - 1).toNat = n.toNat - 1 := by
  have hn := n.isLt
  rw [BitVec.toNat_sub, show (1 : BitVec 16).toNat = 1 from rfl]
  omega

/-- The decoder's update answers on every state that meets R181, in the arm of its state. -/
theorem udUpdate_answers {c : Config} {a : Acq} (p : SW) (hc : LegalBounds c)
    (hph : a.udPh.length = dataLen c) (hcnt : a.udSt = .data → 0 < a.udCnt.toNat) :
    ∃ r, udUpdate c a p = .ok r := by
  have hpos := dataLen_pos hc
  unfold udUpdate
  split
  · exact ⟨_, rfl⟩
  · by_cases h : p = 0
    · exact ⟨_, by rw [udWaitStartArm, if_pos h]⟩
    · exact ⟨_, udWaitStartArm_of_hit h⟩
  · rename_i h
    exact ⟨_, udDataArm_of_pos (by intro h0; rw [h0] at hph; simp at hph; omega) (hcnt h)⟩
  · obtain ⟨q, -, -, hs⟩ := phaseSearch_of_length hc hph
    exact ⟨_, by rw [udStopArm, hs]⟩

/-- UD.UPDATE writes the decoder's registers only. -/
theorem udUpdate_frame {c : Config} {a a' : Acq} {p : SW} {ev : Option ByteEvent}
    (h : udUpdate c a p = .ok (a', ev)) :
    a' = { a with udSt := a'.udSt, udCnt := a'.udCnt, udPh := a'.udPh } := by
  unfold udUpdate udWaitIdleArm udWaitStartArm udDataArm udStopArm at h
  repeat' split at h
  all_goals cases h <;> rfl

/-- An event leaves the decoder only as it returns to WaitIdle from Stop (R176). -/
theorem udUpdate_event {c : Config} {a a' : Acq} {p : SW} {e : ByteEvent}
    (h : udUpdate c a p = .ok (a', some e)) : a.udSt = .stop ∧ a'.udSt = .waitIdle := by
  unfold udUpdate udWaitIdleArm udWaitStartArm udDataArm udStopArm at h
  repeat' split at h
  all_goals (cases h <;> try exact ⟨‹_›, rfl⟩)

/-! ### LB.UPDATE (R202) -/

theorem lbUpdate_rising (c : Config) {a : Acq} (h : a.lbPrev = false) :
    lbUpdate c a true = .ok ({ a with
      lbBusy := true, lbCnt := BitVec.ofNat 32 (idleTimeout c), lbPrev := true },
      ⟨!a.lbBusy, false⟩) := by
  simp [lbUpdate, h, toU_natCast (idleTimeout_lt c)]

theorem lbUpdate_counting (c : Config) {a : Acq} (hb : a.lbBusy = true) (hcnt : 0 < a.lbCnt.toNat) :
    lbUpdate c a false = .ok ({ a with
      lbBusy := a.lbCnt - 1 != 0, lbCnt := a.lbCnt - 1, lbPrev := false },
      ⟨false, a.lbCnt - 1 == 0⟩) := by
  simp [lbUpdate, hb, toU_pred hcnt]

theorem lbUpdate_still (c : Config) {a : Acq} {rcv : Bool}
    (h : (rcv = true ∧ a.lbPrev = true) ∨ (rcv = false ∧ a.lbBusy = false)) :
    lbUpdate c a rcv = .ok ({ a with lbPrev := rcv }, ⟨false, false⟩) := by
  rcases h with ⟨rfl, h⟩ | ⟨rfl, h⟩ <;> simp [lbUpdate, h]

/-- The countdown after one sample (R202). -/
theorem lbCnt_pred {n : BitVec 32} (h : 0 < n.toNat) : (n - 1).toNat = n.toNat - 1 := by
  have hn := n.isLt
  rw [BitVec.toNat_sub, show (1 : BitVec 32).toNat = 1 from rfl]
  omega

/-- LB.UPDATE answers on every state that meets R203. -/
theorem lbUpdate_answers (c : Config) {a : Acq} (rcv : Bool)
    (h : a.lbBusy = true → 0 < a.lbCnt.toNat) : ∃ r, lbUpdate c a rcv = .ok r := by
  cases rcv with
  | true =>
    cases hp : a.lbPrev with
    | true => exact ⟨_, lbUpdate_still c (.inl ⟨rfl, hp⟩)⟩
    | false => exact ⟨_, lbUpdate_rising c hp⟩
  | false =>
    cases hb : a.lbBusy with
    | true => exact ⟨_, lbUpdate_counting c hb (h hb)⟩
    | false => exact ⟨_, lbUpdate_still c (.inr ⟨rfl, hb⟩)⟩

/-- LB.UPDATE writes its three registers only, and `LB.prev` is the sample's `receiving`. -/
theorem lbUpdate_frame {c : Config} {a a' : Acq} {rcv : Bool} {e : Edges}
    (h : lbUpdate c a rcv = .ok (a', e)) :
    a' = { a with lbBusy := a'.lbBusy, lbPrev := rcv, lbCnt := a'.lbCnt } := by
  unfold lbUpdate at h
  repeat' split at h
  all_goals cases h <;> rfl

/-- The two edges never come together, a busy edge only with `receiving` (R202, corner case d). -/
theorem lbUpdate_edges {c : Config} {a a' : Acq} {rcv : Bool} {e : Edges}
    (h : lbUpdate c a rcv = .ok (a', e)) :
    (e.busy = true → rcv = true ∧ a.lbPrev = false ∧ e.free = false) ∧
    (e.free = true → rcv = false ∧ a.lbBusy = true ∧ a.lbCnt.toNat = 1) := by
  unfold lbUpdate at h
  split at h
  · rename_i h0
    split at h <;> cases h
    simp_all
  · split at h
    · rename_i h1
      split at h <;> cases h
      rename_i cnt hcnt
      simp only [Bool.and_eq_true, Bool.not_eq_true'] at h1
      refine ⟨by simp, fun hf => ⟨h1.1, h1.2, ?_⟩⟩
      simp only [beq_iff_eq] at hf
      subst hf
      by_contra hne
      have hlt := a.lbCnt.isLt
      by_cases hz : a.lbCnt.toNat = 0
      · rw [hz] at hcnt
        cases hcnt
      · rw [toU_pred (by omega)] at hcnt
        have h2 : (a.lbCnt - 1).toNat = (0 : BitVec 32).toNat :=
          congrArg BitVec.toNat (Except.ok.inj hcnt)
        rw [lbCnt_pred (by omega)] at h2
        have h3 : (0 : BitVec 32).toNat = 0 := rfl
        omega
    · cases h
      simp

end Sys2Proof.Machine
end

