-- ==== Sys2Proof/Laws/Acquisition.lean ====
section
/-! SUPPORT. Every component of the acquisition side answers on registers that meet its invariant (but
for the overflow faults the rules name) and keeps the invariant and the canonical form of the index
spaces. -/

namespace Sys2Proof.Machine

/-! ### The canonical form of the index spaces (R61) -/

/-- The whole window of a pushed register, replaced by one of the same length, keeps the canonical
form. -/
theorem winSet_keeps_wf {s : State} {w : Win} {S : List SW} (h : Memory.wf s = true)
    (hS : S.length = (winGet w s.acq).length) : Memory.wf (s.withAcq (winSet w S s.acq)) = true := by
  simp only [Memory.wf, decide_eq_true_eq] at h ⊢
  cases w <;> simp_all [winSet, winGet, State.withAcq]

/-- SR.PUSH keeps the canonical form. -/
theorem srPush_keeps_wf {s : State} {w : Win} {S : List SW} {v : Int} (h : Memory.wf s = true)
    (hp : srPush (winGet w s.acq) v = .ok S) : Memory.wf (s.withAcq (winSet w S s.acq)) = true :=
  winSet_keeps_wf h (srPush_length hp)

/-- MemWrite on a window keeps the canonical form. -/
theorem memWrite_keeps_wf {s : State} {w : Win} {S : List SW} {i : Int} {v : SW} (h : Memory.wf s = true)
    (hw : memWrite (winGet w s.acq) i v = .ok S) : Memory.wf (s.withAcq (winSet w S s.acq)) = true :=
  winSet_keeps_wf h (memWrite_length hw)

/-- Storing a request keeps the canonical form. -/
theorem msgStore_keeps_wf {s : State} {bytes msg : List Byte} (h : Memory.wf s = true)
    (hm : msgStore s.tx.msg bytes = .ok msg) : Memory.wf (s.withTx { s.tx with msg := msg }) = true := by
  simp only [Memory.wf, decide_eq_true_eq] at h ⊢
  exact ⟨h.1, h.2.1, h.2.2.1, h.2.2.2.1, (msgStore_length hm).trans h.2.2.2.2⟩

/-- The reset state of every configuration has the canonical form. -/
theorem resetOf_wf (c : Config) : Memory.wf (State.resetOf c) = true := by
  simp [Memory.wf, State.resetOf, acqResetVals, txResetVals]

/-- The state after reset has the canonical form. -/
theorem reset_wf : Memory.wf State.reset = true := resetOf_wf refCfg

/-! ### The invariant, component by component -/

theorem AcqInv.firX_ne {c : Config} {a : Acq} (h : AcqInv c a) : a.firX ≠ [] := by
  intro h0
  have := h.1
  rw [h0] at this
  cases this

theorem AcqInv.firUpdate {c : Config} {a a' : Acq} {x y : SW} (h : AcqInv c a)
    (hu : Machine.firUpdate c a x = .ok (a', y)) : AcqInv c a' := by
  obtain ⟨-, rfl⟩ := firUpdate_ok hu
  obtain ⟨h1, h2⟩ := h
  exact ⟨by simp; omega, h2⟩

theorem AcqInv.rsUpdate {c : Config} {a a' : Acq} {x : SW} {y : Option SW} (h : AcqInv c a)
    (hu : Machine.rsUpdate c a x = .ok (a', y)) : AcqInv c a' := by
  obtain ⟨h1, h2, h3, h4, h5, h6⟩ := h
  rw [rsUpdate_of_le x h5] at hu
  cases hu
  exact ⟨h1, h2, h3, h4, rsUpdate_cnt_le h5, h6⟩

theorem AcqInv.dcUpdate {c : Config} {a a' : Acq} {x y : SW} (h : AcqInv c a)
    (hu : Machine.dcUpdate c a x = .ok (a', y)) : AcqInv c a' := by
  obtain ⟨-, rfl, -⟩ := dcUpdate_ok hu
  exact h

theorem AcqInv.lvUpdate {c : Config} {a a' : Acq} {x y : SW} (h : AcqInv c a)
    (hu : Machine.lvUpdate c a x = .ok (a', y)) : AcqInv c a' := by
  obtain rfl := lvUpdate_ok hu
  exact h

theorem AcqInv.bdUpdate {c : Config} {a a' : Acq} {x p : SW} (h : AcqInv c a)
    (hu : Machine.bdUpdate c a x = .ok (a', p)) : AcqInv c a' := by
  obtain ⟨-, hr, ha, rfl⟩ := bdUpdate_ok hu
  have hr' := List.length_pos_iff.2 hr
  have ha' := List.length_pos_iff.2 ha
  obtain ⟨h1, h2, h3, h4⟩ := h
  exact ⟨h1, by simp; omega, by simp; omega, h4⟩

/-- The part of the invariant that the decoder's arms write. -/
theorem AcqInv.decoder {c : Config} {a : Acq} (h : AcqInv c a) {st : UdState} {cnt : BitVec 16}
    {ph : List SW} (hph : ph.length = dataLen c) (hcnt : 0 < cnt.toNat ↔ st = .data)
    (hle : cnt.toNat ≤ dataLen c) : AcqInv c { a with udSt := st, udCnt := cnt, udPh := ph } := by
  obtain ⟨h1, h2, h3, h4, h5, h6, h7, h8⟩ := h
  exact ⟨h1, h2, h3, hph, h5, hcnt, hle, h8⟩

theorem AcqInv.udWaitIdleArm {c : Config} {a a' : Acq} {p : SW} {ev : Option ByteEvent}
    (h : AcqInv c a) (hs : a.udSt = .waitIdle) (hu : Machine.udWaitIdleArm a p = .ok (a', ev)) :
    AcqInv c a' := by
  unfold Machine.udWaitIdleArm at hu
  cases hu
  split
  · exact h
  · exact h.decoder h.2.2.2.1 (by simp [h.2.2.2.2.2.1, hs]) h.2.2.2.2.2.2.1

theorem AcqInv.udWaitStartArm {c : Config} {a a' : Acq} {p : SW} {ev : Option ByteEvent}
    (hc : LegalBounds c) (h : AcqInv c a) (hs : a.udSt = .waitStart)
    (hu : Machine.udWaitStartArm c a p = .ok (a', ev)) : AcqInv c a' := by
  have hpos := dataLen_pos hc
  have hn : (BitVec.ofNat 16 (dataLen c)).toNat = dataLen c := by
    rw [BitVec.toNat_ofNat, Nat.mod_eq_of_lt (dataLen_lt c)]
  by_cases hp : p = 0
  · simp only [Machine.udWaitStartArm, if_pos hp] at hu
    cases hu
    exact h.decoder h.2.2.2.1 (by simp [h.2.2.2.2.2.1, hs]) h.2.2.2.2.2.2.1
  · rw [udWaitStartArm_of_hit hp] at hu
    cases hu
    exact h.decoder h.2.2.2.1 (by simp only [hn, hpos]) (by rw [hn])

theorem AcqInv.udDataArm {c : Config} {a a' : Acq} {p : SW} {ev : Option ByteEvent}
    (hc : LegalBounds c) (h : AcqInv c a) (hs : a.udSt = .data)
    (hu : Machine.udDataArm a p = .ok (a', ev)) : AcqInv c a' := by
  have hpos := dataLen_pos hc
  have hlen := h.2.2.2.1
  have hcnt := h.2.2.2.2.2.1.2 hs
  have hle := h.2.2.2.2.2.2.1
  have hne : a.udPh ≠ [] := by
    intro h0
    rw [h0] at hlen
    simp at hlen
    omega
  have hp := udCnt_pred hcnt
  rw [udDataArm_of_pos hne hcnt] at hu
  cases hu
  refine h.decoder (by simp; omega) ?_ (by omega)
  split
  · rename_i h0
    rw [h0]
    simp
  · rename_i h0
    refine ⟨fun _ => hs, fun _ => Nat.pos_of_ne_zero fun h1 => h0 (BitVec.eq_of_toNat_eq h1)⟩

theorem AcqInv.udStopArm {c : Config} {a a' : Acq} {ev : Option ByteEvent}
    (h : AcqInv c a) (hs : a.udSt = .stop) (hu : Machine.udStopArm c a = .ok (a', ev)) :
    AcqInv c a' := by
  unfold Machine.udStopArm at hu
  split at hu <;> cases hu
  exact h.decoder h.2.2.2.1 (by simp [h.2.2.2.2.2.1, hs]) h.2.2.2.2.2.2.1

theorem AcqInv.udUpdate {c : Config} {a a' : Acq} {p : SW} {ev : Option ByteEvent}
    (hc : LegalBounds c) (h : AcqInv c a) (hu : Machine.udUpdate c a p = .ok (a', ev)) :
    AcqInv c a' := by
  unfold Machine.udUpdate at hu
  split at hu
  · exact h.udWaitIdleArm ‹_› hu
  · exact AcqInv.udWaitStartArm hc h ‹_› hu
  · exact AcqInv.udDataArm hc h ‹_› hu
  · exact h.udStopArm ‹_› hu

theorem AcqInv.lbUpdate {c : Config} {a a' : Acq} {rcv : Bool} {e : Edges} (hc : LegalBounds c)
    (h : AcqInv c a) (hu : Machine.lbUpdate c a rcv = .ok (a', e)) : AcqInv c a' := by
  have hge := idleTimeout_ge hc
  have hn : (BitVec.ofNat 32 (idleTimeout c)).toNat = idleTimeout c := by
    rw [BitVec.toNat_ofNat, Nat.mod_eq_of_lt (idleTimeout_lt c)]
  obtain ⟨h1, h2, h3, h4, h5, h6, h7, h8, h9, h10⟩ := h
  cases rcv with
  | true =>
    cases hp : a.lbPrev with
    | true =>
      rw [lbUpdate_still c (.inl ⟨rfl, hp⟩)] at hu
      cases hu
      exact ⟨h1, h2, h3, h4, h5, h6, h7, h8, h9, fun _ => h10 hp⟩
    | false =>
      rw [lbUpdate_rising c hp] at hu
      cases hu
      refine ⟨h1, h2, h3, h4, h5, h6, h7, fun _ => ?_, by simp, fun _ => ⟨rfl, hn⟩⟩
      simp only [hn]
      omega
  | false =>
    cases hb : a.lbBusy with
    | true =>
      obtain ⟨hge1, hle⟩ := h8 hb
      have hpred := lbCnt_pred hge1
      rw [lbUpdate_counting c hb hge1] at hu
      cases hu
      refine ⟨h1, h2, h3, h4, h5, h6, h7, fun hb' => ?_, fun hb' => ?_, by simp⟩
      · simp only [bne_iff_ne, ne_eq] at hb'
        have : (a.lbCnt - 1).toNat ≠ 0 := fun h0 => hb' (BitVec.eq_of_toNat_eq h0)
        simp only
        omega
      · simp only [bne_eq_false_iff_eq] at hb'
        exact hb'
    | false =>
      rw [lbUpdate_still c (.inr ⟨rfl, hb⟩)] at hu
      cases hu
      exact ⟨h1, h2, h3, h4, h5, h6, h7, by simp [hb], fun _ => h9 hb, by simp⟩

/-! ### The chain (R210) -/

/-- Once and for all: the steps of the chain behind the Resampler. -/
theorem processSample_ok {c : Config} {a a' : Acq} {r : SW} {w : U32}
    (h : processSample c a r = .ok (a', w)) :
    ∃ a2 y2 a3 y3 a4 p a5 ev ed, dcUpdate c a r = .ok (a2, y2) ∧ lvUpdate c a2 y2 = .ok (a3, y3) ∧
      bdUpdate c a3 y3 = .ok (a4, p) ∧ udUpdate c a4 p = .ok (a5, ev) ∧
      lbUpdate c a5 (receiving a5) = .ok (a', ed) ∧ w = packEvent ev ed.busy ed.free := by
  unfold processSample at h
  split at h
  · cases h
  · split at h
    · cases h
    · split at h
      · cases h
      · split at h
        · cases h
        · split at h <;> cases h
          exact ⟨_, _, _, _, _, _, _, _, _, ‹_›, ‹_›, ‹_›, ‹_›, ‹_›, rfl⟩

/-- Once and for all: the steps of the whole chain. -/
theorem acqChain_ok {c : Config} {a a' : Acq} {x : SW} {w : U32} (h : acqChain c a x = .ok (a', w)) :
    ∃ a1 y1 a2 r, firUpdate c a x = .ok (a1, y1) ∧ rsUpdate c a1 y1 = .ok (a2, r) ∧
      ((r = none ∧ a' = a2 ∧ w = 0) ∨ ∃ v, r = some v ∧ processSample c a2 v = .ok (a', w)) := by
  unfold acqChain at h
  split at h
  · cases h
  · split at h
    · cases h
    · cases h
      exact ⟨_, _, _, _, ‹_›, ‹_›, .inl ⟨rfl, rfl, rfl⟩⟩
    · exact ⟨_, _, _, _, ‹_›, ‹_›, .inr ⟨_, rfl, h⟩⟩

theorem AcqInv.processSample {c : Config} {a a' : Acq} {r : SW} {w : U32} (hc : LegalBounds c)
    (h : AcqInv c a) (hp : Machine.processSample c a r = .ok (a', w)) : AcqInv c a' := by
  obtain ⟨a2, y2, a3, y3, a4, p, a5, ev, ed, h2, h3, h4, h5, h6, -⟩ := processSample_ok hp
  exact ((((h.dcUpdate h2).lvUpdate h3).bdUpdate h4).udUpdate hc h5).lbUpdate hc h6

theorem AcqInv.acqChain {c : Config} {a a' : Acq} {x : SW} {w : U32} (hc : LegalBounds c)
    (h : AcqInv c a) (hp : Machine.acqChain c a x = .ok (a', w)) : AcqInv c a' := by
  obtain ⟨a1, y1, a2, r, h1, h2, ⟨-, rfl, -⟩ | ⟨v, -, h3⟩⟩ := acqChain_ok hp
  · exact (h.firUpdate h1).rsUpdate h2
  · exact ((h.firUpdate h1).rsUpdate h2).processSample hc h3

/-- On registers that meet the invariant, the only fault of the chain is an overflow. -/
theorem processSample_error {c : Config} {a : Acq} {r : SW} {e : Fault} (hc : LegalBounds c)
    (h : AcqInv c a) (hp : processSample c a r = .error e) : e = .overflow := by
  unfold processSample at hp
  split at hp
  · cases hp
    exact dcUpdate_error ‹_›
  · rename_i a2 y2 h2
    have i2 := h.dcUpdate h2
    split at hp
    · rename_i hlv
      rw [lvUpdate_of_legal hc] at hlv
      cases hlv
    · rename_i a3 y3 h3
      have i3 := i2.lvUpdate h3
      split at hp
      · cases hp
        exact bdUpdate_error hc i3.2.1 i3.2.2.1 ‹_›
      · rename_i a4 p h4
        have i4 := i3.bdUpdate h4
        split at hp
        · rename_i hud
          obtain ⟨r, hr⟩ := udUpdate_answers p hc i4.2.2.2.1 (fun hs => i4.2.2.2.2.2.1.2 hs)
          rw [hr] at hud
          cases hud
        · rename_i a5 ev h5
          have i5 := i4.udUpdate hc h5
          split at hp
          · rename_i hlb
            obtain ⟨r, hr⟩ := lbUpdate_answers c (receiving a5) (fun hb => (i5.2.2.2.2.2.2.2.1 hb).1)
            rw [hr] at hlb
            cases hlb
          · cases hp

theorem acqChain_error {c : Config} {a : Acq} {x : SW} {e : Fault} (hc : LegalBounds c)
    (h : AcqInv c a) (hp : acqChain c a x = .error e) : e = .overflow := by
  unfold acqChain at hp
  split at hp
  · cases hp
    exact firUpdate_error h.firX_ne ‹_›
  · rename_i a1 y1 h1
    have i1 := h.firUpdate h1
    split at hp
    · rename_i hrs
      rw [rsUpdate_of_le _ i1.2.2.2.2.1] at hrs
      cases hrs
    · cases hp
    · rename_i a2 r h2
      exact processSample_error hc (i1.rsUpdate h2) hp

end Sys2Proof.Machine
end

