-- ==== Sys2Proof/Laws/Arbiter.lean ====
section
/-! SUPPORT. What the arbiter's prologue and arms can do on registers that meet R242. -/

namespace Sys2Proof.Machine

/-! ### The prologue (R232) -/

theorem lineBusyAfter_eq (ev : U32) (b : Bool) : lineBusyAfter ev b =
    if ev.getLsbD 12 then false else if ev.getLsbD 11 then false
    else if ev.getLsbD 10 then true else b := rfl

@[simp] theorem prologue_st (ev : U32) (t : Tx) : (prologue ev t).st = t.st := rfl
@[simp] theorem prologue_msg (ev : U32) (t : Tx) : (prologue ev t).msg = t.msg := rfl
@[simp] theorem prologue_len (ev : U32) (t : Tx) : (prologue ev t).len = t.len := rfl
@[simp] theorem prologue_off (ev : U32) (t : Tx) : (prologue ev t).off = t.off := rfl
@[simp] theorem prologue_dl (ev : U32) (t : Tx) : (prologue ev t).dl = t.dl := rfl
@[simp] theorem prologue_coll (ev : U32) (t : Tx) : (prologue ev t).coll = t.coll := rfl
@[simp] theorem prologue_err (ev : U32) (t : Tx) : (prologue ev t).err = t.err := rfl
@[simp] theorem prologue_status (ev : U32) (t : Tx) : (prologue ev t).status = t.status := rfl
@[simp] theorem prologue_drv (ev : U32) (t : Tx) : (prologue ev t).drv = t.drv := rfl

/-- The line-busy mirror is not part of R242. -/
theorem TxInv.of_lineBusy {c : Config} {t : Tx} (h : TxInv c t) (b : Bool) :
    TxInv c { t with lineBusy := b } := h

theorem TxInv.prologue {c : Config} {t : Tx} (h : TxInv c t) (ev : U32) :
    TxInv c (Machine.prologue ev t) := h

/-! ### Entry and return keep the invariant -/

/-- `to_idle` keeps R242 from any state whose error registers agree. -/
theorem TxInv.toIdle {c : Config} {t : Tx} (hm : t.msg.length = c.msgMax.toNat)
    (he : t.err = false ↔ t.status = .ok) : TxInv c (Machine.toIdle t).1 := by
  simp [TxInv, toIdle_eq, hm, he]

theorem TxInv.signalIdle {c : Config} {t : Tx} {code : Status} (h : TxInv c t) (hc : code ≠ .ok) :
    TxInv c (Machine.signalIdle code t).1 := by
  obtain ⟨hm, -, -, -, -, -, -, -, -, he⟩ := h
  refine TxInv.toIdle (by simpa using hm) ?_
  rw [setErr_status]
  split <;> simp_all

theorem TxInv.abortTx {c : Config} {t : Tx} {code : Status} {now : U32} (h : TxInv c t)
    (hs : t.st ≠ .idle) (hc : code ≠ .ok) : TxInv c (Machine.abortTx c now code t).1 := by
  obtain ⟨hm, hl, ho, hz, -, -, -, -, -, he⟩ := h
  have hz' : ¬ t.len = 0 := fun h0 => hs (hz.1 h0)
  simp only [TxInv, abortTx_eq]
  refine ⟨hm, hl, ho, ?_, ?_, ?_, ?_, ?_, ?_, ?_⟩ <;> simp_all
  split <;> simp_all

theorem tstatus_ne_ok (t : Tx) : tstatus t ≠ .ok := by
  unfold tstatus
  split <;> simp

/-! ### The arms -/

/-- What the Idle arm accepts (R234). -/
theorem acceptable_eq_some {c : Config} {i : CtlIn} {t : Tx} {bs : List Byte}
    (h : acceptable c i t = some bs) :
    i.req = some bs ∧ 1 ≤ bs.length ∧ bs.length ≤ c.msgMax.toNat ∧ t.lineBusy = false ∧
      i.txHwIdle = true := by
  unfold acceptable at h
  split at h
  · cases h
  · split at h
    · rename_i hr hc
      cases h
      exact ⟨hr, hc⟩
    · cases h

/-- The Idle arm on an acceptable request. -/
theorem txIdleArm_of_acceptable {c : Config} {i : CtlIn} {t : Tx} {bs : List Byte}
    (hm : t.msg.length = c.msgMax.toNat) (h : acceptable c i t = some bs) :
    txIdleArm c i t = .ok ({ clearErr t with
      msg := bs ++ t.msg.drop bs.length, len := BitVec.ofNat 8 bs.length, off := 0, coll := false,
      st := .idleWaitLineFree, dl := deadline i.now c.tWaitFree }, [.reqTaken]) := by
  obtain ⟨-, -, hle, -, -⟩ := acceptable_eq_some h
  have hlt := c.msgMax.isLt
  simp only [txIdleArm, h, msgStore_of_le (hm ▸ hle), toU_natCast (show bs.length < 2 ^ 8 by omega)]

theorem txIdleArm_of_none {c : Config} {i : CtlIn} {t : Tx} (h : acceptable c i t = none) :
    txIdleArm c i t = .ok (t, []) := by simp only [txIdleArm, h]

/-- The Idle arm answers and keeps R242. -/
theorem txIdleArm_answers {c : Config} (i : CtlIn) {t : Tx} (h : TxInv c t) (hs : t.st = .idle) :
    ∃ r, txIdleArm c i t = .ok r ∧ TxInv c r.1 := by
  cases ha : acceptable c i t with
  | none => exact ⟨_, txIdleArm_of_none ha, h⟩
  | some bs =>
    refine ⟨_, txIdleArm_of_acceptable h.1 ha, ?_⟩
    obtain ⟨-, hpos, hle, -, -⟩ := acceptable_eq_some ha
    have hlt := c.msgMax.isLt
    have hlen : (BitVec.ofNat 8 bs.length).toNat = bs.length := by
      rw [BitVec.toNat_ofNat, Nat.mod_eq_of_lt (by omega)]
    have hne : ¬ BitVec.ofNat 8 bs.length = 0 := by
      intro h0
      have : bs.length = 0 := by rw [← hlen, h0]; rfl
      omega
    obtain ⟨hm, -, -, -, -, -, -, hd, -, -⟩ := h
    have hdrv := hd (.inl hs)
    simp only [TxInv, clearErr, hlen]
    refine ⟨?_, hle, ?_, ?_, ?_, ?_, ?_, ?_, ?_, ?_⟩ <;> simp_all

theorem txIdleWaitLineFreeArm_answers {c : Config} (i : CtlIn) (ev : U32) {t : Tx} (h : TxInv c t)
    (hs : t.st = .idleWaitLineFree) :
    ∃ r, txIdleWaitLineFreeArm c i ev t = .ok r ∧ TxInv c r.1 := by
  unfold txIdleWaitLineFreeArm
  split
  · exact ⟨_, rfl, h.signalIdle (by simp)⟩
  · split
    · exact ⟨_, rfl, h.signalIdle (by simp)⟩
    · split
      · refine ⟨_, rfl, ?_⟩
        obtain ⟨h1, h2, h3, h4, h5, h6, h7, h8, h9, h10⟩ := h
        refine ⟨h1, h2, h3, ?_, ?_, ?_, ?_, ?_, ?_, h10⟩ <;> simp_all
      · split
        · exact ⟨_, rfl, h.signalIdle (tstatus_ne_ok t)⟩
        · exact ⟨_, rfl, h⟩

theorem txWaitPowerOnArm_answers {c : Config} (i : CtlIn) (ev : U32) {t : Tx} (h : TxInv c t)
    (hs : t.st = .waitPowerOn) : ∃ r, txWaitPowerOnArm c i ev t = .ok r ∧ TxInv c r.1 := by
  unfold txWaitPowerOnArm
  split
  · exact ⟨_, rfl, h.signalIdle (by simp)⟩
  · split
    · exact ⟨_, rfl, h.signalIdle (by simp)⟩
    · split
      · exact ⟨_, rfl, h.signalIdle (tstatus_ne_ok t)⟩
      · split
        · rw [msgBytes_of_le (h.1 ▸ h.2.1)]
          refine ⟨_, rfl, ?_⟩
          obtain ⟨h1, h2, h3, h4, h5, h6, h7, h8, h9, h10⟩ := h
          have hz : t.len.toNat ≠ 0 := by
            intro h0
            have : t.len = 0 := BitVec.eq_of_toNat_eq h0
            rw [h4.1 this] at hs
            cases hs
          refine ⟨h1, h2, h3, ?_, ?_, ?_, ?_, ?_, ?_, h10⟩ <;> simp_all
          omega
        · exact ⟨_, rfl, h⟩

/-- The RunningCheckData arm on registers that meet R242, but for a provisional collision, which it
consumes. -/
theorem txRunningCheckDataArm_answers {c : Config} (i : CtlIn) (ev : U32) {t : Tx}
    (h : TxInv c { t with coll := false }) (hs : t.st = .runningCheckData) :
    ∃ r, txRunningCheckDataArm c i ev t = .ok r ∧ TxInv c r.1 := by
  have habort : ∀ code, code ≠ .ok → TxInv c (abortTx c i.now code t).1 := by
    intro code hc
    have := TxInv.abortTx (code := code) (now := i.now) h (by simp [hs]) hc
    rwa [abortTx_eq] at this ⊢
  have hoff : t.off.toNat < t.len.toNat := h.2.2.2.2.2.1 (.inr hs)
  have hlen : t.len.toNat ≤ t.msg.length := by
    have h1 := h.1
    have h2 := h.2.1
    simp only at h1 h2
    omega
  have hlt := t.len.isLt
  unfold txRunningCheckDataArm
  split
  · exact ⟨_, rfl, habort _ (by simp)⟩
  · split
    · exact ⟨_, rfl, habort _ (by simp)⟩
    · rename_i hcoll
      have hc : t.coll = false := by
        simp only [Bool.or_eq_true, not_or] at hcoll
        simpa using hcoll.1.1
      have ht : TxInv c t := by
        have : { t with coll := false } = t := by cases t; simp_all
        rwa [this] at h
      split
      · rw [msgRead_of_lt hoff hlen]
        simp only
        split
        · exact ⟨_, rfl, habort _ (by simp)⟩
        · rw [toU_succ (n := 8) (by omega)]
          have hnext : (t.off + 1).toNat = t.off.toNat + 1 := by
            rw [BitVec.toNat_add, show (1 : BitVec 8).toNat = 1 from rfl, Nat.mod_eq_of_lt (by omega)]
          simp only
          obtain ⟨h1, h2, h3, h4, h5, h6, h7, h8, h9, h10⟩ := ht
          split
          · refine ⟨_, rfl, h1, h2, ?_, ?_, ?_, ?_, ?_, ?_, ?_, h10⟩ <;> simp_all
          · rename_i hne
            have hlt' : t.off.toNat + 1 ≠ t.len.toNat := by
              intro he
              exact hne (BitVec.eq_of_toNat_eq (by rw [hnext, he]))
            refine ⟨_, rfl, h1, h2, ?_, ?_, ?_, ?_, ?_, ?_, ?_, h10⟩ <;> simp_all <;> omega
      · split
        · exact ⟨_, rfl, habort _ (tstatus_ne_ok t)⟩
        · split
          · exact ⟨_, rfl, habort _ (tstatus_ne_ok t)⟩
          · exact ⟨_, rfl, ht⟩

theorem txStartedWaitForBusyArm_answers {c : Config} (i : CtlIn) (ev : U32) {t : Tx} (h : TxInv c t)
    (hs : t.st = .startedWaitForBusy) :
    ∃ r, txStartedWaitForBusyArm c i ev t = .ok r ∧ TxInv c r.1 := by
  have hmove : ∀ b, TxInv c { t with
      coll := false, st := .runningCheckData, dl := b } := by
    intro b
    obtain ⟨h1, h2, h3, h4, h5, h6, h7, h8, h9, h10⟩ := h
    refine ⟨h1, h2, h3, ?_, ?_, ?_, ?_, ?_, ?_, h10⟩ <;> simp_all
  unfold txStartedWaitForBusyArm
  split
  · exact ⟨_, rfl, h.abortTx (by simp [hs]) (by simp)⟩
  · split
    · exact ⟨_, rfl, h.abortTx (by simp [hs]) (by simp)⟩
    · cases he : evError ev with
      | true =>
        simp only [if_true, Bool.or_true]
        split
        · exact txRunningCheckDataArm_answers i ev (hmove _) rfl
        · refine ⟨_, rfl, ?_⟩
          obtain ⟨h1, h2, h3, h4, h5, h6, h7, h8, h9, h10⟩ := hmove (deadline i.now c.tByte)
          exact ⟨h1, h2, h3, h4, h5, h6, h7, h8, fun _ => rfl, h10⟩
      | false =>
        simp only [Bool.false_eq_true, if_false, Bool.or_false]
        have hc : t.coll = false := by
          by_contra hc
          have := h.2.2.2.2.2.2.2.2.1 (by simpa using hc)
          rw [hs] at this
          cases this
        have ht : ∀ b, TxInv c { t with st := .runningCheckData, dl := b } := by
          intro b
          have := hmove b
          rwa [← hc] at this
        split
        · split
          · refine txRunningCheckDataArm_answers i ev ?_ rfl
            exact hmove _
          · exact ⟨_, rfl, ht _⟩
        · split
          · exact ⟨_, rfl, h.abortTx (by simp [hs]) (tstatus_ne_ok t)⟩
          · exact ⟨_, rfl, h⟩

/-- The power-down test changes `TX.drv` only (R239). -/
theorem powerDown_eq (i : CtlIn) (t : Tx) : powerDown i t =
    ({ t with drv := t.drv && !i.txHwIdle },
     if i.txHwIdle && t.drv then [.drvEnable false] else []) := by
  unfold powerDown
  cases t
  cases h : i.txHwIdle <;> simp
  split <;> simp_all

theorem txRunningWaitForIdleArm_answers {c : Config} (i : CtlIn) {t : Tx} (h : TxInv c t)
    (hs : t.st = .runningWaitForIdle) :
    ∃ r, txRunningWaitForIdleArm i t = .ok r ∧ TxInv c r.1 := by
  have hp : TxInv c (powerDown i t).1 := by
    rw [powerDown_eq]
    obtain ⟨h1, h2, h3, h4, h5, h6, h7, h8, h9, h10⟩ := h
    refine ⟨h1, h2, h3, h4, h5, h6, ?_, ?_, h9, h10⟩ <;> simp_all
  unfold txRunningWaitForIdleArm
  simp only
  split
  · exact ⟨_, rfl, TxInv.toIdle hp.1 hp.2.2.2.2.2.2.2.2.2⟩
  · split
    · exact ⟨_, rfl, hp.signalIdle (tstatus_ne_ok _)⟩
    · exact ⟨_, rfl, hp⟩

/-- TX.TICK answers and keeps R242. -/
theorem txTick_answers {c : Config} (i : CtlIn) (ev : U32) {t : Tx} (h : TxInv c t) :
    ∃ r, txTick c i ev t = .ok r ∧ TxInv c r.1 := by
  have hp := h.prologue ev
  unfold txTick
  split
  · exact txIdleArm_answers i hp ‹_›
  · exact txIdleWaitLineFreeArm_answers i ev hp ‹_›
  · exact txWaitPowerOnArm_answers i ev hp ‹_›
  · exact txStartedWaitForBusyArm_answers i ev hp ‹_›
  · exact txRunningCheckDataArm_answers i ev ⟨hp.1, hp.2.1, hp.2.2.1, hp.2.2.2.1, hp.2.2.2.2.1,
      hp.2.2.2.2.2.1, hp.2.2.2.2.2.2.1, hp.2.2.2.2.2.2.2.1, by simp, hp.2.2.2.2.2.2.2.2.2⟩ ‹_›
  · exact txRunningWaitForIdleArm_answers i hp ‹_›

/-! ### What each arm can do (R234 to R239) -/

theorem txIdleArm_cases {c : Config} {i : CtlIn} {t : Tx} {r : Tx × List Action}
    (h : txIdleArm c i t = .ok r) :
    r = (t, []) ∨
    ∃ bs msg len, acceptable c i t = some bs ∧ msgStore t.msg bs = .ok msg ∧
      r = ({ clearErr t with
              msg := msg, len := len, off := 0, coll := false,
              st := .idleWaitLineFree, dl := deadline i.now c.tWaitFree }, [.reqTaken]) := by
  unfold txIdleArm at h
  split at h
  · cases h
    exact .inl rfl
  · rename_i bs ha
    split at h
    · rename_i msg len hm hl
      cases h
      exact .inr ⟨bs, msg, len, ha, hm, rfl⟩
    · cases h
    · cases h

theorem txIdleWaitLineFreeArm_cases {c : Config} {i : CtlIn} {ev : U32} {t : Tx} {r : Tx × List Action}
    (h : txIdleWaitLineFreeArm c i ev t = .ok r) :
    (∃ code, code ≠ .ok ∧ r = signalIdle code t) ∨
    r = ({ t with drv := true, st := .waitPowerOn, dl := deadline i.now c.tPowerOn },
      [.drvEnable true]) ∨
    r = (t, []) := by
  unfold txIdleWaitLineFreeArm at h
  repeat' split at h
  all_goals cases h
  · exact .inl ⟨_, by simp, rfl⟩
  · exact .inl ⟨_, by simp, rfl⟩
  · exact .inr (.inl rfl)
  · exact .inl ⟨_, tstatus_ne_ok t, rfl⟩
  · exact .inr (.inr rfl)

theorem txWaitPowerOnArm_cases {c : Config} {i : CtlIn} {ev : U32} {t : Tx} {r : Tx × List Action}
    (h : txWaitPowerOnArm c i ev t = .ok r) :
    (∃ code, code ≠ .ok ∧ r = signalIdle code t) ∨
    r = ({ t with st := .startedWaitForBusy, dl := deadline i.now c.tStart },
      (t.msg.take t.len.toNat).map .txWrite) ∨
    r = (t, []) := by
  unfold txWaitPowerOnArm msgBytes at h
  repeat' split at h
  all_goals cases h
  · exact .inl ⟨_, by simp, rfl⟩
  · exact .inl ⟨_, by simp, rfl⟩
  · exact .inl ⟨_, tstatus_ne_ok t, rfl⟩
  · rename_i hb
    split at hb <;> cases hb
    exact .inr (.inl rfl)
  · exact .inr (.inr rfl)

theorem txRunningCheckDataArm_cases {c : Config} {i : CtlIn} {ev : U32} {t : Tx}
    {r : Tx × List Action} (h : txRunningCheckDataArm c i ev t = .ok r) :
    (∃ code, code ≠ .ok ∧ r = abortTx c i.now code t) ∨
    (t.coll = false ∧ ∃ off, r = ({ t with
      off := off, st := .runningWaitForIdle, dl := deadline i.now c.tWaitIdle }, [])) ∨
    (t.coll = false ∧ ∃ off, r = ({ t with off := off, dl := deadline i.now c.tByte }, [])) ∨
    (t.coll = false ∧ r = (t, [])) := by
  unfold txRunningCheckDataArm at h
  split at h
  · cases h
    exact .inl ⟨_, by simp, rfl⟩
  · split at h
    · cases h
      exact .inl ⟨_, by simp, rfl⟩
    · rename_i hcoll
      have hc : t.coll = false := by
        simp only [Bool.or_eq_true, not_or] at hcoll
        simpa using hcoll.1.1
      repeat' split at h
      all_goals cases h
      · exact .inl ⟨_, by simp, rfl⟩
      · exact .inr (.inl ⟨hc, _, rfl⟩)
      · exact .inr (.inr (.inl ⟨hc, _, rfl⟩))
      · exact .inl ⟨_, tstatus_ne_ok t, rfl⟩
      · exact .inl ⟨_, tstatus_ne_ok t, rfl⟩
      · exact .inr (.inr (.inr ⟨hc, rfl⟩))

/-- The registers on entry to RunningCheckData from StartedWaitForBusy (R237). -/
def enteredCheck (c : Config) (i : CtlIn) (ev : U32) (t : Tx) : Tx :=
  { t with coll := t.coll || evError ev, st := .runningCheckData, dl := deadline i.now c.tByte }

theorem txStartedWaitForBusyArm_cases {c : Config} {i : CtlIn} {ev : U32} {t : Tx}
    {r : Tx × List Action} (h : txStartedWaitForBusyArm c i ev t = .ok r) :
    (∃ code, code ≠ .ok ∧ r = abortTx c i.now code t) ∨
    (evValid ev = true ∧ txRunningCheckDataArm c i ev (enteredCheck c i ev t) = .ok r) ∨
    (evValid ev = false ∧ r = (enteredCheck c i ev t, [])) ∨
    r = (t, []) := by
  have hflag : (if evError ev = true then { t with coll := true } else t) =
      { t with coll := t.coll || evError ev } := by
    cases evError ev <;> simp
  unfold txStartedWaitForBusyArm at h
  split at h
  · cases h
    exact .inl ⟨_, by simp, rfl⟩
  · split at h
    · cases h
      exact .inl ⟨_, by simp, rfl⟩
    · simp only [hflag] at h
      split at h
      · split at h
        · rename_i hv
          exact .inr (.inl ⟨hv, h⟩)
        · rename_i hv
          cases h
          exact .inr (.inr (.inl ⟨by simpa using hv, rfl⟩))
      · rename_i hno
        have he : evError ev = false := by
          simp only [Bool.or_eq_true, not_or] at hno
          simpa using hno.2
        have ht : { t with coll := t.coll || evError ev } = t := by
          rw [he, Bool.or_false]
        rw [ht] at h
        split at h <;> cases h
        · exact .inl ⟨tstatus t, tstatus_ne_ok t, rfl⟩
        · exact .inr (.inr (.inr rfl))

theorem txRunningWaitForIdleArm_cases {i : CtlIn} {t : Tx} {r : Tx × List Action}
    (h : txRunningWaitForIdleArm i t = .ok r) :
    r = ((toIdle (powerDown i t).1).1, (powerDown i t).2 ++ (toIdle (powerDown i t).1).2) ∨
    (∃ code, code ≠ .ok ∧ r = ((signalIdle code (powerDown i t).1).1,
      (powerDown i t).2 ++ (signalIdle code (powerDown i t).1).2)) ∨
    r = powerDown i t := by
  unfold txRunningWaitForIdleArm at h
  simp only at h
  repeat' split at h
  all_goals cases h
  · exact .inl rfl
  · exact .inr (.inl ⟨_, tstatus_ne_ok _, rfl⟩)
  · exact .inr (.inr rfl)

/-- TX.TICK runs the arm of its state on the registers after the prologue (R232). -/
theorem txTick_eq (c : Config) (i : CtlIn) (ev : U32) (t : Tx) : txTick c i ev t =
    match t.st with
    | .idle => txIdleArm c i (prologue ev t)
    | .idleWaitLineFree => txIdleWaitLineFreeArm c i ev (prologue ev t)
    | .waitPowerOn => txWaitPowerOnArm c i ev (prologue ev t)
    | .startedWaitForBusy => txStartedWaitForBusyArm c i ev (prologue ev t)
    | .runningCheckData => txRunningCheckDataArm c i ev (prologue ev t)
    | .runningWaitForIdle => txRunningWaitForIdleArm i (prologue ev t) := rfl

end Sys2Proof.Machine
end

