-- ==== Sys2Proof/Laws/Decode.lean ====
section
/-! SUPPORT. Reading what was written, part by part: word 0, and each kind of operand word. -/

namespace Sys2Proof

/-- Word 0 of a row selects the row: no two rows of one format overlap. -/
theorem selectOp_headWord (o : Op) : selectOp (headWord o) = .ok o := by
  cases o <;> decide

/-- Every row stands in the list of rows. -/
theorem mem_allOps (o : Op) : o ∈ allOps := by
  cases o <;> decide

/-- Within one format, no code is accepted by two rows. -/
theorem rows_of_a_format_do_not_overlap : allOps.Pairwise fun o p =>
    (opRow o).format = (opRow p).format →
      ((opRow o).value ^^^ (opRow p).value) &&& ((opRow o).mask &&& (opRow p).mask) ≠ 0 := by
  decide

@[simp] theorem boolOf_boolWord (b : Bool) : boolOf (boolWord b) = .ok b := by cases b <;> rfl

@[simp] theorem winOf_winCode (w : Win) : winOf (winCode w) = .ok w := by cases w <;> decide

@[simp] theorem sregOf_sregCode (r : SReg) : sregOf (sregCode r) = .ok r := by
  cases r with
  | win w => cases w <;> decide
  | firK => decide

/-- The word of a byte reads back as the byte. -/
theorem byteOf_ofNat (b : Byte) : byteOf (BitVec.ofNat 32 b.toNat) = .ok b := by
  have := b.isLt
  unfold byteOf
  rw [BitVec.toNat_ofNat, Nat.mod_eq_of_lt (by omega), if_pos (by omega)]
  simp

theorem bytesOf_map (bs : List Byte) :
    bytesOf (bs.map fun b => BitVec.ofNat 32 b.toNat) = .ok bs := by
  induction bs with
  | nil => rfl
  | cons b bs ih => rw [List.map_cons, bytesOf, ih, byteOf_ofNat]

theorem bytesOf_length {ws : List U32} {bs : List Byte} (h : bytesOf ws = .ok bs) :
    bs.length = ws.length := by
  induction ws generalizing bs with
  | nil => cases h; rfl
  | cons w ws ih =>
    simp only [bytesOf] at h
    split at h <;> cases h
    rename_i h2
    simp [ih h2]

theorem takeWords_self (ws : List U32) : takeWords ws.length ws = ws := by
  induction ws with
  | nil => rfl
  | cons w ws ih => simp [takeWords, ih]

theorem takeWords_length (n : Nat) (ws : List U32) : (takeWords n ws).length = n := by
  induction n generalizing ws with
  | zero => rfl
  | succ n ih => cases ws <;> simp [takeWords, ih]

/-- The words of the request port read back as the port's value. -/
theorem reqOf_reqWords {r : Option (List Byte)} (h : ∀ bs, r = some bs → bs.length < 256) :
    reqOf (reqWords r) = .ok r := by
  cases r with
  | none => rfl
  | some bs =>
    have hl := h bs rfl
    have hn : (BitVec.ofNat 32 bs.length).toNat = bs.length := by
      rw [BitVec.toNat_ofNat, Nat.mod_eq_of_lt (by omega)]
    have ht := takeWords_self (bs.map fun b => (BitVec.ofNat 32 b.toNat : U32))
    rw [List.length_map] at ht
    simp only [reqOf, reqWords, operand, List.getD_cons_zero, List.getD_cons_succ, hn]
    rw [show boolOf 1 = .ok true from rfl]
    simp only [List.drop_succ_cons, List.drop_zero]
    rw [if_neg (by omega), ht, bytesOf_map]
    simp only [atMost, List.length_cons, List.length_map]
    rw [if_pos (by omega)]

/-- A request that was read has a length that fits `u8` (R92). -/
theorem reqOf_length {ws : List U32} {bs : List Byte} (h : reqOf ws = .ok (some bs)) :
    bs.length < 256 := by
  unfold reqOf at h
  dsimp only at h
  split at h
  · cases h
  · split at h <;> cases h
  · split at h
    · cases h
    · split at h
      · cases h
      · split at h
        · rename_i hb
          cases h
          have := bytesOf_length hb
          rw [takeWords_length] at this
          omega
        · cases h

/-- The words of the control ports read back as the ports' values. -/
theorem ctlInOf_ctlInWords {i : CtlIn} (h : i.wf = true) : ctlInOf (ctlInWords i) = .ok i := by
  have hr : reqOf (reqWords i.req) = .ok i.req := by
    apply reqOf_reqWords
    intro bs hbs
    simpa [CtlIn.wf, hbs] using h
  simp [ctlInOf, ctlInWords, operand, hr]

/-- Control ports that were read are well formed. -/
theorem ctlInOf_wf {ws : List U32} {i : CtlIn} (h : ctlInOf ws = .ok i) : i.wf = true := by
  unfold ctlInOf at h
  split at h <;> cases h
  rename_i hr
  unfold CtlIn.wf
  simp only
  split
  · rfl
  · simpa using reqOf_length hr

/-- The operand word of a value of `sW` reads back as the value. -/
theorem toInt_operandWord {v : Int} (h : InSW v) : (BitVec.ofInt 32 v).toInt = v :=
  Machine.toInt_ofInt_of_inSW h

end Sys2Proof
end

