-- ==== Sys2Proof/Laws/Operands.lean ====
section
/-! SUPPORT. The windows as operands, and the event word: what packing writes, reading a field gives
back. -/

namespace Sys2Proof.Machine

/-! ### Windows -/

@[simp] theorem winGet_winSet (w : Win) (S : List SW) (a : Acq) : winGet w (winSet w S a) = S := by
  cases w <;> rfl

@[simp] theorem winSet_winSet (w : Win) (S S' : List SW) (a : Acq) :
    winSet w S (winSet w S' a) = winSet w S a := by cases w <;> rfl

@[simp] theorem winSet_winGet (w : Win) (a : Acq) : winSet w (winGet w a) a = a := by cases w <;> rfl

/-- Windows do not alias (R21): a write to one leaves the others. -/
theorem winGet_winSet_of_ne {w w' : Win} (h : w' ≠ w) (S : List SW) (a : Acq) :
    winGet w' (winSet w S a) = winGet w' a := by
  cases w <;> cases w' <;> first | rfl | exact absurd rfl h

/-! ### The event word (R96) -/

/-- The flags do not overlap the byte. -/
theorem or_flags_eq_add (b : Byte) (m : U32) (hm : m &&& 0xFF = 0) :
    b.setWidth 32 ||| m = b.setWidth 32 + m := by
  refine (BitVec.add_eq_or_of_and_eq_zero _ _ ?_).symm
  have hb : b.setWidth 32 &&& 0xFF = b.setWidth 32 := by
    apply BitVec.eq_of_toNat_eq
    rw [BitVec.toNat_and, BitVec.toNat_setWidth, show (0xFF : U32).toNat = 2 ^ 8 - 1 from rfl,
      Nat.and_two_pow_sub_one_eq_mod]
    have := b.isLt
    omega
  rw [← hb, BitVec.and_assoc, BitVec.and_comm 0xFF m, hm]
  simp

/-- `pack` as the number R96 writes. -/
theorem pack_eq (b : Byte) (v e be fe d : Bool) : pack b v e be fe d =
    BitVec.ofNat 32 (b.toNat + (256 * v.toNat + 512 * e.toNat + 1024 * be.toNat + 2048 * fe.toNat +
      4096 * d.toNat)) := by
  have hs : b.setWidth 32 = BitVec.ofNat 32 b.toNat := by
    apply BitVec.eq_of_toNat_eq
    simp
  unfold pack
  simp only [BitVec.or_assoc]
  cases v <;> cases e <;> cases be <;> cases fe <;> cases d <;>
    (rw [or_flags_eq_add _ _ (by decide), hs, BitVec.ofNat_add]; rfl)

/-- `pack` as a number. -/
theorem pack_toNat (b : Byte) (v e be fe d : Bool) : (pack b v e be fe d).toNat =
    b.toNat + (256 * v.toNat + 512 * e.toNat + 1024 * be.toNat + 2048 * fe.toNat + 4096 * d.toNat) := by
  have hb := b.isLt
  rw [pack_eq, BitVec.toNat_ofNat, Nat.mod_eq_of_lt]
  cases v <;> cases e <;> cases be <;> cases fe <;> cases d <;> simp <;> omega

/-- A bit of a number, by division. -/
theorem getLsbD_eq_decide (w : U32) (k : Nat) : w.getLsbD k = decide (w.toNat / 2 ^ k % 2 = 1) := by
  rw [BitVec.getLsbD, Nat.testBit_eq_decide_div_mod_eq]

@[simp] theorem evByte_pack (b : Byte) (v e be fe d : Bool) : evByte (pack b v e be fe d) = b := by
  apply BitVec.eq_of_toNat_eq
  have hb := b.isLt
  rw [evByte, BitVec.extractLsb'_toNat, pack_toNat]
  cases v <;> cases e <;> cases be <;> cases fe <;> cases d <;> simp <;> omega

@[simp] theorem evValid_pack (b : Byte) (v e be fe d : Bool) : evValid (pack b v e be fe d) = v := by
  have hb := b.isLt
  rw [evValid, getLsbD_eq_decide, pack_toNat]
  cases v <;> cases e <;> cases be <;> cases fe <;> cases d <;> simp <;> omega

@[simp] theorem evError_pack (b : Byte) (v e be fe d : Bool) : evError (pack b v e be fe d) = e := by
  have hb := b.isLt
  rw [evError, getLsbD_eq_decide, pack_toNat]
  cases v <;> cases e <;> cases be <;> cases fe <;> cases d <;> simp <;> omega

@[simp] theorem evBusyEdge_pack (b : Byte) (v e be fe d : Bool) :
    evBusyEdge (pack b v e be fe d) = be := by
  have hb := b.isLt
  rw [evBusyEdge, getLsbD_eq_decide, pack_toNat]
  cases v <;> cases e <;> cases be <;> cases fe <;> cases d <;> simp <;> omega

@[simp] theorem evFreeEdge_pack (b : Byte) (v e be fe d : Bool) :
    evFreeEdge (pack b v e be fe d) = fe := by
  have hb := b.isLt
  rw [evFreeEdge, getLsbD_eq_decide, pack_toNat]
  cases v <;> cases e <;> cases be <;> cases fe <;> cases d <;> simp <;> omega

@[simp] theorem evDecoderErr_pack (b : Byte) (v e be fe d : Bool) :
    evDecoderErr (pack b v e be fe d) = d := by
  have hb := b.isLt
  rw [evDecoderErr, getLsbD_eq_decide, pack_toNat]
  cases v <;> cases e <;> cases be <;> cases fe <;> cases d <;> simp <;> omega

end Sys2Proof.Machine
end

