-- ==== Sys2Proof/Laws/PerInstr.lean ====
section
/-! SUPPORT. A statement made per operation: word 0 of its line selects its own row of the table. -/

namespace Sys2Proof.Laws

/-- Word 0 of the line that presents the operation selects the operation's row, and the operation is
written with that word first. -/
def SelectsRow.Statement (i : Instr) : Prop :=
  (encode i).head? = some (headWord (opOf i)) ∧ selectOp (headWord (opOf i)) = .ok (opOf i)

theorem SelectsRow.acqReset : SelectsRow.Statement .acqReset :=
  ⟨rfl, selectOp_headWord _⟩

theorem SelectsRow.acqOverrun : SelectsRow.Statement .acqOverrun :=
  ⟨rfl, selectOp_headWord _⟩

theorem SelectsRow.acqSample (x : SW) : SelectsRow.Statement (.acqSample x) :=
  ⟨rfl, selectOp_headWord _⟩

theorem SelectsRow.acqNop : SelectsRow.Statement .acqNop :=
  ⟨rfl, selectOp_headWord _⟩

theorem SelectsRow.ctlReset : SelectsRow.Statement .ctlReset :=
  ⟨rfl, selectOp_headWord _⟩

theorem SelectsRow.ctlTick (i : CtlIn) : SelectsRow.Statement (.ctlTick i) :=
  ⟨rfl, selectOp_headWord _⟩

theorem SelectsRow.ctlNop : SelectsRow.Statement .ctlNop :=
  ⟨rfl, selectOp_headWord _⟩

theorem SelectsRow.srPush (w : Win) (v : Int) : SelectsRow.Statement (.srPush w v) :=
  ⟨rfl, selectOp_headWord _⟩

theorem SelectsRow.srAt (r : SReg) (i : Int) : SelectsRow.Statement (.srAt r i) :=
  ⟨rfl, selectOp_headWord _⟩

theorem SelectsRow.srConv (a b : SReg) : SelectsRow.Statement (.srConv a b) :=
  ⟨rfl, selectOp_headWord _⟩

theorem SelectsRow.firUpdate (x : SW) : SelectsRow.Statement (.firUpdate x) :=
  ⟨rfl, selectOp_headWord _⟩

theorem SelectsRow.rsUpdate (x : SW) : SelectsRow.Statement (.rsUpdate x) :=
  ⟨rfl, selectOp_headWord _⟩

theorem SelectsRow.dcUpdate (x : SW) : SelectsRow.Statement (.dcUpdate x) :=
  ⟨rfl, selectOp_headWord _⟩

theorem SelectsRow.lvUpdate (x : SW) : SelectsRow.Statement (.lvUpdate x) :=
  ⟨rfl, selectOp_headWord _⟩

theorem SelectsRow.bdUpdate (x : SW) : SelectsRow.Statement (.bdUpdate x) :=
  ⟨rfl, selectOp_headWord _⟩

theorem SelectsRow.udUpdate (p : SW) : SelectsRow.Statement (.udUpdate p) :=
  ⟨rfl, selectOp_headWord _⟩

theorem SelectsRow.udReceiving : SelectsRow.Statement .udReceiving :=
  ⟨rfl, selectOp_headWord _⟩

theorem SelectsRow.udPhaseSearch : SelectsRow.Statement .udPhaseSearch :=
  ⟨rfl, selectOp_headWord _⟩

theorem SelectsRow.lbUpdate (rcv : Bool) : SelectsRow.Statement (.lbUpdate rcv) :=
  ⟨rfl, selectOp_headWord _⟩

theorem SelectsRow.xcPush (w : U32) : SelectsRow.Statement (.xcPush w) :=
  ⟨rfl, selectOp_headWord _⟩

theorem SelectsRow.xcPop : SelectsRow.Statement .xcPop :=
  ⟨rfl, selectOp_headWord _⟩

theorem SelectsRow.xcTakeOvf : SelectsRow.Statement .xcTakeOvf :=
  ⟨rfl, selectOp_headWord _⟩

theorem SelectsRow.txTick (i : CtlIn) (ev : U32) : SelectsRow.Statement (.txTick i ev) :=
  ⟨rfl, selectOp_headWord _⟩

theorem SelectsRow.udWaitIdle (p : SW) : SelectsRow.Statement (.udWaitIdle p) :=
  ⟨rfl, selectOp_headWord _⟩

theorem SelectsRow.udWaitStart (p : SW) : SelectsRow.Statement (.udWaitStart p) :=
  ⟨rfl, selectOp_headWord _⟩

theorem SelectsRow.udData (p : SW) : SelectsRow.Statement (.udData p) :=
  ⟨rfl, selectOp_headWord _⟩

theorem SelectsRow.udStop (p : SW) : SelectsRow.Statement (.udStop p) :=
  ⟨rfl, selectOp_headWord _⟩

theorem SelectsRow.txIdle (i : CtlIn) (ev : U32) : SelectsRow.Statement (.txIdle i ev) :=
  ⟨rfl, selectOp_headWord _⟩

theorem SelectsRow.txIdleWaitLineFree (i : CtlIn) (ev : U32) : SelectsRow.Statement (.txIdleWaitLineFree i ev) :=
  ⟨rfl, selectOp_headWord _⟩

theorem SelectsRow.txWaitPowerOn (i : CtlIn) (ev : U32) : SelectsRow.Statement (.txWaitPowerOn i ev) :=
  ⟨rfl, selectOp_headWord _⟩

theorem SelectsRow.txStartedWaitForBusy (i : CtlIn) (ev : U32) : SelectsRow.Statement (.txStartedWaitForBusy i ev) :=
  ⟨rfl, selectOp_headWord _⟩

theorem SelectsRow.txRunningCheckData (i : CtlIn) (ev : U32) : SelectsRow.Statement (.txRunningCheckData i ev) :=
  ⟨rfl, selectOp_headWord _⟩

theorem SelectsRow.txRunningWaitForIdle (i : CtlIn) (ev : U32) : SelectsRow.Statement (.txRunningWaitForIdle i ev) :=
  ⟨rfl, selectOp_headWord _⟩

end Sys2Proof.Laws
end

