-- ==== Sys2Proof/Tests/Slice0.lean ====
section
/-! SUPPORT. The model's own tests: the smoke test of WellFormed, decoding of written-out lines, one
step of each operation against the tables of spec/95_test_vectors.md, and a witness of the hypotheses
of each statement. -/

namespace Sys2Proof.Tests

open Sys2Proof Sys2Proof.Machine

/-! ### Helpers -/

/-- The next state of an operation, if it answers one. -/
def after (i : Instr) (s : State) : Option State :=
  match exec i s with
  | .next t => some t
  | _ => none

/-- The outcome is a next state. -/
def isNext (r : Host.Outcome State Fault Refusal) : Bool :=
  match r with
  | .next _ => true
  | _ => false

theorem exists_next : ∀ {r : Host.Outcome State Fault Refusal}, isNext r = true → ∃ t, r = .next t
  | .next t, _ => ⟨t, rfl⟩

/-- The fault of an operation, if it ends in one. -/
def faultOf (i : Instr) (s : State) : Option Fault :=
  match exec i s with
  | .fault f => some f
  | _ => none

/-- What the decoder says of a line. -/
def read (l : List U32) : Option Instr := (decode l).toOption

/-- Why the decoder refuses a line. -/
def refusal (l : List U32) : Option Reject :=
  match decode l with
  | .error e => some e
  | .ok _ => none

/-- The reset state with other acquisition registers. -/
def acqS (f : Acq → Acq) : State := { State.reset with acq := f State.reset.acq }

/-- The reset state with other channel registers. -/
def chanS (full : Bool) (word : U32) (ovf : Bool) : State := { State.reset with xc := ⟨full, word, ovf⟩ }

/-- REFCFG, with some fields changed. -/
def cfgS (f : Config → Config) : State := State.resetOf (f refCfg)

/-- Words of `sW` from integers. -/
def sw (vs : List Int) : List SW := vs.map (BitVec.ofInt 32)

/-- The start state of a row of section 3.12: the message 40 00 0F (but in Idle), the deadline 5000. -/
def txS (st : TxState) (lb : Bool) (f : Tx → Tx) : State :=
  { State.reset with
    out := []
    tx := f { st := st, msg := [0x40, 0x00, 0x0F] ++ List.replicate 29 0
              len := if st = .idle then 0 else 3, off := 0, dl := 5000, lineBusy := lb, coll := false,
              err := false, status := .ok,
              drv := decide (st ≠ .idle ∧ st ≠ .idleWaitLineFree) } }

/-- The inputs of a tick: `tx_hw_idle = 1`, no request, no notification. -/
def at_ (now : Nat) : CtlIn :=
  { now := BitVec.ofNat 32 now, txHwIdle := true, req := none, extColl := false }

/-- The columns after a row of section 3.12. -/
structure Columns where
  st : TxState
  off : Nat
  dl : Nat
  lb : Bool
  err : Bool
  status : Status
  drv : Bool
  actions : List Action
deriving DecidableEq, Repr

/-- The columns of an operation's next state. -/
def row (i : Instr) (s : State) : Option Columns :=
  (after i s).map fun t =>
    ⟨t.tx.st, t.tx.off.toNat, t.tx.dl.toNat, t.tx.lineBusy, t.tx.err, t.tx.status, t.tx.drv, t.out⟩

/-- A phase buffer of 168 entries with these values at these indices. -/
def buf (vs : List (Nat × Int)) : List SW :=
  (List.range 168).map fun j => BitVec.ofInt 32 ((vs.lookup j).getD 0)

/-! ### WellFormed -/

theorem test_wf_refuses_pushed_value : (Instr.srPush .firX 2147483648).illFormed = some .pushedValue := by decide
theorem test_wf_refuses_index : (Instr.srAt .firK (-2147483649)).illFormed = some .index := by decide
theorem test_wf_refuses_request : (Instr.ctlTick
    { at_ 0 with req := some (List.replicate 256 0) }).illFormed = some .requestLength := by decide +kernel
theorem test_wf_accepts_bounds : (Instr.srPush .udPh (-2147483648)).wf = true ∧
    (Instr.srAt .firK 2147483647).wf = true ∧
    (Instr.txIdle { at_ 0 with req := some (List.replicate 255 0) } 0).wf = true := by decide +kernel

/-! ### Decoding: the codes of R94, R95, R99, R100 -/

theorem test_decode_acq : read [0x104] = some .acqReset ∧ read [0x107, 5] = some .acqReset ∧
    read [0x102] = some .acqOverrun ∧ read [0x103, 5] = some .acqOverrun ∧
    read [0x101, 0xFFFFFFFE] = some (.acqSample (-2)) ∧ read [0x100] = some .acqNop := by decide

theorem test_decode_ctl : read [0x202] = some .ctlReset ∧ read [0x203, 9] = some .ctlReset ∧
    read [0x200] = some .ctlNop ∧
    read [0x201, 7, 0, 1, 1, 2, 0xAA, 0x55] =
      some (.ctlTick { now := 7, txHwIdle := false, req := some [0xAA, 0x55], extColl := true }) := by decide

theorem test_decode_sr : read [0x301, 3, 0x80000000] = some (.srPush .udPh (-2147483648)) ∧
    read [0x302, 4, 6] = some (.srAt .firK 6) ∧ read [0x302, 1, 0xFFFFFFFF] = some (.srAt (.win .bdRaw) (-1)) ∧
    read [0x303, 0, 4] = some (.srConv (.win .firX) .firK) := by decide

theorem test_decode_dsp : read [0x310, 1] = some (.firUpdate 1) ∧ read [0x311, 2] = some (.rsUpdate 2) ∧
    read [0x312, 3] = some (.dcUpdate 3) ∧ read [0x313, 4] = some (.lvUpdate 4) ∧
    read [0x314, 5] = some (.bdUpdate 5) := by decide

theorem test_decode_ud : read [0x315, 6] = some (.udUpdate 6) ∧ read [0x316] = some .udReceiving ∧
    read [0x317] = some .udPhaseSearch ∧ read [0x400, 1] = some (.udWaitIdle 1) ∧
    read [0x401, 2] = some (.udWaitStart 2) ∧ read [0x402, 3] = some (.udData 3) ∧
    read [0x403, 4] = some (.udStop 4) := by decide

theorem test_decode_channel : read [0x318, 1] = some (.lbUpdate true) ∧
    read [0x320, 0x400] = some (.xcPush 0x400) ∧ read [0x321] = some .xcPop ∧
    read [0x322] = some .xcTakeOvf := by decide

theorem test_decode_tx : read [0x330, 0x140, 9, 1] = some (.txTick (at_ 9) 0x140) ∧
    read [0x500, 0, 9, 1] = some (.txIdle (at_ 9) 0) ∧
    read [0x501, 0, 9, 1] = some (.txIdleWaitLineFree (at_ 9) 0) ∧
    read [0x502, 0, 9, 1] = some (.txWaitPowerOn (at_ 9) 0) ∧
    read [0x503, 0, 9, 1] = some (.txStartedWaitForBusy (at_ 9) 0) ∧
    read [0x504, 0, 9, 1] = some (.txRunningCheckData (at_ 9) 0) ∧
    read [0x505, 0, 9, 1] = some (.txRunningWaitForIdle (at_ 9) 0) := by decide

theorem test_decode_refuses_codes : refusal [] = some .emptyLine ∧ refusal [0x600] = some .unknownFormat ∧
    refusal [0x319] = some .unknownCode ∧ refusal [0x506] = some .unknownCode ∧
    refusal [0x507] = some .unknownCode ∧ refusal [0x108] = some .unknownCode ∧
    refusal [0x404] = some .unknownCode := by decide

theorem test_decode_refuses_operands : refusal [0x310, 1, 2] = some .extraWords ∧
    refusal [0x318, 2] = some .badBool ∧ refusal [0x301, 4, 0] = some .badRegister ∧
    refusal [0x302, 5, 0] = some .badRegister ∧ refusal [0x201, 0, 1, 0, 1, 256] = some .badLength ∧
    refusal [0x201, 0, 1, 0, 1, 1, 256] = some .badByte ∧
    refusal [0x201, 0, 1, 0, 0, 0] = some .extraWords := by decide

theorem test_table_words : decodeTableWord 8 0x10 = some (.firUpdate 0) ∧
    decodeTableWord 8 0x30 = some (.txTick { at_ 0 with txHwIdle := false } 0) ∧
    decodeTableWord 8 4 = some .acqReset ∧ decodeTableWord 8 0x99 = none := by decide

/-! ### Step -/

theorem test_step_runs_the_line : step { State.reset with stim := [[0x320, 0x140], [0x100]] } =
    .next { chanS true 0x140 false with stim := [[0x100]] } := by rfl

theorem test_step_refuses_a_bad_line : step { State.reset with stim := [[0x600]] } =
    .refused (.undecodable .unknownFormat) := by rfl

theorem test_step_runs_the_table_word : step (State.reset.withFetchWord 3 5) =
    exec (.txRunningWaitForIdle { at_ 0 with txHwIdle := false } 0)
      { State.reset with tx := { State.reset.tx with st := .runningWaitForIdle } } := by rfl

/-! ### Resets and idle steps (R320, R321, R322, R213, R241, U6) -/

theorem test_acqReset : after .acqReset
    { acqS (fun a => { a with rsCnt := 1, udSt := .stop, lbBusy := true, dcYa := 9 }) with acqUp := false } =
    some State.reset := by decide

theorem test_acqReset_refuses : faultOf .acqReset (cfgS fun c => { c with osr := 5 }) = some .config := by
  decide

theorem test_ctlReset : after .ctlReset
    { State.reset with xc := ⟨true, 0x400, true⟩, tx := (txS .waitPowerOn true id).tx, ctlUp := false } =
    some { State.reset with out := [.drvEnable false, .drvEnable false] } := by decide

theorem test_ctlReset_refuses : faultOf .ctlReset (cfgS fun c => { c with parity := 3 }) = some .config := by
  decide

theorem test_acqNop : after .acqNop State.reset = some State.reset := by decide
theorem test_acqNop_stuck : faultOf .acqNop { State.reset with acqUp := false } = some .beforeReset := by decide
theorem test_ctlNop : after .ctlNop State.reset = some State.reset := by decide
theorem test_ctlNop_stuck : faultOf .ctlNop { State.reset with ctlUp := false } = some .beforeReset := by decide

/-! ### Shift registers and FIR (95, 3.1 and 3.2; 3.1's short registers are lists here) -/

theorem test_srPush : (after (.srPush .firX 4) (acqS fun a => { a with firX := sw [1, 2, 3, 0, 0, 0, 0] })).map
    (·.acq.firX) = some (sw [2, 3, 0, 0, 0, 0, 4]) := by decide
theorem test_srPush_overflow : faultOf (.srPush .udPh 2147483648) State.reset = some .overflow := by decide
theorem test_srAt : (after (.srAt .firK 3) State.reset).map (·.ret) = some (.sample 4) := by decide
theorem test_srAt_index : faultOf (.srAt (.win .firX) 7) State.reset = some .index ∧
    faultOf (.srAt (.win .firX) (-1)) State.reset = some .index := by decide
theorem test_srConv : srConv (sw [1, 2, 3]) (sw [4, 5, 6, 7, 8]) = .ok 32 ∧
    srConv (sw [-1, -1, -1]) (sw [4, 5, 6]) = .ok (-15) := by decide
theorem test_srConv_overflow :
    srConv (sw [1073741824, 1073741824, -1073741824]) (sw [1, 1, 1]) = .error .overflow ∧
    srConv (sw [65536, 0, 0]) (sw [32768, 0, 0]) = .error .overflow := by decide
theorem test_srConv_runs : (after (.srConv (.win .firX) .firK)
    (acqS fun a => { a with firX := sw [1, 1, 1, 1, 1, 1, 10] })).map (·.ret) = some (.sample 25) := by decide
theorem test_firUpdate_floor : (after (.firUpdate (-1)) State.reset).map (fun t => (t.ret, t.acq.firX)) =
    some (.sample (-1), sw [0, 0, 0, 0, 0, 0, -1]) := by decide
theorem test_firUpdate_step : (after (.firUpdate 1000) (acqS fun a => { a with firX := sw [0, 0, 0, 0, 1000, 1000, 1000] })).map
    (·.ret) = some (.sample 625) := by decide

/-! ### Resampler, DC blocker, level detector (95, 3.3 to 3.5) -/

theorem test_rsUpdate_passes : (after (.rsUpdate 13) (cfgS fun c => { c with rsDrop := 2 })).map
    (fun t => (t.ret, t.acq.rsCnt)) = some (.optSample (some 13), 1) := by decide
theorem test_rsUpdate_wraps : (after (.rsUpdate 8) (acqS fun a => { a with rsCnt := 1 })).map
    (fun t => (t.ret, t.acq.rsCnt)) = some (.optSample none, 0) := by decide
theorem test_dcUpdate_odd : (after (.dcUpdate 0) (acqS fun a => { a with dcXp := -1000, dcYa := -1019000 })).map
    (fun t => (t.ret, t.acq.dcYa, t.acq.dcXp)) = some (.sample 9, 9976, 0) := by decide
theorem test_dcUpdate_overflow : faultOf (.dcUpdate 2097152) State.reset = some .overflow := by decide
theorem test_lvUpdate_idle : (after (.lvUpdate 249) (acqS fun a => { a with lvSt := .high })).map
    (fun t => (t.ret, t.acq.lvSt)) = some (.sample 24, .idle) := by decide
theorem test_lvUpdate_low : (after (.lvUpdate (-500)) (acqS fun a => { a with lvSt := .high })).map
    (fun t => (t.ret, t.acq.lvSt)) = some (.sample (-500), .low) := by decide

/-! ### Bit detector (95, 3.6: calls 34 and 36 of the first row; 93 U3: window sums of `2^33`
with the reported value 0) -/

theorem test_bdUpdate_best_and_late : (after (.bdUpdate 0) (acqS fun a => { a with
      bdRaw := sw ([0, 0] ++ List.replicate 8 1000 ++ List.replicate 6 0)
      bdAb := sw ([0, 0] ++ List.replicate 8 1000 ++ List.replicate 6 0) })).map (·.ret) =
      some (.sample 8000) ∧
    (after (.bdUpdate 0) (acqS fun a => { a with
      bdRaw := sw (List.replicate 8 (-1000) ++ List.replicate 8 0)
      bdAb := sw (List.replicate 8 1000 ++ List.replicate 8 0) })).map (·.ret) =
      some (.sample (-5000)) := by decide
theorem test_bdUpdate_window_sum : faultOf (.bdUpdate 0) (acqS fun a => { a with
    bdRaw := sw (List.replicate 16 1073741824)
    bdAb := sw (List.replicate 16 1073741824) }) = some .overflow := by decide

/-! ### UART decoder (95, 3.7: the buffers of V1, V2, V12 and V6; pulses at `UD.ph` index `16 b`) -/

/-- The pulses of V1: byte 0xA5, slots 0, 2, 4, 5, 7, 9. -/
def pulsesA5 : List (Nat × Int) := [(0, 5000), (32, -5000), (64, 5000), (80, -5000), (112, 5000), (144, -5000)]

/-- The pulses of V12 as phases 0 and 1 see them (byte 0x3C, slots 0, 1, 2, 7, 8, 9), and the extra
one at index 49. -/
def pulses3C : List (Nat × Int) :=
  (49, 7000) :: ([(0, 1), (1, -1), (2, 1), (7, -1), (8, 1), (9, -1)].flatMap fun (b, g) =>
    [(16 * b, 5000 * g), (16 * b + 1, 9000 * g)])

theorem test_udPhaseSearch : (after .udPhaseSearch (acqS fun a => { a with udPh := buf pulsesA5 })).map (·.ret) =
    some (.byteEvent ⟨0xA5, true, true⟩) := by decide +kernel
theorem test_udPhaseSearch_two_tiers : (after .udPhaseSearch (acqS fun a => { a with udPh := buf pulses3C })).map
    (·.ret) = some (.byteEvent ⟨0x3C, true, true⟩) := by decide +kernel
theorem test_udStop_parity : (after (.udStop 77) (acqS fun a => { a with
    udSt := .stop, udPh := buf (pulsesA5.take 5) })).map (fun t => (t.ret, t.acq.udSt)) =
    some (.optByteEvent (some ⟨0xA5, false, true⟩), .waitIdle) := by decide +kernel
theorem test_udUpdate_quiet_frame : (after (.udUpdate 0) (acqS fun a => { a with udSt := .stop })).map
    (fun t => (t.ret, t.acq.udSt)) = some (.optByteEvent (some ⟨0xFF, false, false⟩), .waitIdle) := by
  decide +kernel
theorem test_udUpdate_stop_pulse : (after (.udUpdate 0) (acqS fun a => { a with
    udSt := .stop, udPh := buf ((160, 5000) :: pulsesA5) })).map (·.ret) =
    some (.optByteEvent (some ⟨0xA5, true, false⟩)) := by decide +kernel
theorem test_udWaitIdle : (after (.udWaitIdle 5000) State.reset).map (·.acq.udSt) = some .waitStart := by decide
theorem test_udWaitStart : (after (.udWaitStart (-4000)) (acqS fun a => { a with udSt := .waitStart })).map
    (fun t => (t.acq.udSt, t.acq.udCnt)) = some (.data, 168) := by decide
theorem test_udWaitStart_glitch : (after (.udWaitStart 0) (acqS fun a => { a with udSt := .waitStart })).map
    (·.acq.udSt) = some .waitIdle := by decide
theorem test_udData : (after (.udData 9) (acqS fun a => { a with udSt := .data, udCnt := 1 })).map
    (fun t => (t.acq.udSt, t.acq.udCnt, t.acq.udPh.getLast?)) = some (.stop, 0, some 9) := by decide
theorem test_udReceiving : (after .udReceiving (acqS fun a => { a with udSt := .stop })).map (·.ret) =
    some (.flag true) := by decide

/-! ### Line-busy tracker and channel (95, 3.8 and 3.9) -/

theorem test_lbUpdate_busy : (after (.lbUpdate true) State.reset).map
    (fun t => (t.ret, t.acq.lbBusy, t.acq.lbCnt)) = some (.edges true false, true, 1936) := by decide
theorem test_lbUpdate_free : (after (.lbUpdate false) (acqS fun a => { a with lbBusy := true, lbCnt := 1 })).map
    (fun t => (t.ret, t.acq.lbBusy, t.acq.lbCnt)) = some (.edges false true, false, 0) := by decide
theorem test_xcPush : (after (.xcPush 0x400) State.reset).map (·.xc) = some ⟨true, 0x400, false⟩ := by decide
theorem test_xcPush_full : (after (.xcPush 0x140) (chanS true 0x400 false)).map (·.xc) =
    some ⟨true, 0x400, true⟩ := by decide
theorem test_xcPop : (after .xcPop (chanS true 0x400 true)).map (fun t => (t.ret, t.xc)) =
    some (.optWord (some 0x400), ⟨false, 0x400, true⟩) := by decide
theorem test_xcPop_empty : (after .xcPop (chanS false 0x400 true)).map (fun t => (t.ret, t.xc)) =
    some (.optWord none, ⟨false, 0x400, true⟩) := by decide
theorem test_xcTakeOvf : (after .xcTakeOvf (chanS false 0x400 true)).map (fun t => (t.ret, t.xc)) =
    some (.flag true, ⟨false, 0x400, false⟩) := by decide

/-! ### Packing (95, 3.10) and `expired` (95, 3.11) -/

theorem test_packing : packEvent none false false = 0 ∧ packEvent none true false = 0x400 ∧
    packEvent none false true = 0x800 ∧ packEvent (some ⟨0xA5, true, true⟩) false false = 0x1A5 ∧
    packEvent (some ⟨0xA5, false, true⟩) false false = 0x3A5 ∧
    packEvent (some ⟨0xA5, true, false⟩) false false = 0x200 ∧
    packEvent (some ⟨0, true, true⟩) false false = 0x100 ∧ overrunWord = 0x1000 := by decide

theorem test_expired : expired 5 5 = true ∧ expired 4 5 = false ∧ expired 0 0xFFFFFFF0 = true ∧
    expired 0xFFFFFFF0 0 = false ∧ expired 0x80000004 5 = true ∧ expired 0x80000005 5 = false ∧
    expired 0x7FFFFFFF 0 = true ∧ expired 0x80000000 0 = false := by decide

/-! ### The acquisition step (95, section 4: the samples of raw index 100 and of `k = 64`) -/

theorem test_acqSample_first : (after (.acqSample 1000) State.reset).map
    (fun t => (t.acq.dcYa, t.acq.lvSt, t.acq.rsCnt, t.xc)) = some (63488, .idle, 1, ⟨false, 0, false⟩) := by
  decide

theorem test_acqSample_busy_word : (after (.acqSample 0) (acqS fun a => { a with
    dcYa := -38699
    bdRaw := sw [0, 6, 37, 809, 993, 989, 984, 979, 974, 906, 590, 14, -3, -3, -3, -3].tail ++ [0]
    bdAb := sw [0, 6, 37, 809, 993, 989, 984, 979, 974, 906, 590, 14, 3, 3, 3, 3].tail ++ [0] })).map
    (fun t => (t.acq.dcYa, t.acq.udSt, t.xc)) = some (-38510, .waitStart, ⟨true, 0x400, false⟩) := by
  decide

theorem test_acqOverrun : (after .acqOverrun (acqS fun a => { a with lbBusy := true, rsCnt := 1 })).map
    (fun t => (t.acq.lbBusy, t.acq.rsCnt, t.xc)) = some (false, 0, ⟨true, 0x1000, false⟩) := by decide
theorem test_acqOverrun_full : (after .acqOverrun (chanS true 0x140 false)).map (·.xc) =
    some ⟨true, 0x140, true⟩ := by decide

/-! ### The control step and the arbiter (95, 3.12) -/

theorem test_ctlTick_reports : (after (.ctlTick (at_ 988)) { chanS true 0x1000 true with
    tx := (txS .idle true id).tx, out := [] }).map (fun t => (t.out, t.tx.lineBusy, t.xc)) =
    some ([.report .overflow, .forward 0x1000, .report .internal], false, ⟨false, 0x1000, false⟩) := by decide
theorem test_ctlTick_done : row (.ctlTick (at_ 46000))
    { txS .runningWaitForIdle true (fun t => { t with off := 3, dl := 40298, drv := false }) with
      xc := ⟨true, 0x800, false⟩ } =
    some ⟨.idle, 0, 40298, false, false, .ok, false, [.forward 0x800, .done .ok]⟩ := by decide
theorem test_txTick_T34 : row (.txTick (at_ 100) 0x340) (txS .startedWaitForBusy false id) =
    some ⟨.runningWaitForIdle, 0, 14998, false, true, .collision, true, [.txFlush]⟩ := by decide
theorem test_txTick_T52 : row (.txTick (at_ 100) 0x800) (txS .runningWaitForIdle true fun t => { t with off := 3 }) =
    some ⟨.idle, 0, 5000, false, false, .ok, false, [.drvEnable false, .done .ok]⟩ := by decide
theorem test_txIdle_T1 : row (.txIdle { at_ 100 with req := some [1, 2] } 0) (txS .idle false id) =
    some ⟨.idleWaitLineFree, 0, 19582, false, false, .ok, false, [.reqTaken]⟩ := by decide
theorem test_txIdle_T5 : row (.txIdle { at_ 100 with req := some (List.replicate 33 1) } 0) (txS .idle false id) =
    some ⟨.idle, 0, 5000, false, false, .ok, false, []⟩ := by decide
theorem test_txIdleWaitLineFree_T10 : row (.txIdleWaitLineFree (at_ 100) 0) (txS .idleWaitLineFree false id) =
    some ⟨.waitPowerOn, 0, 20100, false, false, .ok, true, [.drvEnable true]⟩ := by decide
theorem test_txIdleWaitLineFree_T12 : row (.txIdleWaitLineFree (at_ 5000) 0) (txS .idleWaitLineFree true id) =
    some ⟨.idle, 0, 5000, true, true, .noFraming, false, [.done .noFraming]⟩ := by decide
theorem test_txWaitPowerOn_T21 : row (.txWaitPowerOn (at_ 5000) 0) (txS .waitPowerOn false id) =
    some ⟨.startedWaitForBusy, 0, 6146, false, false, .ok, true,
      [.txWrite 0x40, .txWrite 0x00, .txWrite 0x0F]⟩ := by decide
theorem test_txWaitPowerOn_T22 : row (.txWaitPowerOn (at_ 5000) 0x400) (txS .waitPowerOn true id) =
    some ⟨.idle, 0, 5000, true, true, .noFraming, false, [.drvEnable false, .done .noFraming]⟩ := by decide
theorem test_txStartedWaitForBusy_T33 : row (.txStartedWaitForBusy (at_ 100) 0x141)
    (txS .startedWaitForBusy false id) =
    some ⟨.runningWaitForIdle, 0, 14998, false, true, .collision, true, [.txFlush]⟩ := by decide
theorem test_txStartedWaitForBusy_T35 : (after (.txStartedWaitForBusy (at_ 100) 0x200)
    (txS .startedWaitForBusy false id)).map (fun t => (t.tx.st, t.tx.coll, t.tx.dl, t.out)) =
    some (.runningCheckData, true, 2392, []) := by decide
theorem test_txRunningCheckData_T43 : row (.txRunningCheckData (at_ 100) 0x10F)
    (txS .runningCheckData true fun t => { t with off := 2 }) =
    some ⟨.runningWaitForIdle, 3, 14998, true, false, .ok, true, []⟩ := by decide
theorem test_txRunningCheckData_T4A : row (.txRunningCheckData (at_ 5000) 0) (txS .runningCheckData true id) =
    some ⟨.runningWaitForIdle, 0, 19898, true, true, .noFraming, true, [.txFlush]⟩ := by decide
theorem test_txRunningWaitForIdle_T54 : row (.txRunningWaitForIdle { at_ 100 with txHwIdle := false } 0)
    (txS .runningWaitForIdle false fun t => { t with off := 1, err := true, status := .collision }) =
    some ⟨.idle, 0, 5000, false, true, .collision, false, [.drvEnable false, .done .collision]⟩ := by decide
theorem test_txRunningWaitForIdle_T53 : row (.txRunningWaitForIdle (at_ 5000) 0)
    (txS .runningWaitForIdle true fun t => { t with off := 3, drv := false }) =
    some ⟨.idle, 0, 5000, true, true, .noFraming, false, [.done .noFraming]⟩ := by decide
theorem test_arm_not_selected : exec (.txIdle (at_ 0) 0) (txS .waitPowerOn false id) = .refused .armNotSelected ∧
    exec (.udData 1) State.reset = .refused .armNotSelected := by constructor <;> rfl

/-! ### Witnesses: the hypotheses of each statement are met, clause by clause -/

/-- A machine in the middle of its work: a frame is being received, the last of three bytes is about
to be checked, one word waits in the channel. -/
def busy : State :=
  { State.reset with
    acq := { State.reset.acq with udSt := .data, udCnt := 1, lbBusy := true, lbPrev := true, lbCnt := 1936 }
    xc := ⟨true, 0x10F, false⟩
    tx := (txS .runningCheckData true fun t => { t with off := 2 }).tx }

theorem busy_acqInv : AcqInv busy.cfg busy.acq := by
  unfold AcqInv; decide +kernel

theorem busy_txInv : TxInv busy.cfg busy.tx := by
  unfold TxInv; decide

theorem busy_inv : Inv busy :=
  ⟨fun _ => ⟨by decide, busy_acqInv⟩, fun _ => ⟨by decide, busy_txInv⟩⟩

theorem busy_invExternal : InvExternal busy :=
  ⟨busy_inv, fun _ => by unfold AcqSync; decide⟩

/-- The acquisition registers of reset meet their invariant. -/
theorem reset_acqInv : AcqInv State.reset.cfg State.reset.acq := by
  unfold AcqInv; decide +kernel

theorem refCfg_legal : CfgLegal refCfg := by decide

theorem witness_DecodeInvertsEncode :
    ∀ i ∈ [Instr.srPush .bdAb (-2147483648), .srPush .bdAb 2147483647, .srAt .firK 2147483647, .xcPush 0xFFFFFFFF,
      .txTick { at_ 0 with req := some (List.replicate 255 0xFF) } 1], i.wf = true := by decide +kernel

theorem witness_DecodedOperationsAreWellFormed :
    decode [0x302, 4, 0x80000000] = .ok (.srAt .firK (-2147483648)) := by rfl

theorem witness_StrobeVectorsSelectByPriority :
    (Instr.wf (.ctlTick { at_ 0 with req := some (List.replicate 255 7) })) = true ∧
    (Instr.wf (.ctlTick (at_ 0))) = true := by decide +kernel

theorem witness_StepRunsTheDecodedOperation :
    ({ State.reset with stim := [[0x100]] } : State).stim = [0x100] :: [] ∧ decode [0x100] = .ok .acqNop ∧
    State.reset.stim = [] ∧ decode [0x506] = .error .unknownCode := by
  refine ⟨rfl, ?_, rfl, ?_⟩ <;> rfl

theorem witness_AcqResetWritesTheResetValues :
    CfgLegal refCfg ∧ CfgLegal { refCfg with osr := 4 } ∧ CfgLegal { refCfg with osr := 256 } ∧
    ¬ CfgLegal { refCfg with osr := 2 } ∧ ¬ CfgLegal { refCfg with osr := 258 } := by
  refine ⟨?_, ?_, ?_, ?_, ?_⟩ <;> decide

theorem witness_CtlResetWritesTheResetValues :
    CfgLegal { refCfg with msgMax := 1 } ∧ CfgLegal { refCfg with msgMax := 255 } ∧
    ¬ CfgLegal { refCfg with msgMax := 0 } := by
  refine ⟨?_, ?_, ?_⟩ <;> decide

theorem witness_StartUpReachesTheResetState : CfgLegal busy.cfg := refCfg_legal

theorem witness_StopsWhereThereIsNoStep :
    let s : State := { State.reset with acqUp := false, ctlUp := false }
    (Instr.acqNop ≠ .acqReset ∧ Instr.acqNop ≠ .ctlReset ∧ agentOf .acqNop = .acquisition ∧ s.acqUp = false) ∧
    (Instr.ctlNop ≠ .acqReset ∧ Instr.ctlNop ≠ .ctlReset ∧ agentOf .ctlNop = .control ∧ s.ctlUp = false) ∧
    (busy.acqUp = true ∧ busy.acq.udSt ≠ .stop) ∧ (busy.ctlUp = true ∧ busy.tx.st ≠ .idle) := by decide

theorem witness_PushShiftsTheWindow :
    busy.acqUp = true ∧ winGet .udPh busy.acq ≠ [] ∧ InSW 2147483647 ∧ InSW (-2147483648) ∧
    ¬ InSW 2147483648 ∧ ¬ InSW (-2147483649) := by decide

theorem witness_PushedValuesStandOldestFirst :
    busy.acqUp = true ∧ (sw [1, 2, 3, 4, 5, 6, 7]).length ≤ (winGet .firX busy.acq).length ∧
    (sw []).length ≤ (winGet .firX busy.acq).length := by decide

theorem witness_AtReadsTheIthOldest :
    let n := (sregGet busy.cfg (.win .firX) busy.acq).length
    busy.acqUp = true ∧ ((0 : Int) ≤ 0 ∧ (0 : Int) < n) ∧ ((0 : Int) ≤ 6 ∧ (6 : Int) < n) ∧
    ((7 : Int) < 0 ∨ (n : Int) ≤ 7) ∧ ((-1 : Int) < 0 ∨ (n : Int) ≤ -1) := by decide

/-- The products of the window `x` with `FIR.k`, as the statements about SR.CONV and FIR.UPDATE write
them. -/
def products (s : State) (x : List SW) : List Int :=
  List.zipWith (fun x y => x.toInt * y.toInt) x (sregGet s.cfg .firK s.acq)

theorem witness_ConvIsTheCheckedDotProduct :
    let fits (ps : List Int) := (∀ p ∈ ps, InSW p) ∧ (∀ k, k ≤ ps.length → InSW (ps.take k).sum)
    let st (vs : List Int) := acqS fun a => { a with firX := sw vs }
    let prods (s : State) := products s (sregGet s.cfg (.win .firX) s.acq)
    (st []).acqUp = true ∧ fits (prods (st [2147483647, 0, 0, 0, 0, 0, 0])) ∧
    fits (prods (st [-2147483648, 0, 0, 0, 0, 0, 0])) ∧
    ¬ fits (prods (st [2147483647, 1, 0, 0, 0, 0, -3])) := by decide

theorem witness_FirConvolvesAfterThePush :
    let fits (ps : List Int) := (∀ p ∈ ps, InSW p) ∧ (∀ k, k ≤ ps.length → InSW (ps.take k).sum)
    let s := acqS fun a => { a with firX := sw [0, 0, 0, 0, 0, 0, 2147483647] }
    State.reset.acqUp = true ∧ State.reset.acq.firX.length = 7 ∧
    fits (products State.reset (State.reset.acq.firX.tail ++ [2147483647])) ∧
    s.acqUp = true ∧ s.acq.firX.length = 7 ∧ ¬ fits (products s (s.acq.firX.tail ++ [2147483647])) := by decide

theorem witness_ResamplerPassesWhenTheCounterIsZero :
    let s := acqS fun a => { a with rsCnt := 1 }
    State.reset.acqUp = true ∧ State.reset.acq.rsCnt.toNat ≤ State.reset.cfg.rsDrop.toNat ∧
    s.acqUp = true ∧ s.acq.rsCnt.toNat ≤ s.cfg.rsDrop.toNat := by decide

theorem witness_ResamplerEmitsEveryNthSample :
    State.reset.acqUp = true ∧ State.reset.acq.rsCnt = 0 := by decide

theorem witness_DcBlockerFollowsItsEquation :
    State.reset.acqUp = true ∧ InSW (dcNext refCfg State.reset.acq 2097151) ∧
    ¬ InSW (dcNext refCfg State.reset.acq 2097152) := by decide

theorem witness_DcBlockerStaysInRange :
    let s := acqS fun a => { a with dcXp := 524288, dcYa := 1073742848 }
    s.acqUp = true ∧ CfgLegal s.cfg ∧ 524288 * 2 ^ (s.cfg.dcQ.toNat + 2) ≤ 2147483648 ∧
    s.acq.dcXp.toInt.natAbs ≤ 524288 ∧
    (s.acq.dcYa.toInt - s.acq.dcXp.toInt * 2 ^ s.cfg.dcQ.toNat).natAbs ≤ (524288 + 1) * 2 ^ s.cfg.dcQ.toNat ∧
    (BitVec.ofInt 32 (-524288)).toInt.natAbs ≤ 524288 := by decide

theorem witness_DcBlockerForgetsAConstant :
    let s := acqS fun a => { a with dcXp := 5, dcYa := -1 }
    s.acqUp = true ∧ CfgLegal s.cfg ∧ s.acq.dcXp = 5 ∧ s.acq.dcYa ≠ 0 ∧ s.acq.dcYa.toInt.natAbs ≤ 1 ∧
    State.reset.acq.dcYa = 0 := by decide

theorem witness_LevelDetectorClassifies : busy.acqUp = true ∧ CfgLegal busy.cfg := ⟨rfl, refCfg_legal⟩

/-- The condition under which the statement about BD.UPDATE has it answer. -/
def bdFits (s : State) (x : SW) : Bool :=
  let N := s.cfg.osr.toNat
  let raw := s.acq.bdRaw.tail ++ [x]
  let ab := s.acq.bdAb.tail ++ [BitVec.ofInt 32 |x.toInt|]
  let hc := ∑ i ∈ Finset.Icc 1 (N / 2), (raw.getD i 0).toInt
  let ae := (ab.getD 0 0).toInt + ∑ i ∈ Finset.Icc (N / 2 + 1) (N - 1), (ab.getD i 0).toInt
  let p := if rxThresh s.cfg ≤ hc - ae then hc - ae else if rxThresh s.cfg ≤ -hc - ae then -(-hc - ae) else 0
  decide (InSW |x.toInt| ∧ InSW hc ∧ InSW ae ∧ InSW p)

/-- A state whose two bit-detector windows are these. -/
def bdS (raw ab : List Int) : State := acqS fun a => { a with bdRaw := sw raw, bdAb := sw ab }

/-- Both windows full of `2^30`: the window sums are `2^33`, the value they report is 0. -/
def loud : State := bdS (List.replicate 16 1073741824) (List.replicate 16 1073741824)

/-- A raw window whose sum over the pulse region is `v`, next to a quiet magnitude window. -/
def edge (v : Int) : State := bdS ([0, 0, v] ++ List.replicate 13 0) ([0] ++ List.replicate 15 0)

theorem witness_BitDetectorScoresTheWindow :
    (State.reset.acqUp = true ∧ CfgLegal State.reset.cfg ∧
      State.reset.acq.bdRaw.length = osr State.reset.cfg ∧ State.reset.acq.bdAb.length = osr State.reset.cfg ∧
      bdFits State.reset (-2147483647) = true ∧ bdFits State.reset (-2147483648) = false) ∧
    (loud.acqUp = true ∧ CfgLegal loud.cfg ∧ loud.acq.bdRaw.length = osr loud.cfg ∧
      loud.acq.bdAb.length = osr loud.cfg ∧ bdFits loud 0 = false) ∧
    (bdFits (edge 2147483647) 0 = true ∧ (edge 2147483647).acq.bdRaw.length = osr refCfg) :=
  ⟨⟨rfl, refCfg_legal, by decide, by decide, by decide +kernel, by decide +kernel⟩,
    ⟨rfl, refCfg_legal, by decide, by decide, by decide +kernel⟩, by decide +kernel, by decide⟩

theorem witness_StartNeedsTwoConsecutiveHits :
    State.reset.acqUp = true ∧ State.reset.acq.udSt = .waitIdle ∧
    (acqS fun a => { a with udSt := .waitStart }).acq.udSt = .waitStart ∧ (-4000 : SW) ≠ 0 := by decide

theorem witness_DataArmStoresAndCountsDown :
    busy.acqUp = true ∧ busy.acq.udSt = .data ∧ busy.acq.udPh ≠ [] ∧ 0 < busy.acq.udCnt.toNat := by decide

theorem witness_StopArmEmitsTheSearchedByte :
    let s := acqS fun a => { a with udSt := .stop, udPh := buf pulsesA5 }
    s.acqUp = true ∧ s.acq.udSt = .stop ∧ CfgLegal s.cfg ∧ s.acq.udPh.length = dataLen s.cfg := by decide +kernel

theorem witness_UpdateRunsTheArmOfTheState :
    busy.acqUp = true ∧ CfgLegal busy.cfg ∧ AcqInv busy.cfg busy.acq := ⟨rfl, refCfg_legal, busy_acqInv⟩

theorem witness_PhaseIsReadAsTheRuleSays :
    refCfg.parity.toNat ≤ 2 ∧ refCfg.parity = 1 ∧
    ({ refCfg with parity := 0 } : Config).parity = 0 ∧
    ({ refCfg with parity := 2 } : Config).parity = 2 ∧ ({ refCfg with parity := 2 } : Config).parity.toNat ≤ 2 := by
  decide

theorem witness_SearchPicksTheMostConfidentPassingPhase :
    let s := acqS fun a => { a with udPh := buf pulses3C }
    s.acqUp = true ∧ CfgLegal s.cfg ∧ s.acq.udPh.length = dataLen s.cfg ∧
    passes (evalPhase s.cfg s.acq.udPh 0) = true ∧ passes (evalPhase s.cfg s.acq.udPh 1) = false := by decide +kernel

theorem witness_QuietBufferIsAFramingError :
    State.reset.acqUp = true ∧ CfgLegal State.reset.cfg ∧
    State.reset.acq.udPh = List.replicate (dataLen State.reset.cfg) 0 :=
  ⟨rfl, refCfg_legal, by decide +kernel⟩

theorem witness_OneFrameGivesOneEvent :
    State.reset.acqUp = true ∧ CfgLegal State.reset.cfg ∧ AcqInv State.reset.cfg State.reset.acq ∧
    State.reset.acq.udSt = .waitIdle ∧ (4000 : SW) ≠ 0 ∧ (6000 : SW) ≠ 0 ∧
    (buf pulsesA5).length = dataLen State.reset.cfg :=
  ⟨rfl, refCfg_legal, reset_acqInv, rfl, by decide, by decide, by decide +kernel⟩

theorem witness_QuietLineStaysIdle : State.reset.acqUp = true ∧ State.reset.acq.udSt = .waitIdle := by decide

theorem witness_ReceivingIsEveryStateButWaitIdle : busy.acqUp = true := rfl

theorem witness_LineBusyTracksReceiving :
    let s1 := acqS fun a => { a with lbBusy := true, lbCnt := 1 }
    let s2 := acqS fun a => { a with lbBusy := true, lbPrev := true, lbCnt := 1936 }
    (s1.acqUp = true ∧ (s1.acq.lbBusy = true → s1.acq.lbCnt ≠ 0)) ∧
    (s2.acqUp = true ∧ (s2.acq.lbBusy = true → s2.acq.lbCnt ≠ 0)) ∧
    (true = true ∧ s1.acq.lbPrev = false) ∧ (false = false ∧ s1.acq.lbBusy = true) ∧
    (true = true ∧ s2.acq.lbPrev = true) ∧ (false = false ∧ State.reset.acq.lbBusy = false) := by decide

theorem witness_FreeEdgeComesAfterTheIdleTimeout :
    busy.acqUp = true ∧ CfgLegal busy.cfg ∧ AcqInv busy.cfg busy.acq ∧ busy.acq.lbPrev = true :=
  ⟨rfl, refCfg_legal, busy_acqInv, rfl⟩

theorem witness_ChannelOperations :
    busy.acqUp = true ∧ busy.ctlUp = true ∧ busy.xc.full = true ∧ State.reset.acqUp = true ∧
    State.reset.ctlUp = true ∧ State.reset.xc.full = false := by decide

/-- A run of both agents: two overruns, the second dropped, and a tick. -/
def shortRun : List Instr := [.acqOverrun, .acqOverrun, .ctlTick (at_ 5), .acqNop, .ctlNop]

theorem shortRun_external : ∀ i ∈ shortRun, External i ∧ i ≠ .ctlReset := by
  intro i hi
  simp only [shortRun, List.mem_cons, List.not_mem_nil, or_false] at hi
  rcases hi with rfl | rfl | rfl | rfl | rfl <;> exact ⟨trivial, Instr.noConfusion⟩

theorem witness_AcceptedWordsAreForwardedInOrder :
    (∀ i ∈ shortRun, External i ∧ i ≠ .ctlReset) ∧ ∃ t, runOps shortRun busy = .next t :=
  ⟨shortRun_external, exists_next (by decide)⟩

theorem witness_SampleIsTheChainOfItsComponents : State.reset.acqUp = true := rfl

theorem witness_SamplesInRangeNeverFault :
    let x : SW := BitVec.ofInt 32 (-524288)
    State.reset.acqUp = true ∧ CfgLegal State.reset.cfg ∧ RangeOk State.reset.cfg 524288 524288 ∧
    AcqInv State.reset.cfg State.reset.acq ∧ ChainInRange State.reset.cfg 524288 524288 State.reset.acq ∧
    x.toInt.natAbs ≤ 524288 :=
  ⟨rfl, refCfg_legal, by unfold RangeOk; decide, reset_acqInv,
    ⟨fun v hv => by rw [List.eq_of_mem_replicate hv]; decide, by decide, by decide,
      fun v hv => by rw [List.eq_of_mem_replicate hv]; decide,
      fun v hv => by rw [List.eq_of_mem_replicate hv]; decide⟩, by decide⟩

theorem witness_SamplesPushOnlyByteWordsAndEdgeWords :
    busy.acqUp = true ∧ InvExternal busy ∧ ∃ t, exec (.acqSample 0) busy = .next t :=
  ⟨rfl, busy_invExternal, exists_next (by decide)⟩

theorem witness_OverrunResetsThePipelineAndSaysSo :
    busy.acqUp = true ∧ busy.xc.full = true ∧ State.reset.acqUp = true ∧ State.reset.xc.full = false := by decide

theorem witness_IdleStepsChangeNothing : busy.acqUp = true ∧ busy.ctlUp = true := by decide

theorem witness_TickIsTheChainOfItsComponents : busy.ctlUp = true := rfl

theorem witness_TicksNeverFault : busy.ctlUp = true ∧ TxInv busy.cfg busy.tx := ⟨rfl, busy_txInv⟩

theorem witness_TxTickIsThePrologueThenTheArm : busy.ctlUp = true ∧ TxInv busy.cfg busy.tx := ⟨rfl, busy_txInv⟩

theorem witness_IdleTakesALegalRequest :
    let s := txS .idle false id
    let one : CtlIn := { at_ 0 with req := some [7] }
    let most : CtlIn := { at_ 0 with req := some (List.replicate 32 7) }
    let none_ : CtlIn := { at_ 0 with req := some [] }
    let many : CtlIn := { at_ 0 with req := some (List.replicate 33 7) }
    s.ctlUp = true ∧ s.tx.st = .idle ∧ s.tx.msg.length = s.cfg.msgMax.toNat ∧ s.tx.lineBusy = false ∧
    (one.req = some [7] ∧ 1 ≤ [7].length ∧ [7].length ≤ s.cfg.msgMax.toNat ∧ one.txHwIdle = true) ∧
    (∃ bs, most.req = some bs ∧ 1 ≤ bs.length ∧ bs.length ≤ s.cfg.msgMax.toNat) ∧
    (∀ bs, none_.req = some bs → bs.length = 0 ∨ s.cfg.msgMax.toNat < bs.length) ∧
    (∀ bs, many.req = some bs → bs.length = 0 ∨ s.cfg.msgMax.toNat < bs.length) ∧
    (txS .idle true id).tx.lineBusy = true := by
  refine ⟨rfl, rfl, rfl, rfl, by decide, ⟨_, rfl, by decide, by decide⟩, ?_, ?_, rfl⟩
  · rintro bs ⟨⟩; exact .inl rfl
  · rintro bs ⟨⟩; exact .inr (by decide)

theorem witness_IdleWaitLineFreeArm :
    let s := txS .idleWaitLineFree true id
    s.ctlUp = true ∧ s.tx.st = .idleWaitLineFree := by decide

theorem witness_WaitPowerOnArm :
    let s := txS .waitPowerOn false fun t => { t with len := 32 }
    s.ctlUp = true ∧ s.tx.st = .waitPowerOn ∧ s.tx.len.toNat ≤ s.tx.msg.length := by decide

theorem witness_StartedWaitForBusyArm :
    let s := txS .startedWaitForBusy false fun t => { t with len := 1 }
    s.ctlUp = true ∧ s.tx.st = .startedWaitForBusy ∧ s.tx.off.toNat < s.tx.len.toNat ∧
    s.tx.len.toNat ≤ s.tx.msg.length := by decide

theorem witness_RunningCheckDataArm :
    busy.ctlUp = true ∧ busy.tx.st = .runningCheckData ∧ busy.tx.off.toNat < busy.tx.len.toNat ∧
    busy.tx.len.toNat ≤ busy.tx.msg.length := by decide

theorem witness_RunningWaitForIdleArm :
    let s := txS .runningWaitForIdle true id
    s.ctlUp = true ∧ s.tx.st = .runningWaitForIdle := by decide

theorem witness_FirstErrorOfAnAttemptStays :
    let s := txS .runningWaitForIdle true fun t => { t with err := true, status := .collision }
    let s' := txS .idle false fun t => { t with err := true, status := .collision }
    s.tx.err = true ∧ (∃ t, exec (.ctlTick (at_ 5000)) s = .next t) ∧
    (after (.ctlTick (at_ 5000)) s).map (newActions s) = some [.drvEnable false, .done .collision] ∧
    (∃ t, exec (.ctlTick { at_ 0 with req := some [7] }) s' = .next t) ∧
    (after (.ctlTick { at_ 0 with req := some [7] }) s').map (newActions s') = some [.reqTaken] :=
  ⟨rfl, exists_next (by decide), by decide, exists_next (by decide), by decide⟩

theorem witness_EachAttemptEndsWithOneDone :
    (∀ i ∈ shortRun, External i ∧ i ≠ .ctlReset) ∧ ∃ t, runOps shortRun busy = .next t :=
  ⟨shortRun_external, exists_next (by decide)⟩

theorem witness_TransmitterIsDrivenOnlyWhereTheRulesSay :
    let tick := Instr.ctlTick (at_ 5000)
    let emitted (s : State) := (after tick s).map (newActions s)
    (∀ s ∈ [txS .waitPowerOn false id, txS .runningCheckData true id, txS .idleWaitLineFree false id,
        txS .runningWaitForIdle true fun t => { t with dl := 6000 }, txS .waitPowerOn true id],
      isNext (exec tick s) = true) ∧
    emitted (txS .waitPowerOn false id) = some [.txWrite 0x40, .txWrite 0, .txWrite 0x0F] ∧
    emitted (txS .runningCheckData true id) = some [.txFlush] ∧
    emitted (txS .idleWaitLineFree false id) = some [.drvEnable true] ∧
    emitted (txS .runningWaitForIdle true fun t => { t with dl := 6000 }) = some [.drvEnable false] ∧
    emitted (txS .waitPowerOn true id) = some [.drvEnable false, .done .noFraming] := by
  refine ⟨?_, ?_, ?_, ?_, ?_, ?_⟩ <;> decide

theorem witness_DeadlinesExpireAfterTheirBound : (0 : Nat) < 2 ^ 31 ∧ 2147483647 < 2 ^ 31 := by decide

theorem witness_InvariantsAreKeptByEveryStep :
    let s : State := { busy with stim := [[0x201, 100, 1]] }
    Inv s ∧ ∃ t, step s = .next t := ⟨busy_inv, exists_next (by decide)⟩

theorem witness_ExternalOperationsKeepTheInvariants :
    External (.acqSample 0) ∧ InvExternal busy ∧ ∃ t, exec (.acqSample 0) busy = .next t :=
  ⟨trivial, busy_invExternal, exists_next (by decide)⟩

theorem witness_ExternalOperationsNeverIndexOutside :
    External (.acqSample 2147483647) ∧ Inv busy ∧ busy.acqUp = true ∧ busy.ctlUp = true ∧
    faultOf (.acqSample 2147483647)
      { busy with acq := { busy.acq with firX := sw [0, 0, 0, 0, 0, 0, 2147483647] } } = some .overflow :=
  ⟨trivial, busy_inv, rfl, rfl, by decide⟩

theorem witness_AgentsWriteOnlyWhatTheyOwn :
    (∃ t, exec (.acqSample 0) busy = .next t) ∧ agentOf (.acqSample 0) = .acquisition ∧
    (∃ t, exec (.ctlTick (at_ 0)) busy = .next t) ∧ agentOf (.ctlTick (at_ 0)) = .control :=
  ⟨exists_next (by decide), rfl, exists_next (by decide), rfl⟩

theorem witness_AgentsReadOnlyWhatTheyOwn :
    agentOf .acqOverrun = .acquisition ∧ agentOf .ctlReset = .control := by decide

end Sys2Proof.Tests
end

