-- ==== Sys2Proof/Proofs/Time.lean ====
section
/-! PROOFS. Time (R13): `expired` compares elapsed times only, so where `now` stands, and whether it
wraps, does not matter. -/
namespace Sys2Proof.Machine

/-- Both times moved by the same `now`: the subtraction modulo `2^32` cancels it. -/
theorem expired_add_left (now e b : U32) : expired (now + e) (now + b) = expired e b := by
  have cancel : now + e - (now + b) = e - b := add_sub_add_left_eq_sub e b now
  simp only [expired, cancel]

/-- Below `2^31` the half-range test of R13 is the order of the numbers. -/
theorem expired_eq_decide_le {e b : U32} (he : e.toNat < 2 ^ 31) (hb : b.toNat < 2 ^ 31) :
    expired e b = decide (b.toNat ≤ e.toNat) := by
  unfold expired
  rw [decide_eq_decide]
  rcases Nat.lt_or_ge e.toNat b.toNat with early | late
  · have wrapped : (e - b).toNat = 2 ^ 32 - (b.toNat - e.toNat) := by bv_omega
    omega
  · have elapsed : (e - b).toNat = e.toNat - b.toNat := BitVec.toNat_sub_of_le late
    omega

/-- Settles O55: `now` cancels, and the elapsed time `d` and the bound `T` are both below `2^31`. -/
theorem deadlinesExpireAfterTheirBound : Obligations.DeadlinesExpireAfterTheirBound := by
  unfold Obligations.DeadlinesExpireAfterTheirBound
  intro now T d hd
  have hdNat : (BitVec.ofNat 32 d).toNat = d := Nat.mod_eq_of_lt (by omega)
  have hTNat : (T.setWidth 32).toNat = T.toNat := BitVec.toNat_setWidth_of_le (by decide)
  calc expired (now + BitVec.ofNat 32 d) (deadline now T)
      = expired (BitVec.ofNat 32 d) (T.setWidth 32) := expired_add_left now _ _
    _ = decide ((T.setWidth 32).toNat ≤ (BitVec.ofNat 32 d).toNat) :=
        expired_eq_decide_le (hdNat.symm ▸ hd) (hTNat.symm ▸ T.isLt)
    _ = decide (T.toNat ≤ d) := by rw [hdNat, hTNat]

end Sys2Proof.Machine
end

section
/-! PROOFS. The invariants of the two agents (R24, R27, R61, R181, R203, R242): the reset values meet
them, and every operation keeps them. An operation is its computation followed by one update of the
state, so each case below is the component's own law and the fact that the update does not touch the
other agent's side. -/
namespace Sys2Proof.Machine

/-! ### The invariant under the updates of the whole state -/

/-- The invariants do not speak of the lines to come. -/
theorem inv_stim (s : State) (l : List (List U32)) : Inv { s with stim := l } ↔ Inv s := Iff.rfl

/-- New acquisition registers leave the control agent's side of the invariant as it is (R70). -/
theorem Inv.withAcq {s : State} {a : Acq} (h : Inv s) (up : s.acqUp = true) (ha : AcqInv s.cfg a) :
    Inv (s.withAcq a) := ⟨fun _ => ⟨(h.1 up).1, ha⟩, h.2⟩

/-- New control registers leave the acquisition agent's side of the invariant as it is (R70). -/
theorem Inv.withTx {s : State} {t : Tx} (h : Inv s) (up : s.ctlUp = true) (ht : TxInv s.cfg t) :
    Inv (s.withTx t) := ⟨h.1, fun _ => ⟨(h.2 up).1, ht⟩⟩

/-! ### The reset values (R50) -/

theorem acqResetVals_acqInv (c : Config) : AcqInv c (acqResetVals c) := by
  simp [AcqInv, acqResetVals]

theorem acqResetVals_acqSync (c : Config) : AcqSync (acqResetVals c) := by
  simp [AcqSync, acqResetVals, receiving]

theorem txResetVals_txInv (c : Config) : TxInv c (txResetVals c) := by
  simp [TxInv, txResetVals]

/-- The reset state of a legal configuration meets every invariant. -/
theorem resetOf_invExternal {c : Config} (h : CfgLegal c) : InvExternal (State.resetOf c) :=
  ⟨⟨fun _ => ⟨h, acqResetVals_acqInv c⟩, fun _ => ⟨h, txResetVals_txInv c⟩⟩,
    fun _ => acqResetVals_acqSync c⟩

theorem cfgLegal_refCfg : CfgLegal refCfg := by decide

/-! ### The two resets (R320, R321) -/

theorem exec_acqReset_of_legal {s : State} (h : CfgLegal s.cfg) :
    exec .acqReset s = .next { s.withAcq (acqResetVals s.cfg) with acqUp := true } :=
  if_pos (cfgOk_of_legal h)

theorem exec_ctlReset_of_legal {s : State} (h : CfgLegal s.cfg) :
    exec .ctlReset s = .next
      { ((s.withXc chanResetVals).withTx (txResetVals s.cfg)).emit [.drvEnable false] with
        ctlUp := true } :=
  if_pos (cfgOk_of_legal h)

theorem exec_acqReset_next {s t : State} (h : exec .acqReset s = .next t) :
    CfgLegal s.cfg ∧ t = { s.withAcq (acqResetVals s.cfg) with acqUp := true } := by
  by_cases legal : CfgLegal s.cfg
  · rw [exec_acqReset_of_legal legal] at h
    cases h
    exact ⟨legal, rfl⟩
  · have refused : exec .acqReset s = .fault .config := if_neg (by simp [cfgOk_of_not_legal legal])
    rw [refused] at h
    cases h

theorem exec_ctlReset_next {s t : State} (h : exec .ctlReset s = .next t) :
    CfgLegal s.cfg ∧ t =
      { ((s.withXc chanResetVals).withTx (txResetVals s.cfg)).emit [.drvEnable false] with
        ctlUp := true } := by
  by_cases legal : CfgLegal s.cfg
  · rw [exec_ctlReset_of_legal legal] at h
    cases h
    exact ⟨legal, rfl⟩
  · have refused : exec .ctlReset s = .fault .config := if_neg (by simp [cfgOk_of_not_legal legal])
    rw [refused] at h
    cases h

/-- Settles O10: either reset passes the check of R322 on the configuration, which none of them
writes, and the values of R50 meet the invariants. -/
theorem startUpReachesTheResetState : Obligations.StartUpReachesTheResetState := by
  refine ⟨fun s legal => ⟨?_, resetOf_invExternal legal⟩, resetOf_invExternal cfgLegal_refCfg⟩
  simp only [runOps, exec_ctlReset_of_legal legal]
  rw [exec_acqReset_of_legal (s := { ((s.withXc chanResetVals).withTx (txResetVals s.cfg)).emit
    [.drvEnable false] with ctlUp := true }) legal]
  rfl

/-! ### Each operation as its computation and its update of the state -/

theorem exec_srPush (w : Win) (v : Int) (s : State) : exec (.srPush w v) s =
    acqOp s ((srPush (winGet w s.acq) v).map fun S => s.withAcq (winSet w S s.acq)) := by
  simp only [exec, execSrPush]
  cases srPush (winGet w s.acq) v <;> rfl

theorem exec_srAt (r : SReg) (k : Int) (s : State) : exec (.srAt r k) s =
    acqOp s ((srAt (sregGet s.cfg r s.acq) k).map fun v => s.withRet (.sample v)) := by
  simp only [exec, execSrAt]
  cases srAt (sregGet s.cfg r s.acq) k <;> rfl

theorem exec_srConv (a b : SReg) (s : State) : exec (.srConv a b) s =
    acqOp s ((srConv (sregGet s.cfg a s.acq) (sregGet s.cfg b s.acq)).map fun v =>
      s.withRet (.sample v)) := by
  simp only [exec, execSrConv]
  cases srConv (sregGet s.cfg a s.acq) (sregGet s.cfg b s.acq) <;> rfl

theorem exec_firUpdate (x : SW) (s : State) : exec (.firUpdate x) s =
    acqOp s ((firUpdate s.cfg s.acq x).map fun p => (s.withAcq p.1).withRet (.sample p.2)) := by
  simp only [exec, execFirUpdate]
  cases firUpdate s.cfg s.acq x <;> rfl

theorem exec_rsUpdate (x : SW) (s : State) : exec (.rsUpdate x) s =
    acqOp s ((rsUpdate s.cfg s.acq x).map fun p => (s.withAcq p.1).withRet (.optSample p.2)) := by
  simp only [exec, execRsUpdate]
  cases rsUpdate s.cfg s.acq x <;> rfl

theorem exec_dcUpdate (x : SW) (s : State) : exec (.dcUpdate x) s =
    acqOp s ((dcUpdate s.cfg s.acq x).map fun p => (s.withAcq p.1).withRet (.sample p.2)) := by
  simp only [exec, execDcUpdate]
  cases dcUpdate s.cfg s.acq x <;> rfl

theorem exec_lvUpdate (x : SW) (s : State) : exec (.lvUpdate x) s =
    acqOp s ((lvUpdate s.cfg s.acq x).map fun p => (s.withAcq p.1).withRet (.sample p.2)) := by
  simp only [exec, execLvUpdate]
  cases lvUpdate s.cfg s.acq x <;> rfl

theorem exec_bdUpdate (x : SW) (s : State) : exec (.bdUpdate x) s =
    acqOp s ((bdUpdate s.cfg s.acq x).map fun p => (s.withAcq p.1).withRet (.sample p.2)) := by
  simp only [exec, execBdUpdate]
  cases bdUpdate s.cfg s.acq x <;> rfl

theorem exec_lbUpdate (rcv : Bool) (s : State) : exec (.lbUpdate rcv) s =
    acqOp s ((lbUpdate s.cfg s.acq rcv).map fun p =>
      (s.withAcq p.1).withRet (.edges p.2.busy p.2.free)) := by
  simp only [exec, execLbUpdate]
  cases lbUpdate s.cfg s.acq rcv <;> rfl

theorem udNext_eq (s : State) (r : Except Fault (Acq × Option ByteEvent)) : udNext s r =
    r.map fun p => (s.withAcq p.1).withRet (.optByteEvent p.2) := by
  cases r <;> rfl

theorem exec_udPhaseSearch (s : State) : exec .udPhaseSearch s =
    acqOp s ((phaseSearch s.cfg s.acq).map fun e => s.withRet (.byteEvent e)) := by
  simp only [exec, execUdPhaseSearch]
  cases phaseSearch s.cfg s.acq <;> rfl

theorem exec_acqSample (x : SW) (s : State) : exec (.acqSample x) s =
    acqOp s ((acqChain s.cfg s.acq x).map fun p =>
      (s.withAcq p.1).withXc (if p.2 = 0 then s.xc else chanPush s.xc p.2)) := by
  simp only [exec, execAcqSample]
  cases acqChain s.cfg s.acq x <;> rfl

theorem txNext_eq (s : State) (r : TxResult) : txNext s r =
    r.map fun p => (s.withTx p.1).emit p.2 := by
  cases r <;> rfl

/-- CTL.TICK (R231): the channel emptied and its flag taken, the arbiter's registers, the reports
before the arbiter's actions. -/
theorem exec_ctlTick (i : CtlIn) (s : State) : exec (.ctlTick i) s =
    ctlOp s ((txTick s.cfg i ((chanPop s.xc).2.getD 0) s.tx).map fun p =>
      ((s.withXc (chanTakeOvf (chanPop s.xc).1).1).withTx p.1).emit
        (tickReports s.xc.ovf (chanPop s.xc).2 ++ p.2)) := by
  simp only [exec, execCtlTick, chanTakeOvf_snd, chanPop_ovf]
  cases txTick s.cfg i ((chanPop s.xc).2.getD 0) s.tx <;> rfl

/-- A computation followed by an update answers exactly where the computation does. -/
theorem map_ok_iff {α : Type} {r : Except Fault α} {k : α → State} {t : State} :
    r.map k = .ok t ↔ ∃ v, r = .ok v ∧ t = k v := by
  cases r <;> simp [Except.map, eq_comm]

/-- An arm of UD.UPDATE is, where it answers, an operation of the agent in the arm's state. -/
theorem acqOp_of_udArm {s t : State} {st : UdState} {r : Except Fault State}
    (h : udArm s st r = .next t) : s.acq.udSt = st ∧ acqOp s r = .next t := by
  obtain ⟨up, selected, ok⟩ := udArm_next_iff.1 h
  exact ⟨selected, acqOp_next_iff.2 ⟨up, ok⟩⟩

/-- An arm of TX.TICK is, where it answers, an operation of the agent in the arm's state. -/
theorem ctlOp_of_txArm {s t : State} {st : TxState} {r : Except Fault State}
    (h : txArm s st r = .next t) : s.tx.st = st ∧ ctlOp s r = .next t := by
  obtain ⟨up, selected, ok⟩ := txArm_next_iff.1 h
  exact ⟨selected, ctlOp_next_iff.2 ⟨up, ok⟩⟩

/-! ### Every operation keeps the invariants -/

/-- An acquisition operation keeps the invariant if its update does, on registers that meet it. -/
theorem Inv.acqOp_map {α : Type} {s t : State} {r : Except Fault α} {k : α → State} (h : Inv s)
    (hn : acqOp s (r.map k) = .next t)
    (keeps : ∀ v, r = .ok v → s.acqUp = true → LegalBounds s.cfg → AcqInv s.cfg s.acq → Inv (k v)) :
    Inv t := by
  obtain ⟨up, hr⟩ := acqOp_next_iff.1 hn
  obtain ⟨v, hv, rfl⟩ := map_ok_iff.1 hr
  obtain ⟨legal, ha⟩ := h.1 up
  exact keeps v hv up legal.bounds ha

/-- An arbiter operation keeps the invariant if it keeps R242. -/
theorem Inv.txNext {s t : State} {r : TxResult} (h : Inv s)
    (hn : ctlOp s (Machine.txNext s r) = .next t)
    (answers : TxInv s.cfg s.tx → ∃ p, r = .ok p ∧ TxInv s.cfg p.1) : Inv t := by
  obtain ⟨up, hr⟩ := ctlOp_next_iff.1 hn
  obtain ⟨p, rfl, hp⟩ := answers (h.2 up).2
  cases hr
  exact h.withTx up hp

/-- A push on any window keeps every window's length (R61, R121). -/
theorem AcqInv.winSet {c : Config} {a : Acq} {S : List SW} (w : Win) (h : AcqInv c a)
    (hS : S.length = (winGet w a).length) : AcqInv c (Machine.winSet w S a) := by
  obtain ⟨hx, hraw, hab, hph, rest⟩ := h
  cases w
  case firX => exact ⟨hS.trans hx, hraw, hab, hph, rest⟩
  case bdRaw => exact ⟨hx, hS.trans hraw, hab, hph, rest⟩
  case bdAb => exact ⟨hx, hraw, hS.trans hab, hph, rest⟩
  case udPh => exact ⟨hx, hraw, hab, hS.trans hph, rest⟩

/-- Without a provisional collision R242 asks no less. -/
theorem TxInv.clear_coll {c : Config} {t : Tx} (h : TxInv c t) : TxInv c { t with coll := false } := by
  obtain ⟨hmsg, hlen, hoff, hidle, hzero, hlt, hon, hdark, -, herr⟩ := h
  exact ⟨hmsg, hlen, hoff, hidle, hzero, hlt, hon, hdark, by simp, herr⟩

/-- CTL.TICK keeps the invariant. -/
theorem Inv.ctlTick {i : CtlIn} {s t : State} (h : Inv s) (hn : exec (.ctlTick i) s = .next t) :
    Inv t := by
  rw [exec_ctlTick] at hn
  obtain ⟨up, hr⟩ := ctlOp_next_iff.1 hn
  obtain ⟨p, hp, rfl⟩ := map_ok_iff.1 hr
  obtain ⟨q, hq, keeps⟩ := txTick_answers i ((chanPop s.xc).2.getD 0) (h.2 up).2
  obtain rfl : q = p := Except.ok.inj (hq.symm.trans hp)
  exact h.withTx up keeps

/-- Every operation keeps the invariants of both agents. -/
theorem exec_keeps_inv {i : Instr} {s t : State} (h : Inv s) (hn : exec i s = .next t) : Inv t := by
  cases i with
  | acqReset =>
    obtain ⟨legal, rfl⟩ := exec_acqReset_next hn
    exact ⟨fun _ => ⟨legal, acqResetVals_acqInv _⟩, h.2⟩
  | ctlReset =>
    obtain ⟨legal, rfl⟩ := exec_ctlReset_next hn
    exact ⟨h.1, fun _ => ⟨legal, txResetVals_txInv _⟩⟩
  | acqOverrun =>
    obtain ⟨up, hr⟩ := acqOp_next_iff.1 hn
    cases hr
    exact h.withAcq up (acqResetVals_acqInv _)
  | acqSample x =>
    rw [exec_acqSample] at hn
    exact h.acqOp_map hn fun _ hv up hc ha => h.withAcq up (ha.acqChain hc hv)
  | acqNop | xcPush | udReceiving =>
    obtain ⟨-, hr⟩ := acqOp_next_iff.1 hn
    cases hr
    exact h
  | ctlNop | xcPop | xcTakeOvf =>
    obtain ⟨-, hr⟩ := ctlOp_next_iff.1 hn
    cases hr
    exact h
  | srPush w v =>
    rw [exec_srPush] at hn
    exact h.acqOp_map hn fun _ hv up _ ha => h.withAcq up (ha.winSet w (srPush_length hv))
  | srAt r k =>
    rw [exec_srAt] at hn
    exact h.acqOp_map hn fun _ _ _ _ _ => h
  | srConv a b =>
    rw [exec_srConv] at hn
    exact h.acqOp_map hn fun _ _ _ _ _ => h
  | udPhaseSearch =>
    rw [exec_udPhaseSearch] at hn
    exact h.acqOp_map hn fun _ _ _ _ _ => h
  | firUpdate x =>
    rw [exec_firUpdate] at hn
    exact h.acqOp_map hn fun _ hv up _ ha => h.withAcq up (ha.firUpdate hv)
  | rsUpdate x =>
    rw [exec_rsUpdate] at hn
    exact h.acqOp_map hn fun _ hv up _ ha => h.withAcq up (ha.rsUpdate hv)
  | dcUpdate x =>
    rw [exec_dcUpdate] at hn
    exact h.acqOp_map hn fun _ hv up _ ha => h.withAcq up (ha.dcUpdate hv)
  | lvUpdate x =>
    rw [exec_lvUpdate] at hn
    exact h.acqOp_map hn fun _ hv up _ ha => h.withAcq up (ha.lvUpdate hv)
  | bdUpdate x =>
    rw [exec_bdUpdate] at hn
    exact h.acqOp_map hn fun _ hv up _ ha => h.withAcq up (ha.bdUpdate hv)
  | lbUpdate rcv =>
    rw [exec_lbUpdate] at hn
    exact h.acqOp_map hn fun _ hv up hc ha => h.withAcq up (ha.lbUpdate hc hv)
  | udUpdate p =>
    rw [exec, execUdUpdate, udNext_eq] at hn
    exact h.acqOp_map hn fun _ hv up hc ha => h.withAcq up (ha.udUpdate hc hv)
  | udWaitIdle p =>
    obtain ⟨st, hn⟩ := acqOp_of_udArm hn
    rw [udNext_eq] at hn
    exact h.acqOp_map hn fun _ hv up _ ha => h.withAcq up (ha.udWaitIdleArm st hv)
  | udWaitStart p =>
    obtain ⟨st, hn⟩ := acqOp_of_udArm hn
    rw [udNext_eq] at hn
    exact h.acqOp_map hn fun _ hv up hc ha => h.withAcq up (ha.udWaitStartArm hc st hv)
  | udData p =>
    obtain ⟨st, hn⟩ := acqOp_of_udArm hn
    rw [udNext_eq] at hn
    exact h.acqOp_map hn fun _ hv up hc ha => h.withAcq up (ha.udDataArm hc st hv)
  | udStop p =>
    obtain ⟨st, hn⟩ := acqOp_of_udArm hn
    rw [udNext_eq] at hn
    exact h.acqOp_map hn fun _ hv up _ ha => h.withAcq up (ha.udStopArm st hv)
  | ctlTick i => exact h.ctlTick hn
  | txTick i ev => exact h.txNext hn (txTick_answers i ev)
  | txIdle i ev =>
    obtain ⟨st, hn⟩ := ctlOp_of_txArm hn
    exact h.txNext hn fun ht => txIdleArm_answers i ht st
  | txIdleWaitLineFree i ev =>
    obtain ⟨st, hn⟩ := ctlOp_of_txArm hn
    exact h.txNext hn fun ht => txIdleWaitLineFreeArm_answers i ev ht st
  | txWaitPowerOn i ev =>
    obtain ⟨st, hn⟩ := ctlOp_of_txArm hn
    exact h.txNext hn fun ht => txWaitPowerOnArm_answers i ev ht st
  | txStartedWaitForBusy i ev =>
    obtain ⟨st, hn⟩ := ctlOp_of_txArm hn
    exact h.txNext hn fun ht => txStartedWaitForBusyArm_answers i ev ht st
  | txRunningCheckData i ev =>
    obtain ⟨st, hn⟩ := ctlOp_of_txArm hn
    exact h.txNext hn fun ht => txRunningCheckDataArm_answers i ev ht.clear_coll st
  | txRunningWaitForIdle i ev =>
    obtain ⟨st, hn⟩ := ctlOp_of_txArm hn
    exact h.txNext hn fun ht => txRunningWaitForIdleArm_answers i ht st

/-- Once and for all: a step that answers presents nothing, or runs the operation of its first line
on the state without that line. -/
theorem step_next {s t : State} (h : step s = .next t) :
    t = s ∨ ∃ l rest i, s.stim = l :: rest ∧ decode l = .ok i ∧
      exec i { s with stim := rest } = .next t := by
  cases hs : s.stim with
  | nil =>
    simp only [step, fetch, hs] at h
    cases h
    exact .inl rfl
  | cons l rest =>
    cases hd : decode l with
    | error e => simp [step, fetch, hs, hd] at h
    | ok i =>
      simp only [step, fetch, hs, hd] at h
      exact .inr ⟨l, rest, i, rfl, hd, h⟩

/-- Settles O56: a step is one operation or none. -/
theorem invariantsAreKeptByEveryStep : Obligations.InvariantsAreKeptByEveryStep := by
  intro s t h hn
  obtain rfl | ⟨l, rest, i, -, -, hx⟩ := step_next hn
  · exact h
  · exact exec_keeps_inv ((inv_stim s rest).2 h) hx

/-! ### What the external operations keep besides (R27, R203) -/

/-- `BD.ab` holds the magnitudes of `BD.raw` (R27). -/
def Magnitudes (a : Acq) : Prop :=
  a.bdAb.map BitVec.toInt = a.bdRaw.map fun v => (v.toInt.natAbs : Int)

theorem acqSync_iff (a : Acq) : AcqSync a ↔ Magnitudes a ∧ a.lbPrev = receiving a := Iff.rfl

/-- BD.UPDATE drops the two oldest entries and appends a sample and its magnitude (R162). -/
theorem Magnitudes.bdUpdate {c : Config} {a a' : Acq} {x p : SW} (h : Magnitudes a)
    (hu : Machine.bdUpdate c a x = .ok (a', p)) : Magnitudes a' := by
  obtain ⟨inS, -, -, rfl⟩ := bdUpdate_ok hu
  unfold Magnitudes at h ⊢
  simp only [List.map_append, List.map_tail, h, List.map_cons, List.map_nil, toInt_ofInt_of_inSW inS]

/-- A processed sample keeps the magnitudes, and LB.UPDATE, the last step, stores `receiving` in
`LB.prev` (R202, R210). -/
theorem Magnitudes.processSample {c : Config} {a a' : Acq} {r : SW} {w : U32} (h : Magnitudes a)
    (hp : Machine.processSample c a r = .ok (a', w)) : AcqSync a' := by
  obtain ⟨a2, y2, a3, y3, a4, p, a5, ev, ed, hdc, hlv, hbd, hud, hlb, -⟩ := processSample_ok hp
  have m3 : Magnitudes a3 := by
    rw [lvUpdate_ok hlv]
    obtain ⟨-, rfl, -⟩ := dcUpdate_ok hdc
    exact h
  have m5 : Magnitudes a5 := by
    have m4 := m3.bdUpdate hbd
    rw [udUpdate_frame hud]
    exact m4
  rw [lbUpdate_frame hlb]
  exact (acqSync_iff _).2 ⟨m5, rfl⟩

/-- The chain keeps both facts; a sample the Resampler drops touches neither the bit detector nor the
decoder. -/
theorem AcqSync.acqChain {c : Config} {a a' : Acq} {x : SW} {w : U32} (h : AcqSync a)
    (hp : Machine.acqChain c a x = .ok (a', w)) : AcqSync a' := by
  obtain ⟨a1, y1, a2, r, hfir, hrs, hr⟩ := acqChain_ok hp
  have h2 : AcqSync a2 := by
    rw [rsUpdate_frame hrs]
    obtain ⟨-, rfl⟩ := firUpdate_ok hfir
    exact h
  obtain ⟨-, rfl, -⟩ | ⟨v, -, hv⟩ := hr
  · exact h2
  · exact ((acqSync_iff a2).1 h2).1.processSample hv

/-- Every external operation keeps `AcqSync`. -/
theorem external_keeps_acqSync {i : Instr} {s t : State} (hi : External i)
    (h : s.acqUp = true → AcqSync s.acq) (hn : exec i s = .next t) :
    t.acqUp = true → AcqSync t.acq := by
  cases i <;> cases hi
  case acqReset =>
    obtain ⟨-, rfl⟩ := exec_acqReset_next hn
    exact fun _ => acqResetVals_acqSync _
  case acqOverrun =>
    obtain ⟨-, hr⟩ := acqOp_next_iff.1 hn
    cases hr
    exact fun _ => acqResetVals_acqSync _
  case acqSample x =>
    rw [exec_acqSample] at hn
    obtain ⟨up, hr⟩ := acqOp_next_iff.1 hn
    obtain ⟨p, hp, rfl⟩ := map_ok_iff.1 hr
    exact fun _ => (h up).acqChain hp
  case acqNop =>
    obtain ⟨-, hr⟩ := acqOp_next_iff.1 hn
    cases hr
    exact h
  case ctlReset =>
    obtain ⟨-, rfl⟩ := exec_ctlReset_next hn
    exact h
  case ctlTick i =>
    rw [exec_ctlTick] at hn
    obtain ⟨-, hr⟩ := ctlOp_next_iff.1 hn
    obtain ⟨p, -, rfl⟩ := map_ok_iff.1 hr
    exact h
  case ctlNop =>
    obtain ⟨-, hr⟩ := ctlOp_next_iff.1 hn
    cases hr
    exact h

/-- Settles O57: the invariants of both agents are kept by every operation, `AcqSync` by the external
ones. -/
theorem externalOperationsKeepTheInvariants : Obligations.ExternalOperationsKeepTheInvariants :=
  fun _ _ _ hi h hn => ⟨exec_keeps_inv h.1 hn, external_keeps_acqSync hi h.2 hn⟩

end Sys2Proof.Machine
end

section
/-! PROOFS. The transmitter (R46, R233 to R239, R242): what one tick of the arbiter does to `TX.st`
and `TX.drv` is told by the actions it emits, one kind of tick per list of actions. -/
namespace Sys2Proof.Machine

/-! ### The kinds of tick -/

/-- What a tick from `t` to `t'` that emits these actions is: `quiet`, an accepted request (R234),
power on (R235), the message handed over (R236), an abort (R237, R238), power down (R239), the end of
the attempt (R233). -/
inductive TickEffect (t t' : Tx) : List Action → Prop
  | quiet (drv : t'.drv = t.drv) : TickEffect t t' []
  | taken (drv : t'.drv = t.drv) : TickEffect t t' [.reqTaken]
  | powerOn (start : t.st = .idleWaitLineFree) (finish : t'.st = .waitPowerOn) (drv : t'.drv = true) :
      TickEffect t t' [.drvEnable true]
  | write (start : t.st = .waitPowerOn) (finish : t'.st = .startedWaitForBusy) (drv : t'.drv = t.drv) :
      TickEffect t t' ((t.msg.take t.len.toNat).map .txWrite)
  | flush (start : t.st = .startedWaitForBusy ∨ t.st = .runningCheckData)
      (finish : t'.st = .runningWaitForIdle) (drv : t'.drv = t.drv) : TickEffect t t' [.txFlush]
  | powerDown (start : t.st = .runningWaitForIdle) (drv : t'.drv = false) :
      TickEffect t t' [.drvEnable false]
  | ended (status : Status) (finish : t'.st = .idle) (drv : t'.drv = false) :
      TickEffect t t' ((if t.drv then [.drvEnable false] else []) ++ [.done status])

theorem TickEffect.signalIdle (code : Status) (t : Tx) :
    TickEffect t (Machine.signalIdle code t).1 (Machine.signalIdle code t).2 := by
  rw [signalIdle_eq]
  exact .ended _ rfl rfl

/-! ### Each arm is one of them -/

theorem txIdleArm_effect {c : Config} {i : CtlIn} {t : Tx} {r : Tx × List Action}
    (h : txIdleArm c i t = .ok r) : TickEffect t r.1 r.2 := by
  obtain rfl | ⟨bs, msg, len, -, -, rfl⟩ := txIdleArm_cases h
  · exact .quiet rfl
  · exact .taken rfl

theorem txIdleWaitLineFreeArm_effect {c : Config} {i : CtlIn} {ev : U32} {t : Tx}
    {r : Tx × List Action} (hs : t.st = .idleWaitLineFree)
    (h : txIdleWaitLineFreeArm c i ev t = .ok r) : TickEffect t r.1 r.2 := by
  obtain ⟨code, -, rfl⟩ | rfl | rfl := txIdleWaitLineFreeArm_cases h
  · exact .signalIdle code t
  · exact .powerOn hs rfl rfl
  · exact .quiet rfl

theorem txWaitPowerOnArm_effect {c : Config} {i : CtlIn} {ev : U32} {t : Tx} {r : Tx × List Action}
    (hs : t.st = .waitPowerOn) (h : txWaitPowerOnArm c i ev t = .ok r) : TickEffect t r.1 r.2 := by
  obtain ⟨code, -, rfl⟩ | rfl | rfl := txWaitPowerOnArm_cases h
  · exact .signalIdle code t
  · exact .write hs rfl rfl
  · exact .quiet rfl

/-- The RunningCheckData arm ends quietly or in an abort, also where a tick that started in
StartedWaitForBusy falls through into it (R237); `t₀` is the start of the tick. -/
theorem txRunningCheckDataArm_effect {c : Config} {i : CtlIn} {ev : U32} {t₀ t : Tx}
    {r : Tx × List Action} (start : t₀.st = .startedWaitForBusy ∨ t₀.st = .runningCheckData)
    (drv : t.drv = t₀.drv) (h : txRunningCheckDataArm c i ev t = .ok r) :
    TickEffect t₀ r.1 r.2 := by
  obtain ⟨code, -, rfl⟩ | ⟨-, off, rfl⟩ | ⟨-, off, rfl⟩ | ⟨-, rfl⟩ := txRunningCheckDataArm_cases h
  · rw [abortTx_eq]
    exact .flush start rfl drv
  · exact .quiet drv
  · exact .quiet drv
  · exact .quiet drv

theorem txStartedWaitForBusyArm_effect {c : Config} {i : CtlIn} {ev : U32} {t : Tx}
    {r : Tx × List Action} (hs : t.st = .startedWaitForBusy)
    (h : txStartedWaitForBusyArm c i ev t = .ok r) : TickEffect t r.1 r.2 := by
  obtain ⟨code, -, rfl⟩ | ⟨-, through⟩ | ⟨-, rfl⟩ | rfl := txStartedWaitForBusyArm_cases h
  · rw [abortTx_eq]
    exact .flush (.inl hs) rfl rfl
  · exact txRunningCheckDataArm_effect (t := enteredCheck c i ev t) (.inl hs) rfl through
  · exact .quiet rfl
  · exact .quiet rfl

/-- The power-down test and the end of the attempt together emit `DrvEnable(0)` at most once
(assumption log 15). -/
theorem powerDown_then_end (i : CtlIn) (t : Tx) (status : Status) :
    (powerDown i t).2 ++
      ((if (powerDown i t).1.drv then [.drvEnable false] else []) ++ [.done status]) =
    (if t.drv then [.drvEnable false] else []) ++ [.done status] := by
  rw [powerDown_eq]
  cases i.txHwIdle <;> cases t.drv <;> rfl

theorem txRunningWaitForIdleArm_effect {i : CtlIn} {t : Tx} {r : Tx × List Action}
    (hs : t.st = .runningWaitForIdle) (h : txRunningWaitForIdleArm i t = .ok r) :
    TickEffect t r.1 r.2 := by
  obtain rfl | ⟨code, -, rfl⟩ | rfl := txRunningWaitForIdleArm_cases h
  · rw [toIdle_eq, powerDown_then_end]
    exact .ended _ rfl rfl
  · rw [signalIdle_eq, powerDown_then_end]
    exact .ended _ rfl rfl
  · rw [powerDown_eq]
    cases off : i.txHwIdle && t.drv with
    | true => exact .powerDown hs (by simp_all)
    | false => exact .quiet (by cases hd : t.drv <;> simp_all)

/-- The prologue writes the line-busy mirror only, which no kind of tick looks at. -/
theorem TickEffect.of_prologue {ev : U32} {t t' : Tx} {acts : List Action}
    (h : TickEffect (prologue ev t) t' acts) : TickEffect t t' acts := by
  cases h with
  | quiet drv => exact .quiet drv
  | taken drv => exact .taken drv
  | powerOn start finish drv => exact .powerOn start finish drv
  | write start finish drv => exact .write start finish drv
  | flush start finish drv => exact .flush start finish drv
  | powerDown start drv => exact .powerDown start drv
  | ended status finish drv => exact .ended status finish drv

/-- Every tick that answers is of one of the kinds. -/
theorem txTick_effect {c : Config} {i : CtlIn} {ev : U32} {t : Tx} {r : Tx × List Action}
    (h : txTick c i ev t = .ok r) : TickEffect t r.1 r.2 := by
  apply TickEffect.of_prologue (ev := ev)
  cases hs : t.st with
  | idle => exact txIdleArm_effect (by simpa only [txTick_eq, hs] using h)
  | idleWaitLineFree => exact txIdleWaitLineFreeArm_effect hs (by simpa only [txTick_eq, hs] using h)
  | waitPowerOn => exact txWaitPowerOnArm_effect hs (by simpa only [txTick_eq, hs] using h)
  | startedWaitForBusy =>
    exact txStartedWaitForBusyArm_effect hs (by simpa only [txTick_eq, hs] using h)
  | runningCheckData =>
    exact txRunningCheckDataArm_effect (.inr hs) rfl (by simpa only [txTick_eq, hs] using h)
  | runningWaitForIdle =>
    exact txRunningWaitForIdleArm_effect hs (by simpa only [txTick_eq, hs] using h)

/-! ### What the actions tell -/

/-- Only handing over the message writes bytes (R236). -/
theorem TickEffect.of_txWrite {t t' : Tx} {acts : List Action} {b : Byte} (h : TickEffect t t' acts)
    (hb : .txWrite b ∈ acts) : t.st = .waitPowerOn ∧ t'.st = .startedWaitForBusy ∧
      acts = (t.msg.take t.len.toNat).map .txWrite := by
  cases h with
  | write start finish => exact ⟨start, finish, rfl⟩
  | _ => simp at hb

/-- Only an abort flushes the queue (R233). -/
theorem TickEffect.of_txFlush {t t' : Tx} {acts : List Action} (h : TickEffect t t' acts)
    (hf : .txFlush ∈ acts) :
    (t.st = .startedWaitForBusy ∨ t.st = .runningCheckData) ∧ t'.st = .runningWaitForIdle := by
  cases h with
  | flush start finish => exact ⟨start, finish⟩
  | _ => simp [-List.map_take] at hf

theorem TickEffect.of_drvEnable_true {t t' : Tx} {acts : List Action} (h : TickEffect t t' acts)
    (hd : .drvEnable true ∈ acts) : t.st = .idleWaitLineFree ∧ t'.st = .waitPowerOn := by
  cases h with
  | powerOn start finish => exact ⟨start, finish⟩
  | _ => simp [-List.map_take] at hd

theorem TickEffect.of_drvEnable_false {t t' : Tx} {acts : List Action} (h : TickEffect t t' acts)
    (hd : .drvEnable false ∈ acts) : t.st = .runningWaitForIdle ∨ t'.st = .idle := by
  cases h with
  | powerDown start => exact .inl start
  | ended status finish => exact .inr finish
  | _ => simp [-List.map_take] at hd

theorem writtenBytes_map_txWrite (bs : List Byte) : writtenBytes (bs.map .txWrite) = bs := by
  simp [writtenBytes, List.filterMap_map]

theorem driverCommands_map_txWrite (bs : List Byte) : driverCommands (bs.map .txWrite) = [] := by
  simp [driverCommands, List.filterMap_map]

/-- `TX.drv` follows the driver commands (R46). -/
theorem TickEffect.drv_eq {t t' : Tx} {acts : List Action} (h : TickEffect t t' acts) :
    t'.drv = (driverCommands acts).getLast?.getD t.drv := by
  cases h with
  | quiet drv => exact drv
  | taken drv => exact drv
  | powerOn _ _ drv => exact drv
  | write _ _ drv => rw [driverCommands_map_txWrite]; exact drv
  | flush _ _ drv => exact drv
  | powerDown _ drv => exact drv
  | ended status _ drv => cases hd : t.drv <;> simpa [driverCommands] using drv

/-! ### The reports of CTL.TICK -/

/-- CTL.TICK's own actions are forwarded words and reports (R231). -/
theorem mem_tickReports {o : Bool} {w : Option U32} {a : Action} (h : a ∈ tickReports o w) :
    (∃ x, a = .forward x) ∨ ∃ status, a = .report status := by
  obtain overflow | forwarded := List.mem_append.1 h
  · cases o with
    | false => simp at overflow
    | true => exact .inr ⟨_, List.mem_singleton.1 overflow⟩
  · cases w with
    | none => simp at forwarded
    | some x =>
      obtain word | decoder := List.mem_cons.1 forwarded
      · exact .inl ⟨x, word⟩
      · split at decoder
        · exact .inr ⟨_, List.mem_singleton.1 decoder⟩
        · simp at decoder

/-- What selects no forwarded word and no report sees the arbiter's actions only. -/
theorem filterMap_tickReports_append {β : Type} {f : Action → Option β}
    (forward : ∀ x, f (.forward x) = none) (report : ∀ status, f (.report status) = none)
    (o : Bool) (w : Option U32) (acts : List Action) :
    (tickReports o w ++ acts).filterMap f = acts.filterMap f := by
  have dropped : (tickReports o w).filterMap f = [] := by
    refine List.filterMap_eq_nil_iff.2 fun a ha => ?_
    obtain ⟨x, rfl⟩ | ⟨status, rfl⟩ := mem_tickReports ha
    · exact forward x
    · exact report status
  rw [List.filterMap_append, dropped, List.nil_append]

theorem writtenBytes_tickReports_append (o : Bool) (w : Option U32) (acts : List Action) :
    writtenBytes (tickReports o w ++ acts) = writtenBytes acts :=
  filterMap_tickReports_append (fun _ => rfl) (fun _ => rfl) o w acts

theorem driverCommands_tickReports_append (o : Bool) (w : Option U32) (acts : List Action) :
    driverCommands (tickReports o w ++ acts) = driverCommands acts :=
  filterMap_tickReports_append (fun _ => rfl) (fun _ => rfl) o w acts

/-- An action that is neither a forwarded word nor a report is the arbiter's. -/
theorem mem_of_mem_tickReports_append {o : Bool} {w : Option U32} {a : Action} {acts : List Action}
    (h : a ∈ tickReports o w ++ acts) (forward : ∀ x, a ≠ .forward x)
    (report : ∀ status, a ≠ .report status) : a ∈ acts := by
  obtain own | arbiter := List.mem_append.1 h
  · obtain ⟨x, hx⟩ | ⟨status, hs⟩ := mem_tickReports own
    · exact absurd hx (forward x)
    · exact absurd hs (report status)
  · exact arbiter

/-- Once and for all: a CTL.TICK that answers emits its reports, then the actions of one kind of
tick. -/
theorem ctlTick_effect {i : CtlIn} {s t : State} (h : exec (.ctlTick i) s = .next t) :
    ∃ o w acts, newActions s t = tickReports o w ++ acts ∧ TickEffect s.tx t.tx acts := by
  rw [exec_ctlTick] at h
  obtain ⟨-, hr⟩ := ctlOp_next_iff.1 h
  obtain ⟨p, hp, rfl⟩ := map_ok_iff.1 hr
  exact ⟨s.xc.ovf, (chanPop s.xc).2, p.2, by simp [newActions], txTick_effect hp⟩

/-- Settles O54: the reports are no action on the transmitter, and the arbiter's actions tell the kind
of the tick. -/
theorem transmitterIsDrivenOnlyWhereTheRulesSay :
    Obligations.TransmitterIsDrivenOnlyWhereTheRulesSay := by
  intro i s t h
  obtain ⟨o, w, acts, emitted, effect⟩ := ctlTick_effect h
  rw [emitted, writtenBytes_tickReports_append, driverCommands_tickReports_append]
  have arbiters {a : Action} (ha : a ∈ tickReports o w ++ acts) :=
    mem_of_mem_tickReports_append ha
  refine ⟨fun b hb => ?_, fun hf => ?_, fun hd => ?_, fun hd => ?_, effect.drv_eq⟩
  · obtain ⟨start, finish, rfl⟩ := effect.of_txWrite (arbiters hb (by simp) (by simp))
    exact ⟨start, finish, writtenBytes_map_txWrite _⟩
  · exact effect.of_txFlush (arbiters hf (by simp) (by simp))
  · exact effect.of_drvEnable_true (arbiters hd (by simp) (by simp))
  · exact effect.of_drvEnable_false (arbiters hd (by simp) (by simp))

end Sys2Proof.Machine
end

section
/-! PROOFS. Ownership and isolation (R70, R71, R79, R295). An operation is a function of the fields it
reads, followed by updates of the fields it writes. So an update of the state that touches neither, to
which the operation is `blind`, may be made before the operation or after it. The statements are the
cases of this one fact: other lines to come, other registers of the other agent, and, with the fields
overwritten by what they hold already, that an operation leaves what it does not own as it was. -/
namespace Sys2Proof.Machine

/-! ### One step -/

/-- Settles O5: the three cases are the branches of `fetch` and of `decode`. -/
theorem stepRunsTheDecodedOperation : Obligations.StepRunsTheDecodedOperation := by
  intro s
  refine ⟨fun l rest i present decoded => ?_, fun idle => ?_, fun l rest e present rejected => ?_⟩
  · simp only [step, fetch, present, decoded]
  · simp only [step, fetch, idle]
  · simp only [step, fetch, present, rejected]

/-! ### The outcome, changed -/

@[simp] theorem mapNext_next (f : State → State) (s : State) : mapNext f (.next s) = .next (f s) := rfl

/-- Only a next state is changed. -/
theorem mapNext_eq_next {f : State → State} {r : Host.Outcome State Fault Refusal} {t : State}
    (h : mapNext f r = .next t) : ∃ n, r = .next n ∧ t = f n := by
  cases r with
  | next n => exact ⟨n, rfl, (Host.Outcome.next.inj h).symm⟩
  | fault e => cases h
  | refused e => cases h

/-- A change of the next state is a change of the computation's answer. -/
theorem mapNext_outcome {f : State → State} {r r' : Except Fault State} (h : r' = r.map f) :
    outcome r' = mapNext f (outcome r) := by
  subst h
  cases r <;> rfl

/-- A computation followed by an update, changed: the update is changed. -/
theorem map_eq_map_map {α : Type} {f : State → State} {k k' : α → State} (r : Except Fault α)
    (h : ∀ v, k' v = f (k v)) : r.map k' = (r.map k).map f := by
  cases r with
  | error e => rfl
  | ok v => exact congrArg Except.ok (h v)

/-! ### What the acquisition agent is blind to -/

/-- At `s`, the update `f` changes nothing that an operation of the acquisition agent reads, and it
commutes with the writes of that agent (R70, R72). -/
structure AcqBlind (f : State → State) (s : State) : Prop where
  cfg : (f s).cfg = s.cfg
  acq : (f s).acq = s.acq
  xc : (f s).xc = s.xc
  acqUp : (f s).acqUp = s.acqUp
  withAcq : ∀ n a, f (n.withAcq a) = (f n).withAcq a
  withXc : ∀ n x, f (n.withXc x) = (f n).withXc x
  withRet : ∀ n r, f (n.withRet r) = (f n).withRet r
  setUp : ∀ n, f { n with acqUp := true } = { f n with acqUp := true }

section
variable {f : State → State} {s : State}

theorem AcqBlind.acqOp_eq (h : AcqBlind f s) {r r' : Except Fault State} (hr : r' = r.map f) :
    acqOp (f s) r' = mapNext f (acqOp s r) := by
  unfold acqOp
  rw [h.acqUp]
  split
  · exact mapNext_outcome hr
  · rfl

theorem AcqBlind.udArm_eq (h : AcqBlind f s) {st : UdState} {r r' : Except Fault State}
    (hr : r' = r.map f) : udArm (f s) st r' = mapNext f (udArm s st r) := by
  unfold udArm
  rw [h.acqUp, h.acq]
  split
  · rfl
  · split
    · exact mapNext_outcome hr
    · rfl

/-- An answer that is the agent's registers and a returned value. -/
theorem AcqBlind.acqRet_eq {α : Type} (h : AcqBlind f s) (r : Except Fault α) (a : α → Acq)
    (v : α → Ret) : (r.map fun p => ((f s).withAcq (a p)).withRet (v p)) =
      (r.map fun p => (s.withAcq (a p)).withRet (v p)).map f :=
  map_eq_map_map r fun p => by rw [h.withRet, h.withAcq]

/-- An answer that is a returned value. -/
theorem AcqBlind.ret_eq {α : Type} (h : AcqBlind f s) (r : Except Fault α) (v : α → Ret) :
    (r.map fun p => (f s).withRet (v p)) = (r.map fun p => s.withRet (v p)).map f :=
  map_eq_map_map r fun p => (h.withRet s (v p)).symm

theorem AcqBlind.udNext_eq (h : AcqBlind f s) (r : Except Fault (Acq × Option ByteEvent)) :
    udNext (f s) r = (udNext s r).map f := by
  rw [Machine.udNext_eq, Machine.udNext_eq]
  exact h.acqRet_eq r _ _

/-- Once and for all: an operation of the acquisition agent commutes with every update it is blind
to. -/
theorem AcqBlind.exec_eq (h : AcqBlind f s) {i : Instr} (hi : agentOf i = .acquisition) :
    exec i (f s) = mapNext f (exec i s) := by
  cases i <;> cases hi
  case acqReset =>
    simp only [exec, execAcqReset, h.cfg]
    split
    · rw [mapNext_next, h.setUp, h.withAcq]
    · rfl
  case acqOverrun =>
    simp only [exec, execAcqOverrun, h.cfg, h.xc]
    exact h.acqOp_eq (congrArg Except.ok (by rw [h.withXc, h.withAcq]))
  case acqSample x =>
    simp only [exec_acqSample, h.cfg, h.acq, h.xc]
    exact h.acqOp_eq (map_eq_map_map _ fun p => by rw [h.withXc, h.withAcq])
  case acqNop => exact h.acqOp_eq rfl
  case srPush w v =>
    simp only [exec_srPush, h.acq]
    exact h.acqOp_eq (map_eq_map_map _ fun S => (h.withAcq s _).symm)
  case srAt r k =>
    simp only [exec_srAt, h.cfg, h.acq]
    exact h.acqOp_eq (h.ret_eq _ _)
  case srConv a b =>
    simp only [exec_srConv, h.cfg, h.acq]
    exact h.acqOp_eq (h.ret_eq _ _)
  case firUpdate x =>
    simp only [exec_firUpdate, h.cfg, h.acq]
    exact h.acqOp_eq (h.acqRet_eq _ _ _)
  case rsUpdate x =>
    simp only [exec_rsUpdate, h.cfg, h.acq]
    exact h.acqOp_eq (h.acqRet_eq _ _ _)
  case dcUpdate x =>
    simp only [exec_dcUpdate, h.cfg, h.acq]
    exact h.acqOp_eq (h.acqRet_eq _ _ _)
  case lvUpdate x =>
    simp only [exec_lvUpdate, h.cfg, h.acq]
    exact h.acqOp_eq (h.acqRet_eq _ _ _)
  case bdUpdate x =>
    simp only [exec_bdUpdate, h.cfg, h.acq]
    exact h.acqOp_eq (h.acqRet_eq _ _ _)
  case lbUpdate rcv =>
    simp only [exec_lbUpdate, h.cfg, h.acq]
    exact h.acqOp_eq (h.acqRet_eq _ _ _)
  case udReceiving =>
    simp only [exec, execUdReceiving, h.acq]
    exact h.acqOp_eq (congrArg Except.ok (h.withRet s _).symm)
  case udPhaseSearch =>
    simp only [exec_udPhaseSearch, h.cfg, h.acq]
    exact h.acqOp_eq (h.ret_eq _ _)
  case xcPush w =>
    simp only [exec, execXcPush, h.xc]
    exact h.acqOp_eq (congrArg Except.ok (h.withXc s _).symm)
  case udUpdate p =>
    simp only [exec, execUdUpdate, h.cfg, h.acq]
    exact h.acqOp_eq (h.udNext_eq _)
  case udWaitIdle p =>
    simp only [exec, execUdWaitIdle, h.acq]
    exact h.udArm_eq (h.udNext_eq _)
  case udWaitStart p =>
    simp only [exec, execUdWaitStart, h.cfg, h.acq]
    exact h.udArm_eq (h.udNext_eq _)
  case udData p =>
    simp only [exec, execUdData, h.acq]
    exact h.udArm_eq (h.udNext_eq _)
  case udStop p =>
    simp only [exec, execUdStop, h.cfg, h.acq]
    exact h.udArm_eq (h.udNext_eq _)

/-! ### What the control agent is blind to -/

/-- At `s`, the update `f` changes nothing that an operation of the control agent reads, and it
commutes with the writes and the actions of that agent (R12, R70, R72). -/
structure CtlBlind (f : State → State) (s : State) : Prop where
  cfg : (f s).cfg = s.cfg
  tx : (f s).tx = s.tx
  xc : (f s).xc = s.xc
  ctlUp : (f s).ctlUp = s.ctlUp
  withTx : ∀ n t, f (n.withTx t) = (f n).withTx t
  withXc : ∀ n x, f (n.withXc x) = (f n).withXc x
  withRet : ∀ n r, f (n.withRet r) = (f n).withRet r
  emit : ∀ n as, f (n.emit as) = (f n).emit as
  setUp : ∀ n, f { n with ctlUp := true } = { f n with ctlUp := true }

theorem CtlBlind.ctlOp_eq (h : CtlBlind f s) {r r' : Except Fault State} (hr : r' = r.map f) :
    ctlOp (f s) r' = mapNext f (ctlOp s r) := by
  unfold ctlOp
  rw [h.ctlUp]
  split
  · exact mapNext_outcome hr
  · rfl

theorem CtlBlind.txNext_eq (h : CtlBlind f s) (r : TxResult) :
    txNext (f s) r = (txNext s r).map f := by
  rw [Machine.txNext_eq, Machine.txNext_eq]
  exact map_eq_map_map r fun p => by rw [h.emit, h.withTx]

theorem CtlBlind.txArm_eq (h : CtlBlind f s) (st : TxState) (r : TxResult) :
    txArm (f s) st (txNext (f s) r) = mapNext f (txArm s st (txNext s r)) := by
  unfold txArm
  rw [h.ctlUp, h.tx]
  split
  · rfl
  · split
    · exact mapNext_outcome (h.txNext_eq r)
    · rfl

/-- Once and for all: an operation of the control agent commutes with every update it is blind to. -/
theorem CtlBlind.exec_eq (h : CtlBlind f s) {i : Instr} (hi : agentOf i = .control) :
    exec i (f s) = mapNext f (exec i s) := by
  cases i <;> cases hi
  case ctlReset =>
    simp only [exec, execCtlReset, h.cfg]
    split
    · rw [mapNext_next, h.setUp, h.emit, h.withTx, h.withXc]
    · rfl
  case ctlTick p =>
    simp only [exec_ctlTick, h.cfg, h.tx, h.xc]
    exact h.ctlOp_eq (map_eq_map_map _ fun q => by rw [h.emit, h.withTx, h.withXc])
  case ctlNop => exact h.ctlOp_eq rfl
  case xcPop =>
    simp only [exec, execXcPop, h.xc]
    exact h.ctlOp_eq (congrArg Except.ok (by rw [h.withRet, h.withXc]))
  case xcTakeOvf =>
    simp only [exec, execXcTakeOvf, h.xc]
    exact h.ctlOp_eq (congrArg Except.ok (by rw [h.withRet, h.withXc]))
  case txTick p ev =>
    simp only [exec, execTxTick, h.cfg, h.tx]
    exact h.ctlOp_eq (h.txNext_eq _)
  case txIdle p ev =>
    simp only [exec, execTxIdle, h.cfg, h.tx]
    exact h.txArm_eq _ _
  case txIdleWaitLineFree p ev =>
    simp only [exec, execTxIdleWaitLineFree, h.cfg, h.tx]
    exact h.txArm_eq _ _
  case txWaitPowerOn p ev =>
    simp only [exec, execTxWaitPowerOn, h.cfg, h.tx]
    exact h.txArm_eq _ _
  case txStartedWaitForBusy p ev =>
    simp only [exec, execTxStartedWaitForBusy, h.cfg, h.tx]
    exact h.txArm_eq _ _
  case txRunningCheckData p ev =>
    simp only [exec, execTxRunningCheckData, h.cfg, h.tx]
    exact h.txArm_eq _ _
  case txRunningWaitForIdle p ev =>
    simp only [exec, execTxRunningWaitForIdle, h.tx]
    exact h.txArm_eq _ _

/-- An operation commutes with an update to which both agents are blind. -/
theorem exec_eq_of_blind (ha : AcqBlind f s) (hc : CtlBlind f s) (i : Instr) :
    exec i (f s) = mapNext f (exec i s) := by
  cases hi : agentOf i with
  | acquisition => exact ha.exec_eq hi
  | control => exact hc.exec_eq hi

/-- An update that commutes with an operation and changes nothing before it changes nothing after
it. -/
theorem next_fixed {i : Instr} {t : State} (commutes : exec i (f s) = mapNext f (exec i s))
    (fixed : f s = s) (h : exec i s = .next t) : f t = t := by
  rw [fixed, h, mapNext_next] at commutes
  exact (Host.Outcome.next.inj commutes).symm

theorem AcqBlind.next_fixed (h : AcqBlind f s) (fixed : f s = s) {i : Instr} {t : State}
    (hi : agentOf i = .acquisition) (hn : exec i s = .next t) : f t = t :=
  Machine.next_fixed (h.exec_eq hi) fixed hn

theorem CtlBlind.next_fixed (h : CtlBlind f s) (fixed : f s = s) {i : Instr} {t : State}
    (hi : agentOf i = .control) (hn : exec i s = .next t) : f t = t :=
  Machine.next_fixed (h.exec_eq hi) fixed hn

end

/-! ### The lines to come, and the actions emitted so far -/

theorem acqBlind_stim (l : List (List U32)) (s : State) :
    AcqBlind (fun n => { n with stim := l }) s :=
  ⟨rfl, rfl, rfl, rfl, fun _ _ => rfl, fun _ _ => rfl, fun _ _ => rfl, fun _ => rfl⟩

theorem ctlBlind_stim (l : List (List U32)) (s : State) :
    CtlBlind (fun n => { n with stim := l }) s :=
  ⟨rfl, rfl, rfl, rfl, fun _ _ => rfl, fun _ _ => rfl, fun _ _ => rfl, fun _ _ => rfl, fun _ => rfl⟩

/-- Settles O6: the lines to come are none of the fields an operation reads or writes. -/
theorem operationsIgnoreTheStimulus : Obligations.OperationsIgnoreTheStimulus :=
  fun i s l => exec_eq_of_blind (acqBlind_stim l s) (ctlBlind_stim l s) i

theorem acqBlind_prependOut (acts : List Action) (s : State) :
    AcqBlind (fun n => { n with out := acts ++ n.out }) s :=
  ⟨rfl, rfl, rfl, rfl, fun _ _ => rfl, fun _ _ => rfl, fun _ _ => rfl, fun _ => rfl⟩

theorem ctlBlind_prependOut (acts : List Action) (s : State) :
    CtlBlind (fun n => { n with out := acts ++ n.out }) s :=
  ⟨rfl, rfl, rfl, rfl, fun _ _ => rfl, fun _ _ => rfl, fun _ _ => rfl,
    fun _ _ => by simp [State.emit, List.append_assoc], fun _ => rfl⟩

/-- Actions are only ever appended (R12): an operation does the same after any others. -/
theorem exec_extends_out {i : Instr} {s t : State} (h : exec i s = .next t) : s.out <+: t.out := by
  have commutes := exec_eq_of_blind (acqBlind_prependOut s.out { s with out := [] })
    (ctlBlind_prependOut s.out { s with out := [] }) i
  simp only [List.append_nil, h] at commutes
  obtain ⟨n, -, rfl⟩ := mapNext_eq_next commutes.symm
  exact ⟨n.out, rfl⟩

/-! ### The registers of the other agent -/

theorem acqBlind_control (t : Tx) (u : Bool) (o : List Action) (s : State) :
    AcqBlind (fun n => { n with tx := t, ctlUp := u, out := o }) s :=
  ⟨rfl, rfl, rfl, rfl, fun _ _ => rfl, fun _ _ => rfl, fun _ _ => rfl, fun _ => rfl⟩

theorem ctlBlind_acquisition (a : Acq) (u : Bool) (s : State) :
    CtlBlind (fun n => { n with acq := a, acqUp := u }) s :=
  ⟨rfl, rfl, rfl, rfl, fun _ _ => rfl, fun _ _ => rfl, fun _ _ => rfl, fun _ _ => rfl, fun _ => rfl⟩

/-- Settles O60: each agent is blind to new registers of the other. -/
theorem agentsReadOnlyWhatTheyOwn : Obligations.AgentsReadOnlyWhatTheyOwn :=
  fun _ s => ⟨fun hi t u o => (acqBlind_control t u o s).exec_eq hi,
    fun hi a u => (ctlBlind_acquisition a u s).exec_eq hi⟩

/-- An operation of the acquisition agent leaves the control agent's side as it was. -/
theorem acquisition_frame {i : Instr} {s t : State} (hi : agentOf i = .acquisition)
    (h : exec i s = .next t) : { t with tx := s.tx, ctlUp := s.ctlUp, out := s.out } = t :=
  (acqBlind_control s.tx s.ctlUp s.out s).next_fixed rfl hi h

/-- An operation of the control agent leaves the acquisition agent's side as it was. -/
theorem control_frame {i : Instr} {s t : State} (hi : agentOf i = .control)
    (h : exec i s = .next t) : { t with acq := s.acq, acqUp := s.acqUp } = t :=
  (ctlBlind_acquisition s.acq s.acqUp s).next_fixed rfl hi h

/-! ### CFG -/

/-- CFG is read, so only its own value may be put in its place. -/
theorem acqBlind_cfg (s : State) : AcqBlind (fun n => { n with cfg := s.cfg }) s :=
  ⟨rfl, rfl, rfl, rfl, fun _ _ => rfl, fun _ _ => rfl, fun _ _ => rfl, fun _ => rfl⟩

theorem ctlBlind_cfg (s : State) : CtlBlind (fun n => { n with cfg := s.cfg }) s :=
  ⟨rfl, rfl, rfl, rfl, fun _ _ => rfl, fun _ _ => rfl, fun _ _ => rfl, fun _ _ => rfl, fun _ => rfl⟩

/-- CFG never changes (R79). -/
theorem cfg_of_exec {i : Instr} {s t : State} (h : exec i s = .next t) : t.cfg = s.cfg := by
  have kept : { t with cfg := s.cfg } = t := by
    cases hi : agentOf i with
    | acquisition => exact (acqBlind_cfg s).next_fixed rfl hi h
    | control => exact (ctlBlind_cfg s).next_fixed rfl hi h
  rw [← kept]

/-- Settles O59: CFG's own value in its place, and the frames of the two agents. -/
theorem agentsWriteOnlyWhatTheyOwn : Obligations.AgentsWriteOnlyWhatTheyOwn := by
  intro i s t h
  refine ⟨cfg_of_exec h, fun hi => ?_, fun hi => ?_⟩
  · rw [← acquisition_frame hi h]
    exact ⟨rfl, rfl, rfl⟩
  · rw [← control_frame hi h]
    exact ⟨rfl, rfl⟩

end Sys2Proof.Machine
end

section
/-! PROOFS. The channel over a run (R73 to R75, R205, R231): each operation takes the words out of the
slot in the order in which it lets them in, so the words that stood in it and the accepted ones are
the forwarded ones and those that stand in it. -/
namespace Sys2Proof.Machine

/-! ### The words in the slot -/

theorem slotWords_full {x : Chan} (h : x.full = true) : slotWords x = [x.word] := if_pos h

theorem slotWords_empty {x : Chan} (h : x.full = false) : slotWords x = [] := by simp [slotWords, h]

/-- A push never displaces a word (R73, R205). -/
theorem slotWords_chanPush_of_full {x : Chan} (h : x.full = true) (w : U32) :
    slotWords (chanPush x w) = slotWords x := by
  rw [slotWords_full (chanPush_full x w), slotWords_full h, chanPush_word, if_pos h]

/-- The word popped is the word that stood in the slot (R206). -/
theorem chanPop_toList (x : Chan) : (chanPop x).2.toList = slotWords x := by
  rw [chanPop_snd]
  cases h : x.full with
  | false => exact (slotWords_empty h).symm
  | true => exact (slotWords_full h).symm

/-- The slot after a pop and a take of the flag (R231). -/
theorem slotWords_of_popped (x : Chan) : slotWords (chanTakeOvf (chanPop x).1).1 = [] :=
  slotWords_empty (chanPop_full x)

/-! ### The forwarded words -/

theorem forwardedWords_append (as bs : List Action) :
    forwardedWords (as ++ bs) = forwardedWords as ++ forwardedWords bs := List.filterMap_append

/-- CTL.TICK forwards the word it popped (R231). -/
theorem forwardedWords_tickReports (o : Bool) (w : Option U32) :
    forwardedWords (tickReports o w) = w.toList := by
  cases w with
  | none => cases o <;> rfl
  | some x => cases o <;> cases hx : evDecoderErr x <;> simp [tickReports, forwardedWords, hx]

/-- The arbiter forwards nothing. -/
theorem TickEffect.forwardedWords_eq_nil {t t' : Tx} {acts : List Action} (h : TickEffect t t' acts) :
    forwardedWords acts = [] := by
  cases h with
  | write => simp [forwardedWords, List.filterMap_map, -List.map_take]
  | ended status => cases t.drv <;> rfl
  | _ => rfl

/-! ### The actions of a run -/

theorem newActions_eq_nil {s t : State} (h : t.out = s.out) : newActions s t = [] := by
  rw [newActions, h, List.drop_length]

theorem newActions_self (s : State) : newActions s s = [] := newActions_eq_nil rfl

/-- Actions are only ever appended, in a run as in one operation (R12). -/
theorem runOps_extends_out {ops : List Instr} {s t : State} (h : runOps ops s = .next t) :
    s.out <+: t.out := by
  induction ops generalizing s with
  | nil =>
    cases h
    exact ⟨[], List.append_nil _⟩
  | cons i is ih =>
    simp only [runOps] at h
    split at h
    · rename_i n first
      exact (exec_extends_out first).trans (ih h)
    · cases h
    · cases h

/-- The actions of two stretches of a run, one after the other. -/
theorem newActions_append {s n t : State} (first : s.out <+: n.out) (rest : n.out <+: t.out) :
    newActions s t = newActions s n ++ newActions n t := by
  obtain ⟨as, hn⟩ := first
  obtain ⟨bs, ht⟩ := rest
  simp only [newActions, ← ht, ← hn, List.append_assoc, List.drop_left]
  rw [← List.append_assoc, List.drop_left]

/-! ### One operation -/

/-- What an external operation other than CTL.RESET does to the channel: the acquisition agent leaves a
word that stands in the slot, the control agent divides it between the forwarded words and the slot. -/
theorem external_channel {i : Instr} {s t : State} (hi : External i) (hr : i ≠ .ctlReset)
    (h : exec i s = .next t) :
    (agentOf i = .acquisition ∧ (s.xc.full = true → slotWords t.xc = slotWords s.xc)) ∨
    (agentOf i = .control ∧
      slotWords s.xc = forwardedWords (newActions s t) ++ slotWords t.xc) := by
  cases i <;> cases hi
  case acqReset =>
    obtain ⟨-, rfl⟩ := exec_acqReset_next h
    exact .inl ⟨rfl, fun _ => rfl⟩
  case acqOverrun =>
    obtain ⟨-, hr⟩ := acqOp_next_iff.1 h
    cases hr
    exact .inl ⟨rfl, fun full => slotWords_chanPush_of_full full _⟩
  case acqSample x =>
    rw [exec_acqSample] at h
    obtain ⟨-, hr⟩ := acqOp_next_iff.1 h
    obtain ⟨p, -, rfl⟩ := map_ok_iff.1 hr
    refine .inl ⟨rfl, fun full => ?_⟩
    rw [State.withXc_xc]
    split
    · rfl
    · exact slotWords_chanPush_of_full full _
  case acqNop =>
    obtain ⟨-, hr⟩ := acqOp_next_iff.1 h
    cases hr
    exact .inl ⟨rfl, fun _ => rfl⟩
  case ctlReset => exact absurd rfl hr
  case ctlTick p =>
    rw [exec_ctlTick] at h
    obtain ⟨-, hr⟩ := ctlOp_next_iff.1 h
    obtain ⟨q, hq, rfl⟩ := map_ok_iff.1 hr
    refine .inr ⟨rfl, ?_⟩
    simp only [newActions, State.emit_out, State.withTx_out, State.withXc_out, List.drop_left,
      State.emit_xc, State.withTx_xc, State.withXc_xc]
    rw [forwardedWords_append, forwardedWords_tickReports, chanPop_toList,
      (txTick_effect hq).forwardedWords_eq_nil, slotWords_of_popped, List.append_nil, List.append_nil]
  case ctlNop =>
    obtain ⟨-, hr⟩ := ctlOp_next_iff.1 h
    cases hr
    exact .inr ⟨rfl, by rw [newActions_self]; rfl⟩

/-- One operation: the words that stood in the slot and the accepted one are those forwarded and those
that stand in it afterwards. -/
theorem external_words {i : Instr} {s t : State} (hi : External i) (hr : i ≠ .ctlReset)
    (h : exec i s = .next t) :
    slotWords s.xc ++
        (if agentOf i = .acquisition ∧ s.xc.full = false then slotWords t.xc else []) =
      forwardedWords (newActions s t) ++ slotWords t.xc := by
  obtain ⟨agent, keeps⟩ | ⟨agent, empties⟩ := external_channel hi hr h
  · have silent : newActions s t = [] := by
      apply newActions_eq_nil
      rw [← acquisition_frame agent h]
    rw [silent]
    cases full : s.xc.full with
    | false => simp [agent, slotWords_empty full, forwardedWords]
    | true => simp [keeps full, forwardedWords]
  · rw [if_neg (by simp [agent]), List.append_nil]
    exact empties

/-- Settles O37, by induction on the operations: the word that an operation leaves in the slot is the
word that stands in it before the rest. -/
theorem acceptedWordsAreForwardedInOrder : Obligations.AcceptedWordsAreForwardedInOrder := by
  intro ops
  induction ops with
  | nil =>
    intro s t _ h
    cases h
    rw [newActions_self]
    simp [acceptedWords, forwardedWords]
  | cons i is ih =>
    intro s t allowed h
    obtain ⟨⟨external, noReset⟩, rest⟩ := List.forall_mem_cons.1 allowed
    cases first : exec i s with
    | next n =>
      simp only [runOps, first] at h
      simp only [acceptedWords, first]
      rw [← List.append_assoc, external_words external noReset first, List.append_assoc,
        ih n t rest h, newActions_append (exec_extends_out first) (runOps_extends_out h),
        forwardedWords_append, List.append_assoc]
    | fault e =>
      simp only [runOps, first] at h
      cases h
    | refused e =>
      simp only [runOps, first] at h
      cases h

end Sys2Proof.Machine
end

section
/-! PROOFS. The windows of the shift registers (R51, R62, R63): what a list of pushes leaves, oldest
value first. -/
namespace Sys2Proof.Machine

theorem exec_srPush_toInt {w : Win} {s : State} (up : s.acqUp = true) (x : SW)
    (hne : winGet w s.acq ≠ []) : exec (.srPush w x.toInt) s =
      .next (s.withAcq (winSet w ((winGet w s.acq).tail ++ [x]) s.acq)) := by
  rw [exec_srPush, acqOp_up up, srPush_toInt x hne]
  rfl

/-- SR.AT at an index inside the window (R122). -/
theorem exec_srAt_of_lt {r : SReg} {k : Nat} {s : State} (up : s.acqUp = true)
    (hk : k < (sregGet s.cfg r s.acq).length) : exec (.srAt r (k : Int)) s =
      .next (s.withRet (.sample ((sregGet s.cfg r s.acq).getD k 0))) := by
  rw [exec_srAt, acqOp_up up, srAt, memRead_of_lt (Int.natCast_nonneg k) (by exact_mod_cast hk),
    Int.toNat_natCast]
  rfl

/-- One push, then a list of pushes: each push drops one more of the oldest values. -/
theorem drop_tail_append_append {S vs : List SW} {v : SW} (h : (v :: vs).length ≤ S.length) :
    (S.tail ++ [v]).drop vs.length ++ vs = S.drop (v :: vs).length ++ (v :: vs) := by
  have fits : vs.length ≤ S.tail.length := by
    rw [List.length_tail]
    exact Nat.le_sub_one_of_lt h
  rw [List.drop_append_of_le_length fits, List.drop_tail, List.append_assoc]
  rfl

/-- After the pushes the window is its newest old values and then the pushed ones (R62). -/
theorem runOps_srPush (w : Win) {vs : List SW} {s : State} (up : s.acqUp = true)
    (h : vs.length ≤ (winGet w s.acq).length) :
    runOps (vs.map fun v => .srPush w v.toInt) s =
      .next (s.withAcq (winSet w ((winGet w s.acq).drop vs.length ++ vs) s.acq)) := by
  induction vs generalizing s with
  | nil => simp [runOps, State.withAcq]
  | cons v vs ih =>
    have hne : winGet w s.acq ≠ [] := List.ne_nil_of_length_pos (Nat.lt_of_lt_of_le (Nat.succ_pos _) h)
    simp only [List.map_cons, runOps, exec_srPush_toInt up v hne]
    rw [ih]
    case up => exact up
    case h =>
      simp only [State.withAcq_acq, winGet_winSet, List.length_append, List.length_tail]
      simp only [List.length_cons] at h ⊢
      omega
    simp only [State.withAcq_acq, winGet_winSet, winSet_winSet, drop_tail_append_append h]
    rfl

/-- The `i`-th of the values that stand last. -/
theorem getD_drop_append (S vs : List SW) (i : Nat) :
    (S.drop vs.length ++ vs).getD (S.length - vs.length + i) 0 = vs.getD i 0 := by
  rw [List.getD_append_right _ _ _ _ (by simp), List.length_drop, Nat.add_sub_cancel_left]

/-- Settles O13: the run of the pushes, then a read inside the window. -/
theorem pushedValuesStandOldestFirst : Obligations.PushedValuesStandOldestFirst := by
  intro w vs s up h
  refine ⟨_, runOps_srPush w up h, rfl, fun i hi => ?_⟩
  rw [exec_srAt_of_lt]
  · simp only [State.withAcq_acq, sregGet, winGet_winSet, getD_drop_append]
    rfl
  · exact up
  · simp only [State.withAcq_acq, sregGet, winGet_winSet, List.length_append, List.length_drop]
    omega

end Sys2Proof.Machine
end

section
/-! PROOFS. The faults of the external operations (R8, R11, R64, R322, R323). -/
namespace Sys2Proof.Machine

/-- An operation of the acquisition agent faults before that agent's reset, or where its computation
does. -/
theorem acqOp_fault {s : State} {r : Except Fault State} {f : Fault} (h : acqOp s r = .fault f) :
    (s.acqUp = false ∧ f = .beforeReset) ∨ (s.acqUp = true ∧ r = .error f) := by
  cases up : s.acqUp with
  | false =>
    rw [acqOp_down up] at h
    exact .inl ⟨rfl, (Host.Outcome.fault.inj h).symm⟩
  | true =>
    rw [acqOp_up up] at h
    exact .inr ⟨rfl, outcome_fault_iff.1 h⟩

theorem ctlOp_fault {s : State} {r : Except Fault State} {f : Fault} (h : ctlOp s r = .fault f) :
    (s.ctlUp = false ∧ f = .beforeReset) ∨ (s.ctlUp = true ∧ r = .error f) := by
  cases up : s.ctlUp with
  | false =>
    rw [ctlOp_down up] at h
    exact .inl ⟨rfl, (Host.Outcome.fault.inj h).symm⟩
  | true =>
    rw [ctlOp_up up] at h
    exact .inr ⟨rfl, outcome_fault_iff.1 h⟩

/-- A computation followed by an update fails exactly where the computation does. -/
theorem map_error_iff {α : Type} {r : Except Fault α} {k : α → State} {e : Fault} :
    r.map k = .error e ↔ r = .error e := by
  cases r <;> simp [Except.map]

/-- The reasons an external operation can fault for: an agent is not up, the configuration is illegal,
or a sample overflows. -/
inductive ExternalFault (i : Instr) (s : State) : Fault → Prop
  | beforeReset (down : s.acqUp = false ∨ s.ctlUp = false) : ExternalFault i s .beforeReset
  | config (illegal : ¬ CfgLegal s.cfg) : ExternalFault i s .config
  | overflow (x : SW) (sample : i = .acqSample x) : ExternalFault i s .overflow

/-- An operation of the acquisition agent whose computation answers faults before its reset only. -/
theorem ExternalFault.of_acqOp_ok {i : Instr} {s t : State} {f : Fault}
    (h : acqOp s (.ok t) = .fault f) : ExternalFault i s f := by
  obtain ⟨down, rfl⟩ | ⟨-, error⟩ := acqOp_fault h
  · exact .beforeReset (.inl down)
  · cases error

theorem ExternalFault.of_ctlOp_ok {i : Instr} {s t : State} {f : Fault}
    (h : ctlOp s (.ok t) = .fault f) : ExternalFault i s f := by
  obtain ⟨down, rfl⟩ | ⟨-, error⟩ := ctlOp_fault h
  · exact .beforeReset (.inr down)
  · cases error

/-- Once and for all: what an external operation can fault with. -/
theorem external_fault {i : Instr} {s : State} {f : Fault} (hi : External i) (inv : Inv s)
    (h : exec i s = .fault f) : ExternalFault i s f := by
  cases i <;> cases hi
  case acqReset =>
    by_cases legal : CfgLegal s.cfg
    · rw [exec_acqReset_of_legal legal] at h
      cases h
    · simp only [exec, execAcqReset, cfgOk_of_not_legal legal] at h
      cases h
      exact .config legal
  case acqOverrun => exact .of_acqOp_ok h
  case acqSample x =>
    rw [exec_acqSample] at h
    obtain ⟨down, rfl⟩ | ⟨up, error⟩ := acqOp_fault h
    · exact .beforeReset (.inl down)
    · obtain ⟨legal, registers⟩ := inv.1 up
      obtain rfl := acqChain_error legal.bounds registers (map_error_iff.1 error)
      exact .overflow x rfl
  case acqNop => exact .of_acqOp_ok h
  case ctlReset =>
    by_cases legal : CfgLegal s.cfg
    · rw [exec_ctlReset_of_legal legal] at h
      cases h
    · simp only [exec, execCtlReset, cfgOk_of_not_legal legal] at h
      cases h
      exact .config legal
  case ctlTick p =>
    rw [exec_ctlTick] at h
    obtain ⟨down, rfl⟩ | ⟨up, error⟩ := ctlOp_fault h
    · exact .beforeReset (.inr down)
    · obtain ⟨q, answers, -⟩ := txTick_answers p ((chanPop s.xc).2.getD 0) (inv.2 up).2
      cases answers.symm.trans (map_error_iff.1 error)
  case ctlNop => exact .of_ctlOp_ok h

/-- Settles O58: an index fault is none of the three, and with both agents up, hence a legal
configuration, only the overflow is left. -/
theorem externalOperationsNeverIndexOutside : Obligations.ExternalOperationsNeverIndexOutside := by
  intro i s hi inv
  refine ⟨fun h => (nomatch external_fault hi inv h), fun f h acqUp ctlUp => ?_⟩
  cases external_fault hi inv h with
  | beforeReset down => simp [acqUp, ctlUp] at down
  | config illegal => exact absurd (inv.1 acqUp).1 illegal
  | overflow x sample => exact ⟨rfl, x, sample⟩

end Sys2Proof.Machine
end

section
/-! PROOFS. Lines (R92, R94, R95, R99, R100, R104; assumption log 3): word 0 selects the row, and the
operand words are read as the row's signature says. Reading what `encode` wrote gives the operation
back, and what is read is well formed. -/
namespace Sys2Proof

/-! ### The check of well-formedness, operand by operand -/

/-- An operation with one operand to check is well formed iff that operand is. -/
theorem isNone_ite_illFormed {p : Prop} [Decidable p] {e : IllFormed} :
    (if p then none else some e).isNone = true ↔ p := by simp

theorem wf_srPush {w : Win} {v : Int} : (Instr.srPush w v).wf = true ↔ InSW v := isNone_ite_illFormed

theorem wf_srAt {r : SReg} {k : Int} : (Instr.srAt r k).wf = true ↔ InSW k := isNone_ite_illFormed

theorem wf_ctlTick {p : CtlIn} : (Instr.ctlTick p).wf = true ↔ p.wf = true := isNone_ite_illFormed

/-! ### The operand forms -/

theorem decode_of_selectOp {head : U32} {o : Op} (h : selectOp head = .ok o) (ws : List U32) :
    decode (head :: ws) = withOperands o ws := by
  simp only [decode, h]

theorem oneWord_ok {f : U32 → Instr} {ws : List U32} {i : Instr} (h : oneWord f ws = .ok i) :
    i = f (operand ws 0) := by
  unfold oneWord at h
  split at h <;> cases h
  rfl

theorem noOperand_ok {j i : Instr} {ws : List U32} (h : noOperand j ws = .ok i) : i = j := by
  unfold noOperand at h
  split at h <;> cases h
  rfl

/-- The operands of a tick that were read are `ev` and well-formed control ports. -/
theorem tickOperands_ok {f : CtlIn → U32 → Instr} {ws : List U32} {i : Instr}
    (h : tickOperands f ws = .ok i) : ∃ p : CtlIn, p.wf = true ∧ i = f p (operand ws 0) := by
  unfold tickOperands at h
  split at h <;> cases h
  exact ⟨_, ctlInOf_wf ‹_›, rfl⟩

theorem tickOperands_ctlInWords (f : CtlIn → U32 → Instr) {p : CtlIn} (h : p.wf = true) (ev : U32) :
    tickOperands f (ev :: ctlInWords p) = .ok (f p ev) := by
  simp [tickOperands, ctlInOf_ctlInWords h, operand]

/-! ### Reading the operands of a row -/

/-- The operand words of a well-formed operation, read in the operation's own row. -/
theorem withOperands_operandWords {i : Instr} (h : i.wf = true) :
    withOperands (opOf i) (operandWords i) = .ok i := by
  cases i with
  | srPush w v =>
    simp [withOperands, opOf, operandWords, atMost, operand, toInt_operandWord (wf_srPush.1 h)]
  | srAt r k =>
    simp [withOperands, opOf, operandWords, atMost, operand, toInt_operandWord (wf_srAt.1 h)]
  | srConv | lbUpdate => simp [withOperands, opOf, operandWords, atMost, operand]
  | ctlTick p => simp [withOperands, opOf, operandWords, ctlInOf_ctlInWords (wf_ctlTick.1 h)]
  | txTick p ev | txIdle p ev | txIdleWaitLineFree p ev | txWaitPowerOn p ev
  | txStartedWaitForBusy p ev | txRunningCheckData p ev | txRunningWaitForIdle p ev =>
    exact tickOperands_ctlInWords _ (isNone_ite_illFormed.1 h) ev
  | _ => rfl

/-- Whatever row reads the words, it answers well-formed operations only. -/
theorem withOperands_wf {o : Op} {ws : List U32} {i : Instr} (h : withOperands o ws = .ok i) :
    i.wf = true := by
  cases o with
  | ctlReset | ctlNop =>
    cases h
    rfl
  | udReceiving | udPhaseSearch | xcPop | xcTakeOvf =>
    simp only [withOperands] at h
    cases noOperand_ok h
    rfl
  | acqReset | acqOverrun | acqSample | acqNop | firUpdate | rsUpdate | dcUpdate | lvUpdate | bdUpdate
  | udUpdate | xcPush | udWaitIdle | udWaitStart | udData | udStop =>
    simp only [withOperands] at h
    cases oneWord_ok h
    rfl
  | ctlTick =>
    simp only [withOperands] at h
    split at h <;> cases h
    exact wf_ctlTick.2 (ctlInOf_wf ‹_›)
  | srPush =>
    simp only [withOperands] at h
    split at h <;> cases h
    exact wf_srPush.2 (Machine.inSW_toInt _)
  | srAt =>
    simp only [withOperands] at h
    split at h <;> cases h
    exact wf_srAt.2 (Machine.inSW_toInt _)
  | srConv | lbUpdate =>
    simp only [withOperands] at h
    split at h <;> cases h
    rfl
  | txTick | txIdle | txIdleWaitLineFree | txWaitPowerOn | txStartedWaitForBusy | txRunningCheckData
  | txRunningWaitForIdle =>
    obtain ⟨p, wf, rfl⟩ := tickOperands_ok h
    exact isNone_ite_illFormed.2 wf

/-! ### Whole lines -/

/-- Settles O1: word 0 selects the operation's row, and the row reads its own operand words. -/
theorem decodeInvertsEncode : Obligations.DecodeInvertsEncode := fun i wf =>
  (decode_of_selectOp (selectOp_headWord (opOf i)) _).trans (withOperands_operandWords wf)

/-- Settles O2: a line that is read selects a row, and every row answers well-formed operations. -/
theorem decodedOperationsAreWellFormed : Obligations.DecodedOperationsAreWellFormed := by
  intro l i h
  cases l with
  | nil => cases h
  | cons head ws =>
    simp only [decode] at h
    split at h
    · exact withOperands_wf h
    · cases h

/-- `{rst_a, overrun, sample_valid}` selects by priority: the masks of R94 ignore the lower strobes. -/
theorem selectOp_acqStrobe (rstA overrun sampleValid : Bool) :
    selectOp (BitVec.ofNat 32 (256 + 4 * rstA.toNat + 2 * overrun.toNat + sampleValid.toNat)) =
      .ok (if rstA then .acqReset else if overrun then .acqOverrun
           else if sampleValid then .acqSample else .acqNop) := by
  revert rstA overrun sampleValid
  decide

/-- `{rst_c, tick}` selects by priority (R94). -/
theorem selectOp_ctlStrobe (rstC tick : Bool) :
    selectOp (BitVec.ofNat 32 (512 + 2 * rstC.toNat + tick.toNat)) =
      .ok (if rstC then .ctlReset else if tick then .ctlTick else .ctlNop) := by
  revert rstC tick
  decide

/-- Settles O3: the row is selected by word 0 alone; of the operations of a strobe format only the
sample and the tick look at the data ports. -/
theorem strobeVectorsSelectByPriority : Obligations.StrobeVectorsSelectByPriority := by
  refine ⟨fun rstA overrun sampleValid x => ?_, fun rstC tick p wf => ?_, fun ops => ?_⟩
  · rw [decode_of_selectOp (selectOp_acqStrobe rstA overrun sampleValid)]
    cases rstA <;> cases overrun <;> cases sampleValid <;> rfl
  · rw [decode_of_selectOp (selectOp_ctlStrobe rstC tick)]
    match rstC, tick with
    | true, _ => rfl
    | false, true => exact withOperands_operandWords (i := .ctlTick p) (wf_ctlTick.2 wf)
    | false, false => rfl
  · have six : selectOp 0x506 = .error .unknownCode := by decide
    have seven : selectOp 0x507 = .error .unknownCode := by decide
    simp only [decode, six, seven, and_self]

theorem decode_of_encode {l : List U32} {i : Instr} (line : encode i = l) (wf : i.wf = true) :
    decode l = .ok i := line ▸ decodeInvertsEncode i wf

/-- Settles O4: each line is the encoding of its operation. -/
theorem linesOfTheSpecDecode : Obligations.LinesOfTheSpecDecode := by
  refine ⟨?_, ?_, ?_, ?_, ?_, ?_, ?_⟩ <;> exact decode_of_encode (by decide) (by decide)

end Sys2Proof
end

section
/-! PROOFS. The words a sample can leave in the channel (R75, R97, R211): edges never come together,
and the sample that delivers a byte raises none. -/
namespace Sys2Proof.Machine

/-- The nonzero words of the producer (R97): an edge word, or a byte word without edges, which is
`0x200` where the byte is withheld. -/
def ProducerWord (w : U32) : Prop :=
  w = 0x400 ∨ w = 0x800 ∨
    (w.toNat < 1024 ∧ (w.getLsbD 8 = true ∨ w.getLsbD 9 = true) ∧
      (w.getLsbD 8 = false → w = 0x200))

/-! ### The packing (R211) -/

/-- Without a byte, edges that do not come together pack to an edge word or to nothing. -/
theorem packEvent_none {be fe : Bool} (h : be = true → fe = false) :
    packEvent none be fe = 0 ∨ ProducerWord (packEvent none be fe) := by
  match be, fe with
  | false, false => exact .inl (by decide)
  | true, false => exact .inr (.inl (by decide))
  | false, true => exact .inr (.inr (.inl (by decide)))
  | true, true => cases h rfl

/-- A byte event without edges packs to a byte word: withheld on a framing error, else delivered. -/
theorem packEvent_some (e : ByteEvent) : ProducerWord (packEvent (some e) false false) := by
  have withheld : ProducerWord (pack 0 false true false false false) := .inr (.inr (by decide))
  have delivered (error : Bool) : ProducerWord (pack e.data true error false false false) := by
    have valid : (pack e.data true error false false false).getLsbD 8 = true := evValid_pack ..
    refine .inr (.inr ⟨?_, .inl valid, fun h => absurd (valid.symm.trans h) (by decide)⟩)
    have := e.data.isLt
    have := error.toNat_lt
    rw [pack_toNat]
    simp only [Bool.toNat_true, Bool.toNat_false]
    omega
  cases hf : e.framingOk with
  | false => simpa [packEvent, hf] using withheld
  | true =>
    cases hp : e.parityOk with
    | false => simpa [packEvent, hf, hp] using delivered true
    | true => simpa [packEvent, hf, hp] using delivered false

/-! ### The sample that delivers a byte -/

/-- The byte comes as the decoder goes from Stop to WaitIdle (R176): `receiving` falls, so there is no
busy edge, and the countdown still stands frozen at `IDLE_TIMEOUT` (R202), which is at least 2, so
there is no free edge. -/
theorem lbUpdate_after_event {c : Config} {a a5 a' : Acq} {p : SW} {e : ByteEvent} {ed : Edges}
    (hc : LegalBounds c) (inv : AcqInv c a) (prev : a.lbPrev = receiving a)
    (hud : udUpdate c a p = .ok (a5, some e)) (hlb : lbUpdate c a5 (receiving a5) = .ok (a', ed)) :
    ed.busy = false ∧ ed.free = false := by
  obtain ⟨stop, waitIdle⟩ := udUpdate_event hud
  obtain ⟨busyEdge, freeEdge⟩ := lbUpdate_edges hlb
  constructor
  · by_contra busy
    obtain ⟨rcv, -, -⟩ := busyEdge (Bool.eq_true_of_not_eq_false busy)
    simp [receiving, waitIdle] at rcv
  · by_contra free
    obtain ⟨-, -, last⟩ := freeEdge (Bool.eq_true_of_not_eq_false free)
    obtain ⟨-, -, -, -, -, -, -, -, -, frozen⟩ := inv
    obtain ⟨-, countdown⟩ := frozen (prev.trans (by simp [receiving, stop]))
    have same : a5.lbCnt = a.lbCnt := by rw [udUpdate_frame hud]
    have := idleTimeout_ge hc
    rw [same] at last
    omega

/-- The part of the chain behind the Resampler makes a producer word or none. -/
theorem processSample_word {c : Config} {a a' : Acq} {r : SW} {w : U32} (hc : LegalBounds c)
    (inv : AcqInv c a) (prev : a.lbPrev = receiving a) (h : processSample c a r = .ok (a', w)) :
    w = 0 ∨ ProducerWord w := by
  obtain ⟨a2, y2, a3, y3, a4, p, a5, ev, ed, hdc, hlv, hbd, hud, hlb, rfl⟩ := processSample_ok h
  cases ev with
  | none =>
    obtain ⟨busyEdge, -⟩ := lbUpdate_edges hlb
    refine packEvent_none fun busy => ?_
    obtain ⟨-, -, noFree⟩ := busyEdge busy
    exact noFree
  | some e =>
    have inv4 : AcqInv c a4 := ((inv.dcUpdate hdc).lvUpdate hlv).bdUpdate hbd
    have prev4 : a4.lbPrev = receiving a4 := by
      obtain ⟨-, rfl, -⟩ := dcUpdate_ok hdc
      obtain rfl := lvUpdate_ok hlv
      obtain ⟨-, -, -, rfl⟩ := bdUpdate_ok hbd
      exact prev
    obtain ⟨busy, free⟩ := lbUpdate_after_event hc inv4 prev4 hud hlb
    rw [busy, free]
    exact .inr (packEvent_some e)

/-- The whole chain makes a producer word or none. -/
theorem acqChain_word {c : Config} {a a' : Acq} {x : SW} {w : U32} (hc : LegalBounds c)
    (inv : AcqInv c a) (prev : a.lbPrev = receiving a) (h : acqChain c a x = .ok (a', w)) :
    w = 0 ∨ ProducerWord w := by
  obtain ⟨a1, y1, a2, r, hfir, hrs, ⟨-, -, zero⟩ | ⟨v, -, hv⟩⟩ := acqChain_ok h
  · exact .inl zero
  · refine processSample_word hc ((inv.firUpdate hfir).rsUpdate hrs) ?_ hv
    rw [rsUpdate_frame hrs]
    obtain ⟨-, rfl⟩ := firUpdate_ok hfir
    exact prev

/-! ### The channel after a sample -/

theorem chanPush_of_full {x : Chan} (h : x.full = true) (w : U32) :
    chanPush x w = { x with ovf := true } := if_pos h

/-- Settles O40: the chain's word is pushed unless it is 0 (R210, R205). -/
theorem samplesPushOnlyByteWordsAndEdgeWords : Obligations.SamplesPushOnlyByteWordsAndEdgeWords := by
  intro x s t up inv h
  rw [exec_acqSample] at h
  obtain ⟨-, answer⟩ := acqOp_next_iff.1 h
  obtain ⟨⟨a, w⟩, chain, rfl⟩ := map_ok_iff.1 answer
  obtain ⟨legal, registers⟩ := inv.1.1 up
  obtain ⟨-, prev⟩ := inv.2 up
  rw [State.withXc_xc]
  by_cases zero : w = 0
  · exact .inl (if_pos zero)
  · rw [if_neg zero]
    have word : ProducerWord w := (acqChain_word legal.bounds registers prev chain).resolve_left zero
    cases full : s.xc.full with
    | true => exact .inr (.inl ⟨rfl, chanPush_of_full full w⟩)
    | false =>
      have stored : (chanPush s.xc w).word = w := by rw [chanPush_word, full]; rfl
      refine .inr (.inr ⟨rfl, chanPush_full s.xc w, by rw [chanPush_ovf, full]; rfl, ?_⟩)
      rw [stored]
      exact word

end Sys2Proof.Machine
end

section
/-! PROOFS. The shift register and FIR.UPDATE (R121 to R126): a push, a read by index, and the dot
product with its accumulator, which answers exactly when no product and no partial sum leaves `sW`. -/
namespace Sys2Proof.Machine

/-! ### SR.PUSH and SR.AT -/

/-- Settles O12, by the two laws of a push: its value is in `sW` or it is not. -/
theorem pushShiftsTheWindow : Obligations.PushShiftsTheWindow := by
  intro w v s up hne
  rw [exec_srPush, acqOp_up up]
  constructor
  · intro hv
    rw [srPush_of_inSW hne hv]
    rfl
  · intro hv
    rw [srPush_of_not_inSW hv]
    rfl

/-- Settles O14, by the read of an index space: inside it and outside it (R64). -/
theorem atReadsTheIthOldest : Obligations.AtReadsTheIthOldest := by
  intro r i s up
  constructor
  · rintro ⟨nonneg, inside⟩
    lift i to Nat using nonneg
    exact exec_srAt_of_lt up (by exact_mod_cast inside)
  · intro outside
    rw [exec_srAt, acqOp_up up, srAt, memRead_of_outside outside]
    rfl

/-! ### The accumulator (R124) -/

/-- The products of equal indices, from the oldest entries on (R123). -/
def dotTerms (A B : List SW) : List Int := List.zipWith (fun x y => x.toInt * y.toInt) A B

/-- An accumulator that starts at `v` stays in `sW` over the products `ps` (R124): each product and
each partial sum, `v` itself the first, is in `sW`. -/
def AccFits (v : Int) (ps : List Int) : Prop :=
  (∀ p ∈ ps, InSW p) ∧ ∀ k, k ≤ ps.length → InSW (v + (ps.take k).sum)

theorem accFits_nil {v : Int} : AccFits v [] ↔ InSW v := by
  simp [AccFits]

/-- The accumulator's start is the first of its partial sums. -/
theorem AccFits.start {v : Int} {ps : List Int} (h : AccFits v ps) : InSW v := by
  obtain ⟨-, sums⟩ := h
  simpa using sums 0 (Nat.zero_le _)

/-- The accumulator fits when it may take the first product, and what it is then fits the others. -/
theorem accFits_cons {v p : Int} {ps : List Int} :
    AccFits v (p :: ps) ↔ InSW v ∧ InSW p ∧ AccFits (v + p) ps := by
  constructor
  · intro h
    have start := h.start
    obtain ⟨products, sums⟩ := h
    obtain ⟨first, others⟩ := List.forall_mem_cons.1 products
    refine ⟨start, first, others, fun k hk => ?_⟩
    simpa [add_assoc] using sums (k + 1) (Nat.succ_le_succ hk)
  · rintro ⟨start, first, others, sums⟩
    refine ⟨List.forall_mem_cons.2 ⟨first, others⟩, fun k hk => ?_⟩
    cases k with
    | zero => simpa using start
    | succ k => simpa [add_assoc] using sums k (Nat.le_of_succ_le_succ hk)

/-! ### SR.CONV (R123) -/

@[simp] theorem convFrom_nil_left (acc : SW) (B : List SW) : convFrom acc [] B = .ok acc := by
  rw [convFrom]
  simp

@[simp] theorem convFrom_nil_right (acc : SW) (A : List SW) : convFrom acc A [] = .ok acc := by
  rw [convFrom]
  simp

/-- One product: it and the new partial sum are in `sW`, or the accumulation faults. -/
theorem convFrom_cons (acc a b : SW) (as bs : List SW) :
    convFrom acc (a :: as) (b :: bs) =
      if InSW (a.toInt * b.toInt) ∧ InSW (acc.toInt + a.toInt * b.toInt) then
        convFrom (BitVec.ofInt 32 (acc.toInt + a.toInt * b.toInt)) as bs
      else .error .overflow := by
  rw [convFrom]
  by_cases product : InSW (a.toInt * b.toInt)
  · simp only [toS_of_inSW product, toInt_ofInt_of_inSW product]
    by_cases sum : InSW (acc.toInt + a.toInt * b.toInt)
    · rw [if_pos ⟨product, sum⟩, toS_of_inSW sum]
    · rw [if_neg fun h => sum h.2, toS_of_not_inSW sum]
  · rw [if_neg fun h => product h.1, toS_of_not_inSW product]

/-- The accumulation answers exactly when its accumulator stays in `sW`. -/
theorem convFrom_answers_iff {acc : SW} {A B : List SW} :
    (∃ r, convFrom acc A B = .ok r) ↔ AccFits acc.toInt (dotTerms A B) := by
  induction A generalizing acc B with
  | nil =>
    rw [convFrom_nil_left, dotTerms, List.zipWith_nil_left]
    exact ⟨fun _ => accFits_nil.2 (inSW_toInt acc), fun _ => ⟨acc, rfl⟩⟩
  | cons a as ih =>
    cases B with
    | nil =>
      rw [convFrom_nil_right, dotTerms, List.zipWith_nil_right]
      exact ⟨fun _ => accFits_nil.2 (inSW_toInt acc), fun _ => ⟨acc, rfl⟩⟩
    | cons b bs =>
      have terms : dotTerms (a :: as) (b :: bs) = a.toInt * b.toInt :: dotTerms as bs := rfl
      rw [terms, accFits_cons, convFrom_cons]
      split
      · rename_i fits
        obtain ⟨product, sum⟩ := fits
        rw [ih (B := bs), toInt_ofInt_of_inSW sum]
        exact ⟨fun rest => ⟨inSW_toInt acc, product, rest⟩, fun ⟨_, _, rest⟩ => rest⟩
      · rename_i leaves
        constructor
        · rintro ⟨r, ⟨⟩⟩
        · rintro ⟨-, product, rest⟩
          exact absurd ⟨product, rest.start⟩ leaves

/-- SR.CONV answers the sum of the products when its accumulator stays in `sW`. -/
theorem srConv_of_accFits {A B : List SW} (h : AccFits 0 (dotTerms A B)) :
    ∃ r, srConv A B = .ok r ∧ r.toInt = (dotTerms A B).sum := by
  obtain ⟨r, answer⟩ := convFrom_answers_iff (acc := 0).2 h
  exact ⟨r, answer, (convFrom_ok answer).trans (zero_add _)⟩

/-- SR.CONV is `Fault(Overflow)` when its accumulator leaves `sW` (R124). -/
theorem srConv_of_not_accFits {A B : List SW} (h : ¬ AccFits 0 (dotTerms A B)) :
    srConv A B = .error .overflow := by
  cases answer : srConv A B with
  | ok r => exact absurd (convFrom_answers_iff.1 ⟨r, answer⟩) h
  | error e => rw [convFrom_error answer]

/-- The accumulator of SR.CONV starts at 0: its partial sums are those of the products alone. -/
theorem accFits_zero {ps : List Int} :
    AccFits 0 ps ↔ (∀ p ∈ ps, InSW p) ∧ ∀ k, k ≤ ps.length → InSW (ps.take k).sum := by
  simp only [AccFits, zero_add]

/-- Settles O15: SR.CONV answers exactly when the accumulator stays in `sW`. -/
theorem convIsTheCheckedDotProduct : Obligations.ConvIsTheCheckedDotProduct := by
  intro a b s up ps fits
  rw [exec_srConv, acqOp_up up]
  constructor
  · intro h
    obtain ⟨r, answer, sum⟩ := srConv_of_accFits (accFits_zero.2 h)
    rw [answer, ← BitVec.ofInt_toInt (x := r), sum]
    rfl
  · intro h
    rw [srConv_of_not_accFits fun stays => h (accFits_zero.1 stays)]
    rfl

/-! ### FIR.UPDATE (R126) -/

/-- The arithmetic right shift is the floor of the rational quotient (R9). -/
theorem floor_div_two_pow (v : Int) (n : Nat) : Int.floor ((v : ℚ) / 2 ^ n) = asr v n := by
  have h := Rat.floor_intCast_div_natCast v (2 ^ n)
  push_cast at h
  exact h

/-- FIR.UPDATE faults where its dot product does. -/
theorem firUpdate_of_conv_error {c : Config} {a : Acq} {x : SW} {e : Fault} (hne : a.firX ≠ [])
    (h : srConv (a.firX.tail ++ [x]) (firK c) = .error e) : firUpdate c a x = .error e := by
  simp only [firUpdate, srPush_toInt x hne, h]

/-- Settles O16: the push of a register value succeeds, the dot product over the new window answers
or faults as SR.CONV does, and the shift of its sum stays in `sW`. -/
theorem firConvolvesAfterThePush : Obligations.FirConvolvesAfterThePush := by
  intro x s up len X ps fits
  have hne : s.acq.firX ≠ [] := List.ne_nil_of_length_eq_add_one len
  rw [exec_firUpdate, acqOp_up up]
  constructor
  · intro h
    obtain ⟨r, answer, sum⟩ := srConv_of_accFits (accFits_zero.2 h)
    rw [firUpdate_of_conv hne answer, sum, floor_div_two_pow]
    rfl
  · intro h
    rw [firUpdate_of_conv_error hne (srConv_of_not_accFits fun stays => h (accFits_zero.1 stays))]
    rfl

end Sys2Proof.Machine
end

section
/-! PROOFS. The Resampler, the DC blocker and the level detector (R141, R142, R145, R146, R150): each
call's equation, what the Resampler passes over a run, and how the DC blocker forgets a constant. -/
namespace Sys2Proof.Machine

/-! ### RS.UPDATE -/

/-- The counter after a call (R141): it cycles `0 .. drop`. -/
def rsNext (drop cnt : BitVec 16) : BitVec 16 := if cnt = drop then 0 else cnt + 1

/-- The state after a call of RS.UPDATE whose counter is in its range (R141). -/
def afterRs (x : SW) (s : State) : State :=
  { s with
    acq := { s.acq with rsCnt := rsNext s.cfg.rsDrop s.acq.rsCnt }
    ret := .optSample (if s.acq.rsCnt = 0 then some x else none) }

@[simp] theorem afterRs_cfg (x : SW) (s : State) : (afterRs x s).cfg = s.cfg := rfl
@[simp] theorem afterRs_acqUp (x : SW) (s : State) : (afterRs x s).acqUp = s.acqUp := rfl
@[simp] theorem afterRs_rsCnt (x : SW) (s : State) :
    (afterRs x s).acq.rsCnt = rsNext s.cfg.rsDrop s.acq.rsCnt := rfl
@[simp] theorem afterRs_ret (x : SW) (s : State) :
    (afterRs x s).ret = .optSample (if s.acq.rsCnt = 0 then some x else none) := rfl

theorem exec_rsUpdate_of_le (x : SW) {s : State} (up : s.acqUp = true)
    (range : s.acq.rsCnt.toNat ≤ s.cfg.rsDrop.toNat) :
    exec (.rsUpdate x) s = .next (afterRs x s) := by
  rw [exec_rsUpdate, acqOp_up up, rsUpdate_of_le x range]
  rfl

/-- Settles O17: a counter in its range takes its next value without overflow. -/
theorem resamplerPassesWhenTheCounterIsZero : Obligations.ResamplerPassesWhenTheCounterIsZero :=
  fun x _ up range => exec_rsUpdate_of_le x up range

/-! ### The inputs still to drop (R142) -/

/-- How many inputs RS.UPDATE drops before it passes the next one. -/
def dropsAhead (drop cnt : BitVec 16) : Nat := if cnt = 0 then 0 else drop.toNat + 1 - cnt.toNat

theorem dropsAhead_zero (drop : BitVec 16) : dropsAhead drop 0 = 0 := rfl

theorem rsNext_last (drop : BitVec 16) : rsNext drop drop = 0 := if_pos rfl

/-- Below `drop` the counter counts up, without wrapping to 0. -/
theorem rsNext_toNat_of_ne {drop cnt : BitVec 16} (range : cnt.toNat ≤ drop.toNat) (h : cnt ≠ drop) :
    (rsNext drop cnt).toNat = cnt.toNat + 1 := by
  rw [rsNext, if_neg h]
  bv_omega

/-- Off `drop`, the inputs to drop are told by the counter's next value. -/
theorem dropsAhead_rsNext_of_ne {drop cnt : BitVec 16} (range : cnt.toNat ≤ drop.toNat)
    (h : cnt ≠ drop) : dropsAhead drop (rsNext drop cnt) = drop.toNat - cnt.toNat := by
  have value := rsNext_toNat_of_ne range h
  have nonzero : rsNext drop cnt ≠ 0 := fun e => by simp [e] at value
  rw [dropsAhead, if_neg nonzero, value, Nat.add_sub_add_right]

/-- A call that passes its input leaves `drop` inputs to drop. -/
theorem dropsAhead_after_pass (drop : BitVec 16) : dropsAhead drop (rsNext drop 0) = drop.toNat := by
  by_cases last : 0 = drop
  · rw [← last, rsNext_last]
    rfl
  · exact dropsAhead_rsNext_of_ne (Nat.zero_le _) last

/-- A call that drops its input leaves one fewer to drop. -/
theorem dropsAhead_after_drop {drop cnt : BitVec 16} (range : cnt.toNat ≤ drop.toNat) (h : cnt ≠ 0) :
    dropsAhead drop cnt = dropsAhead drop (rsNext drop cnt) + 1 := by
  rw [dropsAhead, if_neg h]
  by_cases last : cnt = drop
  · rw [last, rsNext_last, dropsAhead_zero, Nat.add_sub_cancel_left]
  · rw [dropsAhead_rsNext_of_ne range last, Nat.sub_add_comm range]

/-! ### Every `(n+1)`-th entry of a list -/

/-- The list without its first `j` entries, then its first entry and every `(n+1)`-th after that. -/
def everyNth {α : Type} (n : Nat) : Nat → List α → List α
  | _, [] => []
  | 0, x :: xs => x :: everyNth n n xs
  | j + 1, _ :: xs => everyNth n j xs

theorem length_everyNth {α : Type} {n j : Nat} (h : j ≤ n) (xs : List α) :
    (everyNth n j xs).length = (xs.length + (n - j)) / (n + 1) := by
  induction xs generalizing j with
  | nil =>
    rw [everyNth, List.length_nil, Nat.zero_add, Nat.div_eq_of_lt (by omega)]
  | cons x xs ih =>
    cases j with
    | zero =>
      have one_more : xs.length + 1 + (n - 0) = xs.length + (n - n) + (n + 1) := by omega
      rw [everyNth, List.length_cons, ih le_rfl, List.length_cons, one_more,
        Nat.add_div_right _ (Nat.succ_pos n)]
    | succ j =>
      rw [everyNth, ih (Nat.le_of_succ_le h), List.length_cons]
      congr 1
      omega

/-- The entry at `k` is that of the list at `j + k × (n+1)`; beyond the end both are absent. -/
theorem getElem?_everyNth {α : Type} (n j k : Nat) (xs : List α) :
    (everyNth n j xs)[k]? = xs[j + k * (n + 1)]? := by
  induction xs generalizing j k with
  | nil => simp [everyNth]
  | cons x xs ih =>
    cases j with
    | succ j => rw [everyNth, ih, Nat.add_right_comm, List.getElem?_cons_succ]
    | zero =>
      cases k with
      | zero => simp [everyNth]
      | succ k =>
        have index : 0 + (k + 1) * (n + 1) = (n + k * (n + 1)) + 1 := by ring
        rw [everyNth, List.getElem?_cons_succ, ih, index, List.getElem?_cons_succ]

/-! ### A run of the Resampler -/

theorem passedSamples_cons_some (x : SW) (rets : List Ret) :
    passedSamples (.optSample (some x) :: rets) = x :: passedSamples rets := rfl

theorem passedSamples_cons_none (rets : List Ret) :
    passedSamples (.optSample none :: rets) = passedSamples rets := rfl

/-- The Resampler passes the inputs at the distance `RS_DROP + 1`, from the counter's position on. -/
theorem runRets_rsUpdate {xs : List SW} {s : State} (up : s.acqUp = true)
    (range : s.acq.rsCnt.toNat ≤ s.cfg.rsDrop.toNat) :
    ∃ rets t, runRets (xs.map .rsUpdate) s = some (rets, t) ∧
      passedSamples rets = everyNth s.cfg.rsDrop.toNat (dropsAhead s.cfg.rsDrop s.acq.rsCnt) xs := by
  induction xs generalizing s with
  | nil => exact ⟨[], s, rfl, by simp [passedSamples, everyNth]⟩
  | cons x xs ih =>
    obtain ⟨rets, t, run, passed⟩ := ih (s := afterRs x s) up (rsUpdate_cnt_le range)
    have longer : runRets ((x :: xs).map .rsUpdate) s = some ((afterRs x s).ret :: rets, t) := by
      simp only [List.map_cons, runRets, exec_rsUpdate_of_le x up range, run, Option.map_some]
    refine ⟨_, t, longer, ?_⟩
    rw [afterRs_cfg, afterRs_rsCnt] at passed
    rw [afterRs_ret]
    by_cases zero : s.acq.rsCnt = 0
    · rw [zero, dropsAhead_after_pass] at passed
      rw [if_pos zero, passedSamples_cons_some, passed, zero, dropsAhead_zero, everyNth]
    · rw [if_neg zero, passedSamples_cons_none, passed, dropsAhead_after_drop range zero, everyNth]

/-- Settles O18: from counter 0 the first input passes, and the rest is counting. -/
theorem resamplerEmitsEveryNthSample : Obligations.ResamplerEmitsEveryNthSample := by
  intro xs s up zero
  obtain ⟨rets, t, run, passed⟩ := runRets_rsUpdate (xs := xs) up (by simp [zero])
  rw [zero, dropsAhead_zero] at passed
  refine ⟨rets, t, run, ?_, fun k _ => ?_⟩
  · rw [passed, length_everyNth (Nat.zero_le _), Nat.sub_zero]
  · rw [passed, getElem?_everyNth, Nat.zero_add]

/-! ### DC.UPDATE -/

/-- Settles O19: the new state is the rule's, and it is in `sW` or it is not. -/
theorem dcBlockerFollowsItsEquation : Obligations.DcBlockerFollowsItsEquation := by
  intro x s up Q d ya
  rw [exec_dcUpdate, acqOp_up up]
  constructor
  · intro fits
    rw [dcUpdate_of_inSW fits]
    rfl
  · intro leaves
    rw [dcUpdate_of_not_inSW leaves]
    rfl

/-- On a constant input the new state is `|DC.ya| × A / 2^Q` in magnitude (R145, corner case a). -/
theorem natAbs_dcNext_constant {c : Config} {a : Acq} {x : SW} (constant : a.dcXp = x) :
    (dcNext c a x).natAbs = c.dcA.toNat * a.dcYa.toInt.natAbs / 2 ^ c.dcQ.toNat := by
  rw [dcNext, constant, sub_self, zero_mul, zero_add, tdiv, Int.natAbs_tdiv, Int.natAbs_mul,
    Int.natAbs_natCast, Int.natAbs_pow]
  rfl

/-- The decay `A / 2^Q` is below 1 (R322), so the magnitude loses at least 1 until it is 0. -/
theorem natAbs_dcNext_constant_le {c : Config} (h : LegalBounds c) {a : Acq} {x : SW}
    (constant : a.dcXp = x) : (dcNext c a x).natAbs ≤ a.dcYa.toInt.natAbs - 1 := by
  rw [natAbs_dcNext_constant constant]
  rcases Nat.eq_zero_or_pos a.dcYa.toInt.natAbs with zero | pos
  · simp [zero]
  · exact Nat.le_sub_one_of_lt
      (Nat.div_lt_of_lt_mul (Nat.mul_lt_mul_of_pos_right h.a_lt pos))

/-- A call with the previous input again answers, and takes at least 1 from `|DC.ya|`. -/
theorem exec_dcUpdate_constant {x : SW} {s : State} (up : s.acqUp = true) (h : LegalBounds s.cfg)
    (constant : s.acq.dcXp = x) : ∃ ya y, ya.toInt.natAbs ≤ s.acq.dcYa.toInt.natAbs - 1 ∧
      exec (.dcUpdate x) s =
        .next ((s.withAcq { s.acq with dcXp := x, dcYa := ya }).withRet (.sample y)) := by
  have smaller := natAbs_dcNext_constant_le h constant
  have fits : InSW (dcNext s.cfg s.acq x) := by
    have start := inSW_toInt s.acq.dcYa
    unfold InSW at start ⊢
    omega
  rw [exec_dcUpdate, acqOp_up up, dcUpdate_of_inSW fits]
  exact ⟨_, _, by rwa [toInt_ofInt_of_inSW fits], rfl⟩

theorem eq_zero_of_natAbs_le_zero {w : SW} (h : w.toInt.natAbs ≤ 0) : w = 0 :=
  BitVec.eq_of_toInt_eq (Int.natAbs_eq_zero.1 (Nat.le_zero.1 h))

/-- As many calls as the magnitude of `DC.ya` take it to 0 (R146). -/
theorem runOps_dcUpdate_constant {x : SW} {n : Nat} {s : State} (up : s.acqUp = true)
    (h : LegalBounds s.cfg) (constant : s.acq.dcXp = x) (enough : s.acq.dcYa.toInt.natAbs ≤ n) :
    ∃ t, runOps (List.replicate n (.dcUpdate x)) s = .next t ∧ t.acq.dcYa = 0 := by
  induction n generalizing s with
  | zero => exact ⟨s, rfl, eq_zero_of_natAbs_le_zero enough⟩
  | succ n ih =>
    obtain ⟨ya, y, smaller, step⟩ := exec_dcUpdate_constant up h constant
    simp only [List.replicate_succ, runOps, step]
    exact ih up h rfl (smaller.trans (Nat.sub_le_of_le_add enough))

/-- Settles O21: each call takes at least 1 from the magnitude, so `n` calls take all of it. -/
theorem dcBlockerForgetsAConstant : Obligations.DcBlockerForgetsAConstant := by
  intro x s up legal constant
  refine ⟨?_, fun n enough => runOps_dcUpdate_constant up legal.bounds constant enough⟩
  obtain ⟨ya, y, smaller, step⟩ := exec_dcUpdate_constant up legal.bounds constant
  refine ⟨_, step, rfl, fun nonzero => ?_, fun zero => ?_⟩
  · refine lt_of_le_of_lt smaller (Nat.sub_one_lt fun vanished => nonzero ?_)
    exact eq_zero_of_natAbs_le_zero vanished.le
  · rw [zero] at smaller
    exact eq_zero_of_natAbs_le_zero smaller

/-! ### LV.UPDATE -/

/-- Settles O22: the classifier's next state is the rule's, and the attenuated sample is in `sW`. -/
theorem levelDetectorClassifies : Obligations.LevelDetectorClassifies := by
  intro x s up legal st
  have next : lvNext s.cfg s.acq.lvSt x = st := by
    unfold lvNext
    rw [← Int.abs_eq_natAbs]
  rw [exec_lvUpdate, acqOp_up up, lvUpdate_of_legal legal.bounds, next]
  rfl

end Sys2Proof.Machine
end

section
/-! PROOFS. The symbol probability detector (R160 to R162): the sums over its index sets, and the
threshold its score is held against. -/
namespace Sys2Proof.Machine

/-! ### Sums over an index set of a window (R160) -/

/-- An index beyond the window contributes 0 on one side and nothing on the other. -/
theorem sum_Ico_toInt_getD (S : List SW) (lo n : Nat) :
    ∑ i ∈ Finset.Ico lo (lo + n), (S.getD i 0).toInt =
      (((S.drop lo).take n).map BitVec.toInt).sum := by
  induction n with
  | zero => simp
  | succ n ih =>
    have last : (S.getD (lo + n) 0).toInt = (S[lo + n]?.toList.map BitVec.toInt).sum := by
      rw [List.getD_eq_getElem?_getD]
      cases S[lo + n]? <;> simp
    calc ∑ i ∈ Finset.Ico lo (lo + n + 1), (S.getD i 0).toInt
        = (((S.drop lo).take n).map BitVec.toInt).sum +
            (S[lo + n]?.toList.map BitVec.toInt).sum := by
          rw [Finset.sum_Ico_succ_top (Nat.le_add_right lo n), ih, last]
      _ = (((S.drop lo).take (n + 1)).map BitVec.toInt).sum := by
          rw [List.take_add_one, List.getElem?_drop, List.map_append, List.sum_append]

/-- An index set of R160 is closed at both ends; the model gives its first index and its size. -/
theorem sum_Icc_toInt_getD (S : List SW) {lo hi n : Nat} (size : hi + 1 = lo + n) :
    ∑ i ∈ Finset.Icc lo hi, (S.getD i 0).toInt = (((S.drop lo).take n).map BitVec.toInt).sum := by
  rw [← Finset.Ico_add_one_right_eq_Icc, size, sum_Ico_toInt_getD]

/-! ### BD.UPDATE (R162) -/

/-- The law of BD.UPDATE on full windows, its two sums over `PULSE` and over `LEAD` and `TAIL` (R160). -/
theorem bdUpdate_of_full {c : Config} {a : Acq} (x : SW) (h : LegalBounds c)
    (fullRaw : a.bdRaw.length = osr c) (fullAb : a.bdAb.length = osr c) :
    let raw := a.bdRaw.tail ++ [x]
    let ab := a.bdAb.tail ++ [BitVec.ofInt 32 |x.toInt|]
    let high := ∑ i ∈ Finset.Icc 1 (osr c / 2), (raw.getD i 0).toInt
    let energy := (ab.getD 0 0).toInt +
      ∑ i ∈ Finset.Icc (osr c / 2 + 1) (osr c - 1), (ab.getD i 0).toInt
    bdUpdate c a x =
      if InSW |x.toInt| ∧ InSW high ∧ InSW energy ∧ InSW (symbolProb c high energy) then
        .ok ({ a with bdRaw := raw, bdAb := ab }, BitVec.ofInt 32 (symbolProb c high energy))
      else .error .overflow := by
  have four := h.osr_ge
  have pulseSize : osr c / 2 + 1 = 1 + osr c / 2 := Nat.add_comm _ _
  have tailSize : osr c - 1 + 1 = osr c / 2 + 1 + (osr c - 1 - osr c / 2) := by omega
  simp only [sum_Icc_toInt_getD _ pulseSize, sum_Icc_toInt_getD _ tailSize, Int.abs_eq_natAbs]
  exact bdUpdate_of_length x h fullRaw fullAb

/-- Settles O23: the law of BD.UPDATE on full windows; `T` is `RX_THRESH` (R161) and `p` the value
reported for the two sums (R162). -/
theorem bitDetectorScoresTheWindow : Obligations.BitDetectorScoresTheWindow := by
  intro x s up legal fullRaw fullAb N T raw ab hc ae p fits
  have law : bdUpdate s.cfg s.acq x =
      if fits then .ok ({ s.acq with bdRaw := raw, bdAb := ab }, BitVec.ofInt 32 p)
      else .error .overflow := bdUpdate_of_full x legal.bounds fullRaw fullAb
  rw [exec_bdUpdate, acqOp_up up, law]
  constructor
  · intro answers
    rw [if_pos answers]
    rfl
  · intro overflows
    rw [if_neg overflows]
    rfl

end Sys2Proof.Machine
end

section
/-! PROOFS. The reading of one phase (R177) and the search over the phases (R178): what each check of a
phase says of the values at its ticks, and which phase the search returns. -/
namespace Sys2Proof.Machine

/-! ### The slots of a phase -/

/-- The value at the tick of slot `b` of phase `q` (R171, R177). -/
def tickValue (c : Config) (ph : List SW) (q b : Nat) : SW := ph.getD (b * osr c + q) 0

theorem slotValues_eq_map (c : Config) (ph : List SW) (q : Nat) :
    slotValues c ph q = (List.range (slots c)).map (tickValue c ph q) := rfl

theorem slotBit_map_range (v : Nat → SW) {b n : Nat} (h : b < n) :
    slotBit ((List.range n).map v) b = decide (v b = 0) := by
  rw [slotBit, List.getD_eq_getElem _ _ (by simpa using h)]
  simp only [List.getElem_map, List.getElem_range, beq_eq_decide]

theorem confidence_map_range (v : Nat → SW) (n : Nat) :
    confidence ((List.range n).map v) = ∑ b ∈ Finset.range n, (v b).toInt.natAbs := by
  rw [confidence, List.map_map]
  rfl

/-! ### The data bits and the parity check -/

/-- The number with the binary digits `f 0, …, f (n-1)`. -/
def bitSum (f : Nat → Bool) (n : Nat) : Nat := ((List.range n).map fun k => if f k then 2 ^ k else 0).sum

theorem bitSum_succ (f : Nat → Bool) (n : Nat) :
    bitSum f (n + 1) = bitSum f n + if f n then 2 ^ n else 0 := by
  simp [bitSum, List.range_succ]

theorem bitSum_lt (f : Nat → Bool) (n : Nat) : bitSum f n < 2 ^ n := by
  induction n with
  | zero => simp [bitSum]
  | succ n ih =>
    rw [bitSum_succ, Nat.pow_succ]
    split <;> omega

theorem testBit_bitSum (f : Nat → Bool) {k n : Nat} (h : k < n) : (bitSum f n).testBit k = f k := by
  induction n with
  | zero => exact absurd h (Nat.not_lt_zero k)
  | succ n ih =>
    rw [bitSum_succ, Nat.add_comm]
    rcases Nat.lt_succ_iff_lt_or_eq.1 h with lower | rfl
    · cases f n with
      | false => simpa using ih lower
      | true => simpa using (Nat.testBit_two_pow_add_gt lower (bitSum f n)).trans (ih lower)
    · have clear : (bitSum f k).testBit k = false := Nat.testBit_lt_two_pow (bitSum_lt f k)
      cases hf : f k with
      | false => simpa using clear
      | true => simp [Nat.testBit_two_pow_add_eq, clear]

/-- Bit `k` of the byte is the bit of slot `1 + k` (R65, R177). -/
theorem getLsbD_dataBits (v : List SW) {k : Nat} (h : k < 8) :
    (dataBits v).getLsbD k = slotBit v (1 + k) := by
  have bits : dataBits v = BitVec.ofNat 8 (bitSum (fun k => slotBit v (1 + k)) 8) := rfl
  rw [bits, BitVec.getLsbD_ofNat, testBit_bitSum _ h, decide_eq_true h, Bool.true_and]

theorem popcount_eq_card (b : Byte) :
    popcount b = ((Finset.range 8).filter fun k => b.getLsbD k = true).card := by
  rw [← Nat.count_eq_card_filter_range, Nat.count, popcount]
  simp only [Bool.decide_eq_true]

/-- The 1s among the data bits and the parity bit (R177). -/
def onesReceived (v : Nat → SW) : Nat :=
  ((Finset.range 8).filter fun k => v (1 + k) = 0).card + if v 9 = 0 then 1 else 0

theorem ones_map_range (v : Nat → SW) {n : Nat} (h : 10 ≤ n) :
    popcount (dataBits ((List.range n).map v)) +
      (if slotBit ((List.range n).map v) 9 then 1 else 0) = onesReceived v := by
  have data : ∀ k ∈ Finset.range 8,
      ((dataBits ((List.range n).map v)).getLsbD k = true ↔ v (1 + k) = 0) := by
    intro k hk
    have hk := Finset.mem_range.1 hk
    rw [getLsbD_dataBits _ hk, slotBit_map_range v (by omega), decide_eq_true_iff]
  rw [popcount_eq_card, Finset.filter_congr data, slotBit_map_range v (by omega), onesReceived]
  simp only [decide_eq_true_iff]

theorem parityOk_none {c : Config} (h : c.parity = 0) (v : List SW) : parityOk c v = true := by
  simp [parityOk, par, h]

theorem parityOk_even {c : Config} (h : c.parity = 1) (v : Nat → SW) :
    parityOk c ((List.range (slots c)).map v) = true ↔ Even (onesReceived v) := by
  rw [← ones_map_range v (slots_ge c), Nat.even_iff]
  simp [parityOk, par, h]

theorem parityOk_odd {c : Config} (h : c.parity = 2) (v : Nat → SW) :
    parityOk c ((List.range (slots c)).map v) = true ↔ Odd (onesReceived v) := by
  rw [← ones_map_range v (slots_ge c), Nat.odd_iff]
  simp [parityOk, par, h]

/-! ### The alternation check -/

theorem alternates_iff_isChain (vs : List SW) :
    alternates vs = true ↔ vs.IsChain fun x y => ¬ (x.toInt < 0 ↔ y.toInt < 0) := by
  induction vs with
  | nil => simp [alternates]
  | cons x vs ih =>
    cases vs with
    | nil => simp [alternates]
    | cons y rest =>
      rw [alternates, Bool.and_eq_true, ih, List.isChain_cons_cons, bne_iff_ne, ne_eq, decide_eq_decide]

/-- In an increasing list the neighbours are the members with no member between them. -/
theorem isChain_iff_of_pairwise_lt {R : Nat → Nat → Prop} {l : List Nat} (sorted : l.Pairwise (· < ·)) :
    l.IsChain R ↔ ∀ i ∈ l, ∀ j ∈ l, i < j → (∀ k ∈ l, i < k → ¬ k < j) → R i j := by
  induction l with
  | nil => simp
  | cons a l ih =>
    cases l with
    | nil => simp
    | cons b rest =>
      obtain ⟨least, sortedTail⟩ := List.pairwise_cons.1 sorted
      obtain ⟨next, -⟩ := List.pairwise_cons.1 sortedTail
      rw [List.isChain_cons_cons, ih sortedTail]
      constructor
      · rintro ⟨hab, tail⟩ i hi j hj hij between
        rcases List.mem_cons.1 hj with rfl | hjTail
        · rcases List.mem_cons.1 hi with rfl | hiTail
          · exact absurd hij (Nat.lt_irrefl _)
          · exact absurd hij (Nat.lt_asymm (least i hiTail))
        · rcases List.mem_cons.1 hi with rfl | hiTail
          · rcases List.mem_cons.1 hjTail with rfl | hjRest
            · exact hab
            · exact absurd (next j hjRest) (between b (by simp) (least b (by simp)))
          · exact tail i hiTail j hjTail hij fun k hk => between k (List.mem_cons_of_mem a hk)
      · intro h
        refine ⟨h a (by simp) b (by simp) (least b (by simp)) fun k hk hak hkb => ?_, ?_⟩
        · rcases List.mem_cons.1 hk with rfl | hk
          · exact Nat.lt_irrefl _ hak
          · rcases List.mem_cons.1 hk with rfl | hk
            · exact Nat.lt_irrefl _ hkb
            · exact Nat.lt_asymm hkb (next k hk)
        · intro i hi j hj hij between
          refine h i (List.mem_cons_of_mem a hi) j (List.mem_cons_of_mem a hj) hij fun k hk hik => ?_
          rcases List.mem_cons.1 hk with rfl | hk
          · exact absurd hik (Nat.lt_asymm (least i hi))
          · exact between k hk hik

/-- The sign of a value that is not 0: not negative is positive. -/
theorem not_neg_iff_neg_iff {x y : SW} (hy : y ≠ 0) :
    ¬ (x.toInt < 0 ↔ y.toInt < 0) ↔ (x.toInt < 0 ↔ 0 < y.toInt) := by
  have nonzero : y.toInt ≠ 0 := fun h => hy (BitVec.eq_of_toInt_eq h)
  omega

/-- The alternation check over the slots (R177): two non-zero values with only zeros between them have
opposite signs. -/
theorem altOk_map_range (v : Nat → SW) (n : Nat) :
    altOk ((List.range n).map v) = true ↔
      ∀ b1 b2, b1 < b2 → b2 < n → v b1 ≠ 0 → v b2 ≠ 0 →
        (∀ b, b1 < b → b < b2 → v b = 0) → ((v b1).toInt < 0 ↔ 0 < (v b2).toInt) := by
  rw [altOk, alternates_iff_isChain, List.filter_map, List.isChain_map,
    isChain_iff_of_pairwise_lt (List.pairwise_lt_range.filter _)]
  simp only [List.mem_filter, List.mem_range, Function.comp_apply, bne_iff_ne]
  constructor
  · intro h b1 b2 lt inside pulse1 pulse2 quiet
    refine (not_neg_iff_neg_iff pulse2).1
      (h b1 ⟨lt.trans inside, pulse1⟩ b2 ⟨inside, pulse2⟩ lt fun b hb after before => ?_)
    exact hb.2 (quiet b after before)
  · intro h b1 h1 b2 h2 lt between
    refine (not_neg_iff_neg_iff h2.2).2 (h b1 b2 lt h2.1 h1.2 h2.2 fun b after before => ?_)
    by_contra pulse
    exact between b ⟨before.trans h2.1, pulse⟩ after before

theorem frameOk_map_range {c : Config} (v : Nat → SW) :
    frameOk c ((List.range (slots c)).map v) = true ↔
      v 0 ≠ 0 ∧ v (slots c - 1) = 0 ∧ altOk ((List.range (slots c)).map v) = true := by
  have ten := slots_ge c
  rw [frameOk, slotBit_map_range v (by omega), slotBit_map_range v (by omega)]
  simp [and_assoc]

/-- Settles O28: each check of R177 is read at the values of the phase's ticks. -/
theorem phaseIsReadAsTheRuleSays : Obligations.PhaseIsReadAsTheRuleSays := by
  intro c ph q _ v e ones
  have ten := slots_ge c
  refine ⟨confidence_map_range v _, fun k hk => ?_, fun h => parityOk_none h _,
    fun h => parityOk_even h v, fun h => parityOk_odd h v, ?_⟩
  · have bit : e.data.getLsbD k = slotBit (slotValues c ph q) (1 + k) := getLsbD_dataBits _ hk
    rw [bit, slotValues_eq_map]
    exact slotBit_map_range v (by omega)
  · rw [← altOk_map_range v (slots c)]
    exact frameOk_map_range v

/-! ### The search (R178) -/

theorem mem_allPhases {c : Config} {ph : List SW} {e : PhaseEval} :
    e ∈ allPhases c ph ↔ ∃ q, q < osr c / 2 ∧ evalPhase c ph q = e := by
  simp [allPhases]

theorem allPhases_pairwise (c : Config) (ph : List SW) :
    (allPhases c ph).Pairwise fun e f => e.phase < f.phase :=
  List.pairwise_map.2 List.pairwise_lt_range

theorem passes_iff {e : PhaseEval} : passes e = true ↔ e.frmOk = true ∧ e.parOk = true := by
  rw [passes, Bool.and_eq_true]

/-- The candidates are the passing phases, or all phases where none passes (R178). -/
theorem mem_candidates {es : List PhaseEval} {e : PhaseEval} :
    e ∈ candidates es ↔ e ∈ es ∧ (passes e = true ∨ ¬ ∃ f ∈ es, passes f = true) := by
  unfold candidates
  split
  · rename_i empty
    have noPass : ¬ ∃ f ∈ es, passes f = true := by
      simpa [List.filter_eq_nil_iff] using List.isEmpty_iff.1 empty
    exact ⟨fun he => ⟨he, .inr noPass⟩, fun he => he.1⟩
  · rename_i nonempty
    have pass : ∃ f ∈ es, passes f = true := by
      simpa [List.filter_eq_nil_iff] using mt List.isEmpty_iff.2 nonempty
    simp [List.mem_filter, pass]

theorem candidates_sublist (es : List PhaseEval) : (candidates es).Sublist es := by
  unfold candidates
  split
  · exact List.Sublist.refl es
  · exact List.filter_sublist

/-- Every member before the most confident one is less confident: the first maximum wins. -/
theorem conf_lt_mostConfident {es : List PhaseEval} {m : PhaseEval}
    (sorted : es.Pairwise fun e f => e.phase < f.phase) (h : mostConfident es = some m) :
    ∀ e ∈ es, e.phase < m.phase → e.conf < m.conf := by
  induction es generalizing m with
  | nil => simp
  | cons x es ih =>
    obtain ⟨least, sortedTail⟩ := List.pairwise_cons.1 sorted
    intro e he before
    have notHead (head : m = x) : False := by
      subst head
      rcases List.mem_cons.1 he with rfl | he
      · exact Nat.lt_irrefl _ before
      · exact Nat.lt_asymm before (least e he)
    simp only [mostConfident] at h
    split at h
    · exact (notHead (Option.some.inj h).symm).elim
    · rename_i k hk
      split at h
      · rename_i larger
        obtain rfl := Option.some.inj h
        rcases List.mem_cons.1 he with rfl | he
        · exact larger
        · exact ih sortedTail hk e he before
      · exact (notHead (Option.some.inj h).symm).elim

/-- Settles O29: the search returns the reading of the first most confident candidate. -/
theorem searchPicksTheMostConfidentPassingPhase :
    Obligations.SearchPicksTheMostConfidentPassingPhase := by
  intro s up legal full e good
  obtain ⟨q, hq, best, found⟩ := phaseSearch_of_length legal.bounds full
  have somePasses : (∃ f ∈ allPhases s.cfg s.acq.udPh, passes f = true) ↔
      ∃ r, r < osr s.cfg / 2 ∧ good r := by
    simp only [mem_allPhases, passes_iff]
    constructor
    · rintro ⟨_, ⟨r, hr, rfl⟩, hg⟩
      exact ⟨r, hr, hg⟩
    · rintro ⟨r, hr, hg⟩
      exact ⟨_, ⟨r, hr, rfl⟩, hg⟩
  have candidate_iff {r : Nat} (hr : r < osr s.cfg / 2) :
      e r ∈ candidates (allPhases s.cfg s.acq.udPh) ↔
        good r ∨ ¬ ∃ r', r' < osr s.cfg / 2 ∧ good r' := by
    rw [mem_candidates, somePasses, passes_iff]
    exact and_iff_right (mem_allPhases.2 ⟨r, hr, rfl⟩)
  have sorted := (allPhases_pairwise s.cfg s.acq.udPh).sublist (candidates_sublist _)
  refine ⟨q, hq, ?_, fun passing => ?_, fun r hr candidate => ⟨?_, fun before => ?_⟩⟩
  · rw [exec_udPhaseSearch, acqOp_up up, found]
    simp only [bne, beq_eq_decide, ← decide_not]
    rfl
  · exact ((candidate_iff hq).1 (mostConfident_mem best)).resolve_right (not_not_intro passing)
  · exact conf_le_mostConfident best _ ((candidate_iff hr).2 candidate)
  · exact conf_lt_mostConfident sorted best _ ((candidate_iff hr).2 candidate) before

/-! ### The quiet buffer (R178, corner case a) -/

theorem tickValue_replicate (c : Config) (n q b : Nat) :
    tickValue c (List.replicate n 0) q b = 0 := by
  rw [tickValue, List.getD_eq_getElem?_getD, List.getElem?_getD_replicate_default_eq]

/-- All bits of the byte and the parity bit are 1, nine of them, and no slot has a pulse. -/
theorem evalPhase_quiet {c : Config} (legal : c.parity.toNat ≤ 2) (n q : Nat) :
    (evalPhase c (List.replicate n 0) q).data = 0xFF ∧
    (evalPhase c (List.replicate n 0) q).parOk = decide (c.parity ≠ 1) ∧
    (evalPhase c (List.replicate n 0) q).frmOk = false := by
  have zero : ∀ b, (List.replicate n (0 : SW)).getD (b * osr c + q) 0 = 0 := tickValue_replicate c n q
  obtain ⟨-, data, unchecked, even, odd, frame⟩ := phaseIsReadAsTheRuleSays c (List.replicate n 0) q legal
  simp only [zero] at data even odd frame
  refine ⟨?_, ?_, ?_⟩
  · refine BitVec.eq_of_getLsbD_eq fun k hk => ?_
    rw [data k hk]
    have ones : ∀ k < 8, true = (0xFF : Byte).getLsbD k := by decide
    simpa using ones k hk
  · have codes : c.parity = 0 ∨ c.parity = 1 ∨ c.parity = 2 := by bv_omega
    rcases codes with code | code | code
    · rw [unchecked code, code]
      rfl
    · have nine : ¬ Even 9 := by decide
      simpa [code, nine] using even code
    · have nine : Odd 9 := by decide
      simpa [code, nine] using odd code
  · exact Bool.eq_false_iff.2 fun ok => (frame.1 ok).1 rfl

/-- Settles O30: whichever phase the search returns reads the same. -/
theorem quietBufferIsAFramingError : Obligations.QuietBufferIsAFramingError := by
  intro s up legal quiet
  obtain ⟨q, -, found, -⟩ :=
    searchPicksTheMostConfidentPassingPhase s up legal (by rw [quiet, List.length_replicate])
  obtain ⟨data, parity, frame⟩ := evalPhase_quiet legal.bounds.parity_le (dataLen s.cfg) q
  rw [quiet, data, parity, frame, Bool.false_and] at found
  exact found

end Sys2Proof.Machine
end

section
/-! PROOFS. The decoder's state machine (R172 to R176, R180, R181): UD.UPDATE is the arm of its state, so
a run of it is told by the statements about the arms. -/
namespace Sys2Proof.Machine

/-! ### The arms -/

/-- UD.UPDATE is the arm of the state before the call (R172), whatever it answers. -/
theorem exec_udUpdate_eq_arm (p : SW) (s : State) :
    exec (.udUpdate p) s = exec (udArmOf s.acq.udSt p) s := by
  have selected (r : Except Fault State) : acqOp s r = udArm s s.acq.udSt r := by
    cases up : s.acqUp <;> simp [acqOp, udArm, up]
  cases st : s.acq.udSt <;> rw [st] at selected
  case waitIdle => simp only [udArmOf, exec, execUdUpdate, execUdWaitIdle, udUpdate, st, selected]
  case waitStart => simp only [udArmOf, exec, execUdUpdate, execUdWaitStart, udUpdate, st, selected]
  case data => simp only [udArmOf, exec, execUdUpdate, execUdData, udUpdate, st, selected]
  case stop => simp only [udArmOf, exec, execUdUpdate, execUdStop, udUpdate, st, selected]

/-- Settles O27: under R181 the update answers, and it is the arm of the state. -/
theorem updateRunsTheArmOfTheState : Obligations.UpdateRunsTheArmOfTheState := by
  intro p s up legal inv
  obtain ⟨-, -, -, full, -, counting, -⟩ := inv
  obtain ⟨r, answer⟩ := udUpdate_answers p legal.bounds full counting.2
  have update : exec (.udUpdate p) s = .next ((s.withAcq r.1).withRet (.optByteEvent r.2)) := by
    rw [exec, execUdUpdate, acqOp_up up, answer]
    rfl
  exact ⟨_, update, (exec_udUpdate_eq_arm p s).symm.trans update⟩

/-- Settles O24: the cases of the two arms are whether the probability is 0. -/
theorem startNeedsTwoConsecutiveHits : Obligations.StartNeedsTwoConsecutiveHits := by
  intro p s up
  refine ⟨fun st => ?_, fun st hit => ?_, fun st miss => ?_, dataLen_lt s.cfg⟩
  · rw [exec, execUdWaitIdle, udArm_selected up st, udWaitIdleArm]
    by_cases miss : p = 0
    · simp only [miss, if_true, ne_eq, not_true_eq_false, if_false, ← st]
      rfl
    · simp only [miss, if_false, ne_eq, not_false_eq_true, if_true]
      rfl
  · rw [exec, execUdWaitStart, udArm_selected up st, udWaitStartArm_of_hit hit]
    rfl
  · rw [exec, execUdWaitStart, udArm_selected up st, udWaitStartArm, if_pos miss]
    rfl

/-- Settles O25: a countdown above 0 takes its next value without overflow. -/
theorem dataArmStoresAndCountsDown : Obligations.DataArmStoresAndCountsDown := by
  intro p s up st ph counting
  have last : s.acq.udCnt - 1 = 0 ↔ s.acq.udCnt = 1 := sub_eq_zero
  rw [exec, execUdData, udArm_selected up st, udDataArm_of_pos ph counting]
  simp only [last, st]
  rfl

theorem phaseSearch_answers {c : Config} {a : Acq} (hc : LegalBounds c)
    (full : a.udPh.length = dataLen c) : ∃ e, phaseSearch c a = .ok e := by
  obtain ⟨q, -, -, found⟩ := phaseSearch_of_length hc full
  exact ⟨_, found⟩

/-- Settles O26: the arm and UD.PHASE_SEARCH run the same search. -/
theorem stopArmEmitsTheSearchedByte : Obligations.StopArmEmitsTheSearchedByte := by
  intro p s up st legal full
  obtain ⟨e, found⟩ := phaseSearch_answers legal.bounds full
  refine ⟨e, ?_, ?_⟩
  · rw [exec_udPhaseSearch, acqOp_up up, found]
    rfl
  · rw [exec, execUdStop, udArm_selected up st, udStopArm, found]
    rfl

/-- Settles O33: the flag of R180 is the test of the state register. -/
theorem receivingIsEveryStateButWaitIdle : Obligations.ReceivingIsEveryStateButWaitIdle := by
  intro s up
  have flag : receiving s.acq = decide (s.acq.udSt ≠ .waitIdle) := by
    rw [receiving, bne, beq_eq_decide, decide_not]
  rw [exec, execUdReceiving, acqOp_up up, flag]
  rfl

/-! ### Runs of UD.UPDATE -/

/-- A run begins with its first operation. -/
theorem runRets_cons_of_next {i : Instr} {is : List Instr} {s n t : State} {rets : List Ret}
    (first : exec i s = .next n) (rest : runRets is n = some (rets, t)) :
    runRets (i :: is) s = some (n.ret :: rets, t) := by
  simp only [runRets, first, rest, Option.map_some]

/-- Settles O32: each call is the WaitIdle arm on a zero probability. -/
theorem quietLineStaysIdle : Obligations.QuietLineStaysIdle := by
  intro n
  induction n with
  | zero => exact fun s _ _ => ⟨s, rfl, rfl, rfl, rfl, rfl, rfl⟩
  | succ n ih =>
    intro s up st
    have quiet : exec (.udUpdate 0) s = .next (s.withRet (.optByteEvent none)) := by
      rw [exec_udUpdate_eq_arm, st]
      refine ((startNeedsTwoConsecutiveHits 0 s up).1 st).trans ?_
      simp only [ne_eq, not_true_eq_false, if_false, ← st]
      rfl
    obtain ⟨t, run, kept⟩ := ih (s.withRet (.optByteEvent none)) up st
    exact ⟨t, runRets_cons_of_next quiet run, kept⟩

/-- The states between the confirmed start and the end of a frame with `n` probabilities still to come
(R181): the countdown is `n`, and the decoder is in Data until it has run out. -/
structure Collecting (n : Nat) (s : State) : Prop where
  up : s.acqUp = true
  cnt : s.acq.udCnt.toNat = n
  st : s.acq.udSt = if s.acq.udCnt = 0 then .stop else .data

/-- The state after a Data call (R175). -/
def afterData (p : SW) (s : State) : State :=
  { s with
    acq := { s.acq with
      udPh := s.acq.udPh.tail ++ [p]
      udCnt := s.acq.udCnt - 1
      udSt := if s.acq.udCnt = 1 then .stop else .data }
    ret := .optByteEvent none }

theorem Collecting.exec_udUpdate {n : Nat} {s : State} (h : Collecting (n + 1) s)
    (ph : s.acq.udPh ≠ []) (p : SW) : exec (.udUpdate p) s = .next (afterData p s) := by
  have counting : 0 < s.acq.udCnt.toNat := h.cnt ▸ Nat.succ_pos n
  have st : s.acq.udSt = .data := by
    rw [h.st, if_neg fun zero => by simp [zero] at counting]
  rw [exec_udUpdate_eq_arm, st]
  exact dataArmStoresAndCountsDown p s h.up st ph counting

theorem Collecting.afterData {n : Nat} {s : State} (h : Collecting (n + 1) s) (p : SW) :
    Collecting n (Machine.afterData p s) where
  up := h.up
  cnt := (udCnt_pred (h.cnt ▸ Nat.succ_pos n)).trans (by rw [h.cnt, Nat.add_sub_cancel])
  st := by simp only [Machine.afterData, sub_eq_zero]

/-- The probabilities still to come are stored in order, and then the decoder is in Stop (R175, R181). -/
theorem Collecting.runRets {ps : List SW} {s : State} (h : Collecting ps.length s)
    (fits : ps.length ≤ s.acq.udPh.length) :
    ∃ t, Machine.runRets (ps.map .udUpdate) s =
        some (List.replicate ps.length (.optByteEvent none), t) ∧
      Collecting 0 t ∧ t.cfg = s.cfg ∧ t.acq.udPh = s.acq.udPh.drop ps.length ++ ps := by
  induction ps generalizing s with
  | nil => exact ⟨s, rfl, h, rfl, by simp⟩
  | cons p ps ih =>
    have ph : s.acq.udPh ≠ [] := List.ne_nil_of_length_pos (Nat.lt_of_lt_of_le (Nat.succ_pos _) fits)
    have fitsRest : ps.length ≤ (Machine.afterData p s).acq.udPh.length := by
      simp only [Machine.afterData, List.length_append, List.length_tail, List.length_singleton]
      exact (Nat.le_sub_one_of_lt fits).trans (Nat.le_succ _)
    obtain ⟨t, run, done, cfg, stored⟩ := ih (h.afterData p) fitsRest
    refine ⟨t, runRets_cons_of_next (h.exec_udUpdate ph p) run, done, cfg, ?_⟩
    rw [stored]
    exact drop_tail_append_append fits

/-- The state after a confirmed start (R174). -/
def afterStart (s : State) : State :=
  { s with
    acq := { s.acq with udSt := .data, udCnt := BitVec.ofNat 16 (dataLen s.cfg) }
    ret := .optByteEvent none }

theorem afterStart_collecting {s : State} (up : s.acqUp = true) (legal : LegalBounds s.cfg) :
    Collecting (dataLen s.cfg) (afterStart s) := by
  have cnt : (afterStart s).acq.udCnt.toNat = dataLen s.cfg := by
    rw [afterStart, BitVec.toNat_ofNat, Nat.mod_eq_of_lt (dataLen_lt s.cfg)]
  have counting : (afterStart s).acq.udCnt ≠ 0 := fun zero => by
    have positive := dataLen_pos legal
    rw [← cnt, zero] at positive
    exact Nat.lt_irrefl 0 positive
  exact ⟨up, cnt, (if_neg counting).symm⟩

/-- The state after a first hit (R173). -/
def afterHit (s : State) : State :=
  { s with acq := { s.acq with udSt := .waitStart }, ret := .optByteEvent none }

theorem exec_udUpdate_hit {p : SW} {s : State} (up : s.acqUp = true) (st : s.acq.udSt = .waitIdle)
    (hit : p ≠ 0) : exec (.udUpdate p) s = .next (afterHit s) := by
  rw [exec_udUpdate_eq_arm, st]
  refine ((startNeedsTwoConsecutiveHits p s up).1 st).trans ?_
  rw [if_pos hit]
  rfl

theorem exec_udUpdate_start {p : SW} {s : State} (up : s.acqUp = true) (st : s.acq.udSt = .waitStart)
    (hit : p ≠ 0) : exec (.udUpdate p) s = .next (afterStart s) := by
  rw [exec_udUpdate_eq_arm, st]
  exact (startNeedsTwoConsecutiveHits p s up).2.1 st hit

/-- Settles O31: a hit, a confirmed start, the run of the Data calls, and the Stop arm. -/
theorem oneFrameGivesOneEvent : Obligations.OneFrameGivesOneEvent := by
  intro p1 p2 p3 ps s up legal inv idle hit1 hit2 len
  obtain ⟨-, -, -, full, -⟩ := inv
  have collecting : Collecting ps.length (afterStart (afterHit s)) :=
    len ▸ afterStart_collecting (s := afterHit s) up legal.bounds
  obtain ⟨t, run, done, cfg, stored⟩ := collecting.runRets (len.trans full.symm).le
  have cnt : t.acq.udCnt = 0 := BitVec.eq_of_toNat_eq done.cnt
  have st : t.acq.udSt = .stop := by rw [done.st, if_pos cnt]
  have buffer : t.acq.udPh = ps := by
    have old : (afterStart (afterHit s)).acq.udPh.length ≤ ps.length := (full.trans len.symm).le
    rw [stored, List.drop_of_length_le old, List.nil_append]
  have cfg : t.cfg = s.cfg := cfg
  obtain ⟨e, -, event⟩ := stopArmEmitsTheSearchedByte p3 t done.up st (cfg ▸ legal)
    (by rw [buffer, len, cfg])
  refine ⟨t, e, ?_, st, buffer, cnt, ?_⟩
  · rw [← len]
    exact runRets_cons_of_next (exec_udUpdate_hit up idle hit1)
      (runRets_cons_of_next (exec_udUpdate_start (s := afterHit s) up rfl hit2) run)
  · rw [exec_udUpdate_eq_arm, st]
    exact event

end Sys2Proof.Machine
end

section
/-! PROOFS. The line-busy tracker (R202, R203): what one call does, and the debounce that a run of it on
a quiet line makes. -/
namespace Sys2Proof.Machine

/-! ### One call -/

/-- The state after a call on a quiet sample while the line is busy (R202): the countdown falls by 1, and
at 0 the line is free. -/
def afterQuiet (s : State) : State :=
  { s with
    acq := { s.acq with
      lbBusy := decide (s.acq.lbCnt ≠ 1)
      lbPrev := false
      lbCnt := s.acq.lbCnt - 1 }
    ret := .edges false (decide (s.acq.lbCnt = 1)) }

theorem exec_lbUpdate_rising {s : State} (up : s.acqUp = true) (prev : s.acq.lbPrev = false) :
    exec (.lbUpdate true) s = .next { s with
      acq := { s.acq with
        lbBusy := true, lbPrev := true, lbCnt := BitVec.ofNat 32 (idleTimeout s.cfg) }
      ret := .edges (!s.acq.lbBusy) false } := by
  rw [exec_lbUpdate, acqOp_up up, lbUpdate_rising s.cfg prev]
  rfl

theorem exec_lbUpdate_quiet {s : State} (up : s.acqUp = true) (busy : s.acq.lbBusy = true)
    (counting : 0 < s.acq.lbCnt.toNat) : exec (.lbUpdate false) s = .next (afterQuiet s) := by
  have last : s.acq.lbCnt - 1 = 0 ↔ s.acq.lbCnt = 1 := sub_eq_zero
  rw [exec_lbUpdate, acqOp_up up, lbUpdate_counting s.cfg busy counting]
  simp only [bne, beq_eq_decide, last, ← decide_not]
  rfl

theorem exec_lbUpdate_still {rcv : Bool} {s : State} (up : s.acqUp = true)
    (still : (rcv = true ∧ s.acq.lbPrev = true) ∨ (rcv = false ∧ s.acq.lbBusy = false)) :
    exec (.lbUpdate rcv) s = .next { s with
      acq := { s.acq with lbPrev := rcv }, ret := .edges false false } := by
  rw [exec_lbUpdate, acqOp_up up, lbUpdate_still s.cfg still]
  rfl

/-- Settles O34: the three cases are the branches of LB.UPDATE; R203 keeps the countdown from
underflow. -/
theorem lineBusyTracksReceiving : Obligations.LineBusyTracksReceiving := by
  intro rcv s up counting
  refine ⟨?rising, ?quiet, exec_lbUpdate_still up, idleTimeout_lt s.cfg⟩
  case rising =>
    rintro ⟨rfl, prev⟩
    exact exec_lbUpdate_rising up prev
  case quiet =>
    rintro ⟨rfl, busy⟩
    have positive : 0 < s.acq.lbCnt.toNat :=
      Nat.pos_of_ne_zero fun zero => counting busy (BitVec.eq_of_toNat_eq zero)
    exact exec_lbUpdate_quiet up busy positive

/-! ### The debounce (R202, corner case b) -/

/-- A busy line with `n` quiet samples still to come before the free edge (R203). -/
structure CountingDown (n : Nat) (s : State) : Prop where
  up : s.acqUp = true
  busy : s.acq.lbBusy = true
  cnt : s.acq.lbCnt.toNat = n

theorem CountingDown.exec_quiet {n : Nat} {s : State} (h : CountingDown (n + 1) s) :
    exec (.lbUpdate false) s = .next (afterQuiet s) :=
  exec_lbUpdate_quiet h.up h.busy (h.cnt ▸ Nat.succ_pos n)

theorem CountingDown.cnt_eq_one_iff {n : Nat} {s : State} (h : CountingDown (n + 1) s) :
    s.acq.lbCnt = 1 ↔ n = 0 := by
  have one : (1 : BitVec 32).toNat = 1 := rfl
  rw [← BitVec.toNat_inj, h.cnt, one]
  omega

/-- A quiet sample that is not the last raises no edge and leaves the line busy. -/
theorem CountingDown.afterQuiet {n : Nat} {s : State} (h : CountingDown (n + 2) s) :
    CountingDown (n + 1) (Machine.afterQuiet s) ∧ (Machine.afterQuiet s).ret = .edges false false := by
  have notLast : s.acq.lbCnt ≠ 1 := mt h.cnt_eq_one_iff.1 (Nat.succ_ne_zero n)
  have cnt : (s.acq.lbCnt - 1).toNat = n + 1 := by
    rw [lbCnt_pred (h.cnt ▸ Nat.succ_pos _), h.cnt, Nat.add_succ_sub_one]
  exact ⟨⟨h.up, decide_eq_true notLast, cnt⟩, congrArg (Ret.edges false) (decide_eq_false notLast)⟩

/-- The quiet samples of a countdown raise no edge but the free edge of the last one. -/
theorem CountingDown.runRets {n : Nat} {s : State} (h : CountingDown (n + 1) s) :
    ∃ t, Machine.runRets (List.replicate (n + 1) (.lbUpdate false)) s =
        some (List.replicate n (.edges false false) ++ [.edges false true], t) ∧
      t.acq.lbBusy = false ∧ t.acq.lbCnt = 0 := by
  induction n generalizing s with
  | zero =>
    have last : s.acq.lbCnt = 1 := h.cnt_eq_one_iff.2 rfl
    have edge : (Machine.afterQuiet s).ret = .edges false true :=
      congrArg (Ret.edges false) (decide_eq_true last)
    refine ⟨Machine.afterQuiet s, ?_, decide_eq_false (not_not.2 last), sub_eq_zero.2 last⟩
    exact edge ▸ runRets_cons_of_next h.exec_quiet rfl
  | succ n ih =>
    obtain ⟨counting, noEdge⟩ := h.afterQuiet
    obtain ⟨t, run, free⟩ := ih counting
    refine ⟨t, ?_, free⟩
    have longer := runRets_cons_of_next h.exec_quiet run
    rw [noEdge] at longer
    exact longer

/-- Settles O35: while `LB.prev` is 1 the countdown stands at `IDLE_TIMEOUT` (R202), and the quiet
samples run it out. -/
theorem freeEdgeComesAfterTheIdleTimeout : Obligations.FreeEdgeComesAfterTheIdleTimeout := by
  intro s up legal inv prev
  obtain ⟨-, -, -, -, -, -, -, -, -, frozen⟩ := inv
  obtain ⟨busy, cnt⟩ := frozen prev
  obtain ⟨n, length⟩ : ∃ n, idleTimeout s.cfg = n + 1 :=
    Nat.exists_eq_add_one.2 (Nat.lt_of_lt_of_le Nat.two_pos (idleTimeout_ge legal.bounds))
  rw [length, Nat.add_sub_cancel]
  exact CountingDown.runRets ⟨up, busy, cnt.trans length⟩

end Sys2Proof.Machine
end

section
/-! PROOFS. The channel's operations (R205 to R207), ACQ.OVERRUN (R212), and the idle steps (R213, R241). -/
namespace Sys2Proof.Machine

/-! ### The channel -/

theorem chanPush_of_empty {x : Chan} (h : x.full = false) (w : U32) :
    chanPush x w = { x with word := w, full := true } := by
  simp [chanPush, h]

theorem chanPop_of_full {x : Chan} (h : x.full = true) :
    chanPop x = ({ x with full := false }, some x.word) := if_pos h

theorem chanPop_of_empty {x : Chan} (h : x.full = false) : chanPop x = (x, none) := by
  simp [chanPop, h]

/-- Settles O36: the cases are whether the slot is full. -/
theorem channelOperations : Obligations.ChannelOperations := by
  intro w s
  refine ⟨fun up full => ?pushFull, fun up empty => ?pushEmpty, fun up full => ?popFull,
    fun up empty => ?popEmpty, fun up => ?takeOvf⟩
  case pushFull =>
    rw [exec, execXcPush, acqOp_up up, chanPush_of_full full, ← full]
    rfl
  case pushEmpty =>
    rw [exec, execXcPush, acqOp_up up, chanPush_of_empty empty]
    rfl
  case popFull =>
    rw [exec, execXcPop, ctlOp_up up, chanPop_of_full full]
    rfl
  case popEmpty =>
    rw [exec, execXcPop, ctlOp_up up, chanPop_of_empty empty]
    rfl
  case takeOvf =>
    rw [exec, execXcTakeOvf, ctlOp_up up]
    rfl

/-! ### ACQ.OVERRUN and the idle steps -/

theorem overrunWord_eq : overrunWord = 0x1000 := by decide

/-- Settles O41: the reset values of R50, and the push of R205. -/
theorem overrunResetsThePipelineAndSaysSo : Obligations.OverrunResetsThePipelineAndSaysSo := by
  intro s up
  rw [exec, execAcqOverrun, acqOp_up up, overrunWord_eq, chanPush]
  rfl

/-- Settles O42: an agent that is up answers its NOP with the state it was in. -/
theorem idleStepsChangeNothing : Obligations.IdleStepsChangeNothing :=
  fun s => ⟨fun up => acqOp_up up (.ok s), fun up => ctlOp_up up (.ok s)⟩

end Sys2Proof.Machine
end

section
/-! PROOFS. ACQ.SAMPLE (R210, R211) is its components in their order. The chain and the components are
both brought to computations, each followed by what the rest does with its answer. -/
namespace Sys2Proof.Machine

/-! ### A computation and what follows it -/

/-- A computation, then `k` on its answer; its fault is the fault of the whole (R11). -/
def onAnswer {α : Type} (r : Except Fault α) (k : α → Host.Outcome State Fault Refusal) :
    Host.Outcome State Fault Refusal :=
  match r with
  | .ok v => k v
  | .error e => .fault e

theorem outcome_map {α : Type} (r : Except Fault α) (k : α → State) :
    outcome (r.map k) = onAnswer r fun v => .next (k v) := by
  cases r <;> rfl

/-- The state between two components of a sample that began in `s` (R210): only the acquisition
registers and the returned value have changed. -/
def midSample (s : State) (a : Acq) (ret : Ret) : State := (s.withAcq a).withRet ret

/-- A component and what follows it, by the component's computation. -/
theorem onAnswer_eq_andThen {α : Type} {r : Except Fault (Acq × α)} {retOf : α → Ret} {i : Instr}
    {s : State} {a : Acq} {ret : Ret} {next : Acq × α → Host.Outcome State Fault Refusal}
    {f : State → Host.Outcome State Fault Refusal}
    (run : exec i (midSample s a ret) = acqOp (midSample s a ret)
      (r.map fun p => ((midSample s a ret).withAcq p.1).withRet (retOf p.2)))
    (up : s.acqUp = true) (rest : ∀ a' v, next (a', v) = f (midSample s a' (retOf v))) :
    onAnswer r next = andThen (exec i (midSample s a ret)) f := by
  rw [run, acqOp_up (s := midSample s a ret) up]
  cases r with
  | ok p => exact rest p.1 p.2
  | error e => rfl

theorem exec_udUpdate (p : SW) (s : State) : exec (.udUpdate p) s =
    acqOp s ((udUpdate s.cfg s.acq p).map fun r => (s.withAcq r.1).withRet (.optByteEvent r.2)) := by
  rw [exec, execUdUpdate, udNext_eq]

/-- UD.RECEIVING reads the state register and changes nothing (R180). -/
theorem eq_andThen_udReceiving {s : State} {a : Acq} {ret : Ret}
    {o : Host.Outcome State Fault Refusal} {f : State → Host.Outcome State Fault Refusal}
    (up : s.acqUp = true) (rest : o = f (midSample s a (.flag (receiving a)))) :
    o = andThen (exec .udReceiving (midSample s a ret)) f := by
  rw [exec, execUdReceiving, acqOp_up (s := midSample s a ret) up]
  exact rest

/-- The last component: XC.PUSH of a word that is not 0 (R210). -/
theorem pushed_eq_andThen_xcPush {s : State} (up : s.acqUp = true) (a : Acq) (ret : Ret) (w : U32) :
    (.next ((s.withAcq a).withXc (if w = 0 then s.xc else chanPush s.xc w)) :
        Host.Outcome State Fault Refusal) =
      if w = 0 then .next { midSample s a ret with ret := s.ret }
      else andThen (exec (.xcPush w) (midSample s a ret)) fun t => .next { t with ret := s.ret } := by
  by_cases zero : w = 0
  · rw [if_pos zero, if_pos zero]
    rfl
  · rw [if_neg zero, if_neg zero, exec, execXcPush, acqOp_up (s := midSample s a ret) up]
    rfl

/-! ### The chain as computations (R210) -/

theorem onAnswer_processSample (c : Config) (a : Acq) (x : SW)
    (k : Acq × U32 → Host.Outcome State Fault Refusal) :
    onAnswer (processSample c a x) k =
      onAnswer (dcUpdate c a x) fun dc =>
      onAnswer (lvUpdate c dc.1 dc.2) fun lv =>
      onAnswer (bdUpdate c lv.1 lv.2) fun bd =>
      onAnswer (udUpdate c bd.1 bd.2) fun ud =>
      onAnswer (lbUpdate c ud.1 (receiving ud.1)) fun lb =>
        k (lb.1, packEvent ud.2 lb.2.busy lb.2.free) := by
  unfold processSample
  rcases dcUpdate c a x with fault | dc
  · rfl
  dsimp only [onAnswer]
  rcases lvUpdate c dc.1 dc.2 with fault | lv
  · rfl
  dsimp only
  rcases bdUpdate c lv.1 lv.2 with fault | bd
  · rfl
  dsimp only
  rcases udUpdate c bd.1 bd.2 with fault | ud
  · rfl
  dsimp only
  rcases lbUpdate c ud.1 (receiving ud.1) with fault | lb
  · rfl
  · rfl

theorem onAnswer_acqChain (c : Config) (a : Acq) (x : SW)
    (k : Acq × U32 → Host.Outcome State Fault Refusal) :
    onAnswer (acqChain c a x) k =
      onAnswer (firUpdate c a x) fun fir =>
      onAnswer (rsUpdate c fir.1 fir.2) fun rs =>
        rs.2.elim (k (rs.1, 0)) fun y => onAnswer (processSample c rs.1 y) k := by
  unfold acqChain
  rcases firUpdate c a x with fault | fir
  · rfl
  dsimp only [onAnswer]
  rcases rsUpdate c fir.1 fir.2 with fault | ⟨a2, dropped | passed⟩
  · rfl
  · rfl
  · rfl

/-! ### The word (R211) -/

theorem packEvent_none_eq (be fe : Bool) : packEvent none be fe =
    BitVec.ofNat 32 (0 + 256 * false.toNat + 512 * false.toNat + 1024 * be.toNat + 2048 * fe.toNat) := by
  rw [packEvent, pack_eq]
  simp

/-- A framing error withholds the byte, a parity error delivers it, and either is an error. -/
theorem packEvent_some_eq (e : ByteEvent) (be fe : Bool) : packEvent (some e) be fe =
    BitVec.ofNat 32 ((if e.framingOk then e.data.toNat else 0) + 256 * e.framingOk.toNat +
      512 * (!e.framingOk || !e.parityOk).toNat + 1024 * be.toNat + 2048 * fe.toNat) := by
  cases framing : e.framingOk <;> cases parity : e.parityOk <;>
    simp [packEvent, framing, parity, pack_eq, Nat.add_assoc]

/-- Settles O38: component by component, each runs on the registers the one before left. -/
theorem sampleIsTheChainOfItsComponents : Obligations.SampleIsTheChainOfItsComponents := by
  intro x s up
  rw [exec_acqSample, acqOp_up up, outcome_map, onAnswer_acqChain]
  refine onAnswer_eq_andThen (a := s.acq) (ret := s.ret) (exec_firUpdate x s) up fun a1 y1 => ?_
  refine onAnswer_eq_andThen (exec_rsUpdate y1 _) up fun a2 passed => ?_
  cases passed with
  | none => rfl
  | some y =>
    refine (onAnswer_processSample s.cfg a2 y _).trans ?_
    refine onAnswer_eq_andThen (exec_dcUpdate y _) up fun a3 y2 => ?_
    refine onAnswer_eq_andThen (exec_lvUpdate y2 _) up fun a4 y3 => ?_
    refine onAnswer_eq_andThen (exec_bdUpdate y3 _) up fun a5 p => ?_
    refine onAnswer_eq_andThen (exec_udUpdate p _) up fun a6 event => ?_
    refine eq_andThen_udReceiving up ?_
    refine onAnswer_eq_andThen (retOf := fun e => .edges e.busy e.free)
      (exec_lbUpdate (receiving a6) _) up fun a7 edges => ?_
    cases event with
    | none =>
      rw [packEvent_none_eq]
      exact pushed_eq_andThen_xcPush up a7 _ _
    | some e =>
      rw [packEvent_some_eq]
      exact pushed_eq_andThen_xcPush up a7 _ _

end Sys2Proof.Machine
end

section
/-! PROOFS. Attempts (R230, R242): an attempt begins with `ReqTaken`, on the tick that leaves Idle, and
ends with `Done`, on the tick that comes back to it. So along a run the actions of either kind and the
attempts going on at its two ends balance. -/
namespace Sys2Proof.Machine

/-- The attempts going on: one in every state but Idle (R230). -/
def attemptsGoingOn (t : Tx) : Nat := if t.st = .idle then 0 else 1

theorem attemptsGoingOn_idle {t : Tx} (h : t.st = .idle) : attemptsGoingOn t = 0 := if_pos h

theorem attemptsGoingOn_of_ne {t : Tx} (h : t.st ≠ .idle) : attemptsGoingOn t = 1 := if_neg h

/-- From `t` to `t'` with these actions, the attempts begun and those going on before are the attempts
ended and those going on after. -/
def Balanced (t t' : Tx) (acts : List Action) : Prop :=
  acts.countP (fun a => decide (a = .reqTaken)) + attemptsGoingOn t =
    acts.countP Action.isDone + attemptsGoingOn t'

theorem Balanced.refl (t : Tx) : Balanced t t [] := rfl

theorem Balanced.trans {t n t' : Tx} {as bs : List Action} (first : Balanced t n as)
    (rest : Balanced n t' bs) : Balanced t t' (as ++ bs) := by
  unfold Balanced at *
  rw [List.countP_append, List.countP_append]
  omega

/-! ### The kinds of actions -/

/-- Actions that neither begin nor end an attempt. -/
def Silent (acts : List Action) : Prop := ∀ a ∈ acts, a ≠ .reqTaken ∧ a.isDone = false

theorem silent_nil : Silent [] := by simp [Silent]

theorem silent_map_txWrite (bs : List Byte) : Silent (bs.map .txWrite) := by
  intro a ha
  obtain ⟨b, -, rfl⟩ := List.mem_map.1 ha
  exact ⟨Action.noConfusion, rfl⟩

theorem silent_drvEnable (b : Bool) : Silent [.drvEnable b] := by simp [Silent, Action.isDone]

theorem silent_drvEnable_if (b : Bool) : Silent (if b then [.drvEnable false] else []) := by
  cases b
  · exact silent_nil
  · exact silent_drvEnable false

theorem silent_txFlush : Silent [.txFlush] := by simp [Silent, Action.isDone]

theorem silent_tickReports (o : Bool) (w : Option U32) : Silent (tickReports o w) := by
  intro a ha
  obtain ⟨x, rfl⟩ | ⟨status, rfl⟩ := mem_tickReports ha
  · exact ⟨Action.noConfusion, rfl⟩
  · exact ⟨Action.noConfusion, rfl⟩

/-- Silent actions balance exactly where as many attempts go on after as before. -/
theorem Silent.balanced {t t' : Tx} {acts : List Action} (h : Silent acts)
    (same : attemptsGoingOn t = attemptsGoingOn t') : Balanced t t' acts := by
  have noneBegun : acts.countP (fun a => decide (a = .reqTaken)) = 0 :=
    List.countP_eq_zero.2 fun a ha => by simpa using (h a ha).1
  have noneEnded : acts.countP Action.isDone = 0 :=
    List.countP_eq_zero.2 fun a ha => by simp [(h a ha).2]
  rw [Balanced, noneBegun, noneEnded, same]

/-- Within an attempt: silent actions between two states that are not Idle. -/
theorem Silent.withinAttempt {t t' : Tx} {acts : List Action} (h : Silent acts)
    (start : t.st ≠ .idle) (finish : t'.st ≠ .idle) : Balanced t t' acts :=
  h.balanced ((attemptsGoingOn_of_ne start).trans (attemptsGoingOn_of_ne finish).symm)

theorem balanced_begin {t t' : Tx} (start : t.st = .idle) (finish : t'.st ≠ .idle) :
    Balanced t t' [.reqTaken] := by
  rw [Balanced, attemptsGoingOn_idle start, attemptsGoingOn_of_ne finish]
  rfl

/-- The end of an attempt: the driver off, then `Done` (R233). -/
theorem balanced_end {t t' : Tx} (start : t.st ≠ .idle) (finish : t'.st = .idle) (drv : Bool)
    (status : Status) :
    Balanced t t' ((if drv then [.drvEnable false] else []) ++ [.done status]) := by
  have ended : Balanced t t' [.done status] := by
    rw [Balanced, attemptsGoingOn_of_ne start, attemptsGoingOn_idle finish]
    rfl
  exact ((silent_drvEnable_if drv).balanced rfl).trans ended

theorem balanced_signalIdle {t : Tx} (start : t.st ≠ .idle) (code : Status) :
    Balanced t (signalIdle code t).1 (signalIdle code t).2 := by
  rw [signalIdle_eq]
  exact balanced_end start rfl _ _

theorem balanced_abortTx {t : Tx} (start : t.st ≠ .idle) (c : Config) (now : U32) (code : Status) :
    Balanced t (abortTx c now code t).1 (abortTx c now code t).2 := by
  rw [abortTx_eq]
  exact silent_txFlush.withinAttempt start TxState.noConfusion

/-! ### Every tick is balanced -/

theorem txIdleArm_balanced {c : Config} {i : CtlIn} {t : Tx} {r : Tx × List Action}
    (hs : t.st = .idle) (h : txIdleArm c i t = .ok r) : Balanced t r.1 r.2 := by
  obtain rfl | ⟨bs, msg, len, -, -, rfl⟩ := txIdleArm_cases h
  · exact .refl t
  · exact balanced_begin hs TxState.noConfusion

theorem txIdleWaitLineFreeArm_balanced {c : Config} {i : CtlIn} {ev : U32} {t : Tx}
    {r : Tx × List Action} (hs : t.st ≠ .idle) (h : txIdleWaitLineFreeArm c i ev t = .ok r) :
    Balanced t r.1 r.2 := by
  obtain ⟨code, -, rfl⟩ | rfl | rfl := txIdleWaitLineFreeArm_cases h
  · exact balanced_signalIdle hs code
  · exact (silent_drvEnable true).withinAttempt hs TxState.noConfusion
  · exact .refl t

theorem txWaitPowerOnArm_balanced {c : Config} {i : CtlIn} {ev : U32} {t : Tx}
    {r : Tx × List Action} (hs : t.st ≠ .idle) (h : txWaitPowerOnArm c i ev t = .ok r) :
    Balanced t r.1 r.2 := by
  obtain ⟨code, -, rfl⟩ | rfl | rfl := txWaitPowerOnArm_cases h
  · exact balanced_signalIdle hs code
  · exact (silent_map_txWrite _).withinAttempt hs TxState.noConfusion
  · exact .refl t

theorem txRunningCheckDataArm_balanced {c : Config} {i : CtlIn} {ev : U32} {t : Tx}
    {r : Tx × List Action} (hs : t.st ≠ .idle) (h : txRunningCheckDataArm c i ev t = .ok r) :
    Balanced t r.1 r.2 := by
  obtain ⟨code, -, rfl⟩ | ⟨-, off, rfl⟩ | ⟨-, off, rfl⟩ | ⟨-, rfl⟩ := txRunningCheckDataArm_cases h
  · exact balanced_abortTx hs c i.now code
  · exact silent_nil.withinAttempt hs TxState.noConfusion
  · exact silent_nil.withinAttempt hs hs
  · exact .refl t

/-- The move to RunningCheckData is silent, and so the arm that a valid byte falls through into
(R237) balances the whole tick. -/
theorem txStartedWaitForBusyArm_balanced {c : Config} {i : CtlIn} {ev : U32} {t : Tx}
    {r : Tx × List Action} (hs : t.st ≠ .idle) (h : txStartedWaitForBusyArm c i ev t = .ok r) :
    Balanced t r.1 r.2 := by
  have moved : Balanced t (enteredCheck c i ev t) [] :=
    silent_nil.withinAttempt hs TxState.noConfusion
  obtain ⟨code, -, rfl⟩ | ⟨-, through⟩ | ⟨-, rfl⟩ | rfl := txStartedWaitForBusyArm_cases h
  · exact balanced_abortTx hs c i.now code
  · exact moved.trans (txRunningCheckDataArm_balanced TxState.noConfusion through)
  · exact moved
  · exact .refl t

theorem txRunningWaitForIdleArm_balanced {i : CtlIn} {t : Tx} {r : Tx × List Action}
    (hs : t.st ≠ .idle) (h : txRunningWaitForIdleArm i t = .ok r) : Balanced t r.1 r.2 := by
  obtain rfl | ⟨code, -, rfl⟩ | rfl := txRunningWaitForIdleArm_cases h
  · rw [toIdle_eq, powerDown_then_end]
    exact balanced_end hs rfl _ _
  · rw [signalIdle_eq, powerDown_then_end]
    exact balanced_end hs rfl _ _
  · rw [powerDown_eq]
    exact (silent_drvEnable_if _).withinAttempt hs hs

/-- Every tick of the arbiter that answers is balanced. -/
theorem txTick_balanced {c : Config} {i : CtlIn} {ev : U32} {t : Tx} {r : Tx × List Action}
    (h : txTick c i ev t = .ok r) : Balanced t r.1 r.2 := by
  rw [txTick_eq] at h
  have begun {st : TxState} (hs : t.st = st) (ne : st ≠ .idle) : (prologue ev t).st ≠ .idle :=
    fun idle => ne (hs.symm.trans idle)
  suffices Balanced (prologue ev t) r.1 r.2 from this
  cases hs : t.st <;> rw [hs] at h
  case idle => exact txIdleArm_balanced hs h
  case idleWaitLineFree => exact txIdleWaitLineFreeArm_balanced (begun hs TxState.noConfusion) h
  case waitPowerOn => exact txWaitPowerOnArm_balanced (begun hs TxState.noConfusion) h
  case startedWaitForBusy => exact txStartedWaitForBusyArm_balanced (begun hs TxState.noConfusion) h
  case runningCheckData => exact txRunningCheckDataArm_balanced (begun hs TxState.noConfusion) h
  case runningWaitForIdle => exact txRunningWaitForIdleArm_balanced (begun hs TxState.noConfusion) h

/-! ### One operation, and a run -/

theorem ctlTick_balanced {i : CtlIn} {s t : State} (h : exec (.ctlTick i) s = .next t) :
    Balanced s.tx t.tx (newActions s t) := by
  rw [exec_ctlTick] at h
  obtain ⟨-, hr⟩ := ctlOp_next_iff.1 h
  obtain ⟨p, hp, rfl⟩ := map_ok_iff.1 hr
  have reports : Balanced s.tx s.tx (tickReports s.xc.ovf (chanPop s.xc).2) :=
    (silent_tickReports _ _).balanced rfl
  simpa [newActions] using reports.trans (txTick_balanced hp)

/-- The acquisition agent begins and ends no attempt (R70). -/
theorem acquisition_balanced {i : Instr} {s t : State} (hi : agentOf i = .acquisition)
    (h : exec i s = .next t) : Balanced s.tx t.tx (newActions s t) := by
  obtain ⟨sameTx, -, sameOut⟩ := (agentsWriteOnlyWhatTheyOwn i s t h).2.1 hi
  rw [newActions_eq_nil sameOut, sameTx]
  exact .refl s.tx

theorem external_balanced {i : Instr} {s t : State} (hi : External i) (hr : i ≠ .ctlReset)
    (h : exec i s = .next t) : Balanced s.tx t.tx (newActions s t) := by
  cases i <;> cases hi
  case acqReset | acqOverrun | acqSample | acqNop => exact acquisition_balanced rfl h
  case ctlReset => exact absurd rfl hr
  case ctlTick => exact ctlTick_balanced h
  case ctlNop =>
    obtain ⟨-, same⟩ := ctlOp_next_iff.1 h
    cases same
    rw [newActions_self]
    exact .refl s.tx

theorem runOps_balanced {ops : List Instr} {s t : State}
    (allowed : ∀ i ∈ ops, External i ∧ i ≠ .ctlReset) (h : runOps ops s = .next t) :
    Balanced s.tx t.tx (newActions s t) := by
  induction ops generalizing s with
  | nil =>
    cases h
    rw [newActions_self]
    exact .refl _
  | cons i is ih =>
    obtain ⟨⟨external, noReset⟩, rest⟩ := List.forall_mem_cons.1 allowed
    simp only [runOps] at h
    split at h
    · rename_i n first
      rw [newActions_append (exec_extends_out first) (runOps_extends_out h)]
      exact (external_balanced external noReset first).trans (ih rest h)
    · cases h
    · cases h

/-- Settles O53: the balance of a run is the balance of each of its operations, one after the other. -/
theorem eachAttemptEndsWithOneDone : Obligations.EachAttemptEndsWithOneDone :=
  fun _ _ _ allowed h => runOps_balanced allowed h

end Sys2Proof.Machine
end

section
/-! PROOFS. CTL.TICK and the arms of the arbiter (R231 to R239): each arm is its conditions in their
order, with one of a few ends of a tick under each of them. The ends are written out once, as next
states. -/
namespace Sys2Proof.Machine

/-! ### The conditions -/

/-- `timed_out` (R13, R233). -/
theorem timedOut_iff {i : CtlIn} {t : Tx} :
    timedOut i t = true ↔ (i.now - t.dl).toNat < 2 ^ 31 := decide_eq_true_iff

theorem tstatus_of_busy {t : Tx} (h : t.lineBusy = true) : tstatus t = .noFraming := if_pos h

theorem tstatus_of_free {t : Tx} (h : t.lineBusy = false) : tstatus t = .collision := by
  simp [tstatus, h]

/-! ### The ends of a tick, as next states -/

@[simp] theorem txNext_ok (s : State) (t : Tx) (acts : List Action) :
    txNext s (.ok (t, acts)) = .ok ((s.withTx t).emit acts) := rfl

/-- A tick without effect. -/
theorem txNext_same (s : State) : txNext s (.ok (s.tx, [])) = .ok s := by
  rw [txNext_ok, State.emit_nil]
  rfl

/-- A tick without actions writes the arbiter's registers only. -/
theorem txNext_quiet (s : State) (t : Tx) : txNext s (.ok (t, [])) = .ok { s with tx := t } := by
  rw [txNext_ok, State.emit_nil]
  rfl

/-- An error before any byte is queued: `seterr; to_idle` (R233). -/
theorem txNext_signalIdle (s : State) (code : Status) : txNext s (.ok (signalIdle code s.tx)) =
    .ok { s with
      tx := { s.tx with st := .idle, len := 0, off := 0, coll := false, drv := false, err := true,
                        status := if s.tx.err then s.tx.status else code }
      out := s.out ++ (if s.tx.drv then [.drvEnable false] else []) ++
        [.done (if s.tx.err then s.tx.status else code)] } := by
  rw [signalIdle_eq, txNext_ok, List.append_assoc]
  rfl

/-- An error once bytes are queued: `abort_tx` (R233). -/
theorem txNext_abortTx (s : State) (c : Config) (now : U32) (code : Status) :
    txNext s (.ok (abortTx c now code s.tx)) =
    .ok { s with
      tx := { s.tx with err := true, status := if s.tx.err then s.tx.status else code,
                        coll := false, st := .runningWaitForIdle,
                        dl := BitVec.ofNat 32 (now.toNat + c.tWaitIdle.toNat) }
      out := s.out ++ [.txFlush] } := by
  rw [abortTx_eq, txNext_ok, deadline_eq]
  rfl

/-! ### CTL.TICK (R231) -/

/-- The channel after the pop and the take of the flag (R206, R207). -/
theorem chanTakeOvf_chanPop (x : Chan) :
    (chanTakeOvf (chanPop x).1).1 = { x with full := false, ovf := false } := by
  cases full : x.full with
  | false => rw [chanPop_of_empty full, chanTakeOvf, full]
  | true => rw [chanPop_of_full full, chanTakeOvf]

theorem exec_txTick (i : CtlIn) (ev : U32) (s : State) : exec (.txTick i ev) s =
    ctlOp s ((txTick s.cfg i ev s.tx).map fun p => (s.withTx p.1).emit p.2) := by
  rw [exec, execTxTick, txNext_eq]

/-- Actions emitted before the registers are written, or after. -/
theorem State.emit_withTx (s : State) (as : List Action) (t : Tx) :
    (s.emit as).withTx t = (s.withTx t).emit as := rfl

/-- Settles O43: the two channel operations return what the reports and the arbiter are given. -/
theorem tickIsTheChainOfItsComponents : Obligations.TickIsTheChainOfItsComponents := by
  intro i s up
  have pop : exec .xcPop s =
      .next ((s.withXc (chanPop s.xc).1).withRet (.optWord (chanPop s.xc).2)) := ctlOp_up up _
  have take (x : Chan) (ret : Ret) : exec .xcTakeOvf ((s.withXc x).withRet ret) =
      .next ((s.withXc (chanTakeOvf x).1).withRet (.flag x.ovf)) := ctlOp_up up _
  simp only [pop, andThen, State.withRet_ret, take, chanPop_ovf]
  calc exec (.ctlTick i) s
      = exec (.txTick i ((chanPop s.xc).2.getD 0)) ((s.withXc (chanTakeOvf (chanPop s.xc).1).1).emit
          (tickReports s.xc.ovf (chanPop s.xc).2)) := by
        rw [exec_ctlTick, exec_txTick]
        simp only [State.emit_withTx, State.emit_emit]
        rfl
    _ = _ := rfl

/-- Settles O44: the arbiter answers under R242, and the channel is left as R206 and R207 say. -/
theorem ticksNeverFault : Obligations.TicksNeverFault := by
  intro i s up inv
  obtain ⟨r, answer, kept⟩ := txTick_answers i ((chanPop s.xc).2.getD 0) inv
  refine ⟨r.1, tickReports s.xc.ovf (chanPop s.xc).2 ++ r.2, ?_, kept⟩
  rw [exec_ctlTick, ctlOp_up up, answer, chanTakeOvf_chanPop]
  rfl

/-! ### TX.TICK (R232) -/

theorem txNext_withTx (s : State) (t : Tx) (r : TxResult) :
    txNext (s.withTx t) r = txNext s r := by
  cases r <;> rfl

/-- TX.TICK is the arm of the state at the start of the tick, run after the prologue, whatever it
answers. -/
theorem exec_txTick_eq_arm (i : CtlIn) (ev : U32) (s : State) :
    exec (.txTick i ev) s = exec (txArmOf s.tx.st i ev) (s.withTx (prologue ev s.tx)) := by
  have selected (r : TxResult) : ctlOp s (txNext s r) =
      txArm (s.withTx (prologue ev s.tx)) s.tx.st (txNext (s.withTx (prologue ev s.tx)) r) := by
    cases up : s.ctlUp <;> simp [ctlOp, txArm, up, txNext_withTx]
  rw [exec, execTxTick, txTick_eq, selected]
  cases s.tx.st <;> rfl

/-- Settles O45: under R242 the tick answers, and it is the arm after the prologue. -/
theorem txTickIsThePrologueThenTheArm : Obligations.TxTickIsThePrologueThenTheArm := by
  intro i ev s up inv
  obtain ⟨r, answer, -⟩ := txTick_answers i ev inv
  have tick : exec (.txTick i ev) s = .next ((s.withTx r.1).emit r.2) := by
    rw [exec, execTxTick, ctlOp_up up, answer]
    rfl
  exact ⟨_, tick, (exec_txTick_eq_arm i ev s).symm.trans tick⟩

/-! ### Idle (R234) -/

theorem acceptable_of_legal {c : Config} {i : CtlIn} {t : Tx} {bs : List Byte}
    (request : i.req = some bs) (pos : 1 ≤ bs.length) (fits : bs.length ≤ c.msgMax.toNat)
    (free : t.lineBusy = false) (ready : i.txHwIdle = true) : acceptable c i t = some bs := by
  simp only [acceptable, request]
  exact if_pos ⟨pos, fits, free, ready⟩

theorem acceptable_eq_none {c : Config} {i : CtlIn} {t : Tx}
    (h : (∀ bs, i.req = some bs → bs.length = 0 ∨ c.msgMax.toNat < bs.length) ∨
      t.lineBusy = true ∨ i.txHwIdle = false) : acceptable c i t = none := by
  cases accepted : acceptable c i t with
  | none => rfl
  | some bs =>
    obtain ⟨request, pos, fits, free, ready⟩ := acceptable_eq_some accepted
    obtain illegal | busy | notReady := h
    · have := illegal bs request
      omega
    · exact Bool.noConfusion (free.symm.trans busy)
    · exact Bool.noConfusion (notReady.symm.trans ready)

/-- Settles O46: the two clauses are whether the request is acceptable. -/
theorem idleTakesALegalRequest : Obligations.IdleTakesALegalRequest := by
  intro i ev s up st buffer
  refine ⟨fun bs request pos fits free ready => ?taken, fun refused => ?nothing⟩
  case taken =>
    rw [exec, execTxIdle, txArm_selected up st,
      txIdleArm_of_acceptable buffer (acceptable_of_legal request pos fits free ready), txNext_ok,
      deadline_eq]
    simp only [clearErr, free]
    rfl
  case nothing =>
    rw [exec, execTxIdle, txArm_selected up st, txIdleArm_of_none (acceptable_eq_none refused),
      txNext_same]
    rfl

/-! ### IdleWaitLineFree (R235) and WaitPowerOn (R236) -/

/-- Settles O47: the conditions in their order; the line is busy at the timeout. -/
theorem idleWaitLineFreeArm : Obligations.IdleWaitLineFreeArm := by
  intro i ev s up st status failed
  have ends (code : Status) : txNext s (.ok (signalIdle code s.tx)) = .ok (failed code) :=
    txNext_signalIdle s code
  rw [exec, execTxIdleWaitLineFree, txArm_selected up st, txIdleWaitLineFreeArm]
  simp only [evDecoderErr, timedOut_iff, Bool.not_eq_true']
  split_ifs with internal collision free late
  · exact congrArg outcome (ends .internal)
  · exact congrArg outcome (ends .collision)
  · rw [deadline_eq]
    rfl
  · rw [tstatus_of_busy (Bool.eq_true_of_not_eq_false free)]
    exact congrArg outcome (ends .noFraming)
  · exact congrArg outcome (txNext_same s)

/-- The message, byte 0 first. -/
theorem take_eq_map_range_getD {msg : List Byte} {n : Nat} (h : n ≤ msg.length) :
    msg.take n = (List.range n).map fun k => msg.getD k 0 := by
  refine List.ext_getElem (by simpa using h) fun k hk _ => ?_
  have inside : k < msg.length := by
    rw [List.length_take] at hk
    omega
  simp [inside]

/-- Settles O48: the conditions in their order; at the deadline the message is read whole. -/
theorem waitPowerOnArm : Obligations.WaitPowerOnArm := by
  intro i ev s up st fits status failed
  have ends (code : Status) : txNext s (.ok (signalIdle code s.tx)) = .ok (failed code) :=
    txNext_signalIdle s code
  rw [exec, execTxWaitPowerOn, txArm_selected up st, txWaitPowerOnArm, msgBytes_of_le fits]
  simp only [evDecoderErr, timedOut_iff]
  split_ifs with internal collision busy late
  · exact congrArg outcome (ends .internal)
  · exact congrArg outcome (ends .collision)
  · rw [tstatus_of_busy busy]
    exact congrArg outcome (ends .noFraming)
  · rw [take_eq_map_range_getD fits, List.map_map, deadline_eq]
    rfl
  · exact congrArg outcome (txNext_same s)

/-! ### RunningCheckData (R238) -/

/-- The cursor has reached the length after the last byte. -/
theorem off_succ_eq_len_iff {off len : BitVec 8} (h : off.toNat < len.toNat) :
    off + 1 = len ↔ off.toNat + 1 = len.toNat := by
  bv_omega

/-- Settles O50: the conditions in their order; the byte compared stands inside the message. -/
theorem runningCheckDataArm : Obligations.RunningCheckDataArm := by
  intro i ev s up st inside fits abort
  have aborts (code : Status) : txNext s (.ok (abortTx s.cfg i.now code s.tx)) = .ok (abort code) :=
    txNext_abortTx s s.cfg i.now code
  have expected : msgRead s.tx s.tx.off.toNat = .ok (s.tx.msg.getD s.tx.off.toNat 0) :=
    msgRead_of_lt inside fits
  have advanced : toU 8 ((s.tx.off.toNat : Int) + 1) = .ok (s.tx.off + 1) := toU_succ (by omega)
  have last := off_succ_eq_len_iff inside
  rw [exec, execTxRunningCheckData, txArm_selected up st, txRunningCheckDataArm, expected]
  simp only [advanced, evDecoderErr, evError, evValid, evByte, timedOut_iff, Bool.not_eq_true', last]
  split_ifs with internal collision valid differs final free late
  · exact congrArg outcome (aborts .internal)
  · exact congrArg outcome (aborts .collision)
  · exact congrArg outcome (aborts .collision)
  · rw [last.2 final, deadline_eq]
    exact congrArg outcome (txNext_quiet s _)
  · rw [deadline_eq]
    exact congrArg outcome (txNext_quiet s _)
  · rw [tstatus_of_free free]
    exact congrArg outcome (aborts .collision)
  · rw [tstatus_of_busy (Bool.eq_true_of_not_eq_false free)]
    exact congrArg outcome (aborts .noFraming)
  · exact congrArg outcome (txNext_same s)

/-! ### StartedWaitForBusy (R237) -/

/-- The arm with a valid byte first: it takes the same way on a busy and on a free line. -/
theorem txStartedWaitForBusyArm_eq (c : Config) (i : CtlIn) (ev : U32) (t : Tx) :
    txStartedWaitForBusyArm c i ev t =
      if evDecoderErr ev then .ok (abortTx c i.now .internal t)
      else if i.extColl then .ok (abortTx c i.now .collision t)
      else if evValid ev then txRunningCheckDataArm c i ev (enteredCheck c i ev t)
      else if t.lineBusy || evError ev then .ok (enteredCheck c i ev t, [])
      else if timedOut i t then .ok (abortTx c i.now .collision t)
      else .ok (t, []) := by
  have flag : (if evError ev then { t with coll := true } else t) =
      { t with coll := t.coll || evError ev } := by
    cases evError ev <;> simp
  unfold txStartedWaitForBusyArm
  simp only [flag]
  refine if_congr Iff.rfl rfl (if_congr Iff.rfl rfl ?_)
  cases valid : evValid ev with
  | true =>
    simp only [Bool.or_true, Bool.true_or, if_true]
    rfl
  | false =>
    cases moves : t.lineBusy || evError ev with
    | true =>
      simp only [Bool.or_false, moves, if_true, Bool.false_eq_true, if_false]
      rfl
    | false =>
      obtain ⟨free, correct⟩ := Bool.or_eq_false_iff.1 moves
      simp only [Bool.or_false, correct, Bool.false_eq_true, if_false, tstatus_of_free free]
      exact if_neg (Bool.eq_false_iff.1 free)

/-- Settles O49: the fall-through is the arm of O50 on the state moved to it. -/
theorem startedWaitForBusyArm : Obligations.StartedWaitForBusyArm := by
  intro i ev s up st inside fits abort flagged moved
  have aborts (code : Status) : txNext s (.ok (abortTx s.cfg i.now code s.tx)) =
      .ok (abort code s) := txNext_abortTx s s.cfg i.now code
  have entered : s.withTx (enteredCheck s.cfg i ev s.tx) = moved := by
    rw [enteredCheck, deadline_eq]
    rfl
  have through : txNext s (txRunningCheckDataArm s.cfg i ev (enteredCheck s.cfg i ev s.tx)) =
      txNext moved (txRunningCheckDataArm moved.cfg i ev moved.tx) := by
    rw [← entered, txNext_withTx]
    rfl
  refine (and_iff_right_of_imp fun arm => ?completes).2 ?arm
  case completes =>
    rw [arm]
    split_ifs with internal collision valid moves late
    · exact ⟨_, rfl⟩
    · exact ⟨_, rfl⟩
    · exact ⟨_, runningCheckDataArm i ev moved up rfl inside fits⟩
    · exact ⟨_, rfl⟩
    · exact ⟨_, rfl⟩
    · exact ⟨_, rfl⟩
  case arm =>
    rw [exec, execTxStartedWaitForBusy, txArm_selected up st, txStartedWaitForBusyArm_eq]
    simp only [evDecoderErr, evError, evValid, timedOut_iff]
    split_ifs with internal collision valid moves late
    · exact congrArg outcome (aborts .internal)
    · exact congrArg outcome (aborts .collision)
    · rw [through, exec, execTxRunningCheckData]
      exact (txArm_selected (s := moved) up rfl _).symm
    · rw [txNext_ok, entered, State.emit_nil]
      rfl
    · exact congrArg outcome (aborts .collision)
    · exact congrArg outcome (txNext_same s)

/-! ### RunningWaitForIdle (R239) -/

/-- Settles O51: whatever the power-down test does, the driver is off after the attempt, and
`DrvEnable(0)` stands before `Done` exactly where it was on. -/
theorem runningWaitForIdleArm : Obligations.RunningWaitForIdleArm := by
  intro i ev s up st off ended
  have freed : txNext s (.ok ((toIdle (powerDown i s.tx).1).1,
      (powerDown i s.tx).2 ++ (toIdle (powerDown i s.tx).1).2)) =
      .ok (ended s.tx.err s.tx.status) := by
    rw [toIdle_eq, powerDown_then_end, powerDown_eq, txNext_ok, ← State.emit_emit]
    rfl
  have timeout (code : Status) : txNext s (.ok ((signalIdle code (powerDown i s.tx).1).1,
      (powerDown i s.tx).2 ++ (signalIdle code (powerDown i s.tx).1).2)) =
      .ok (ended true (if s.tx.err then s.tx.status else code)) := by
    rw [signalIdle_eq, powerDown_then_end, powerDown_eq, txNext_ok, ← State.emit_emit]
    rfl
  have lineBusy : (powerDown i s.tx).1.lineBusy = s.tx.lineBusy := by rw [powerDown_eq]
  have late_iff : timedOut i (powerDown i s.tx).1 = true ↔ (i.now - s.tx.dl).toNat < 2 ^ 31 := by
    rw [powerDown_eq]
    exact timedOut_iff
  rw [exec, execTxRunningWaitForIdle, txArm_selected up st, txRunningWaitForIdleArm]
  simp only [lineBusy, late_iff, Bool.not_eq_true']
  by_cases free : s.tx.lineBusy = false
  · rw [if_pos free, if_pos free]
    exact congrArg outcome freed
  rw [if_neg free, if_neg free, tstatus_of_busy (lineBusy.trans (Bool.eq_true_of_not_eq_false free))]
  by_cases late : (i.now - s.tx.dl).toNat < 2 ^ 31
  · rw [if_pos late, if_pos late]
    exact congrArg outcome (timeout .noFraming)
  · rw [if_neg late, if_neg late, powerDown_eq]
    rfl

end Sys2Proof.Machine
end

section
/-! PROOFS. The first error of an attempt (R289, R292). Every arm keeps an error that is set: it is
written by `seterr` only, which lets the first one win, or cleared with the request that Idle takes.
That a request is taken in Idle only is told by the balance of `ReqTaken` and `Done`. -/
namespace Sys2Proof.Machine

/-- An error set at `t` is the error at `t'` (R292). -/
def KeepsFirstError (t t' : Tx) : Prop :=
  t.err = true → t'.err = true ∧ t'.status = t.status

theorem KeepsFirstError.of_untouched {t t' : Tx} (err : t'.err = t.err)
    (status : t'.status = t.status) : KeepsFirstError t t' :=
  fun failed => ⟨err.trans failed, status⟩

theorem KeepsFirstError.trans {t n t' : Tx} (first : KeepsFirstError t n)
    (rest : KeepsFirstError n t') : KeepsFirstError t t' := fun failed =>
  have ⟨err, status⟩ := first failed
  have ⟨err', status'⟩ := rest err
  ⟨err', status'.trans status⟩

theorem keepsFirstError_setErr (code : Status) (t : Tx) : KeepsFirstError t (setErr code t) :=
  fun failed => ⟨setErr_err code t, (setErr_status code t).trans (if_pos failed)⟩

/-- `to_idle` writes neither error register. -/
theorem keepsFirstError_signalIdle (code : Status) (t : Tx) :
    KeepsFirstError t (signalIdle code t).1 :=
  keepsFirstError_setErr code t

theorem keepsFirstError_abortTx (c : Config) (now : U32) (code : Status) (t : Tx) :
    KeepsFirstError t (abortTx c now code t).1 :=
  keepsFirstError_setErr code t

/-! ### Each arm keeps the error -/

section
variable {c : Config} {i : CtlIn} {ev : U32} {t : Tx} {r : Tx × List Action}

theorem txIdleArm_keepsFirstError (h : txIdleArm c i t = .ok r) (waiting : .reqTaken ∉ r.2) :
    KeepsFirstError t r.1 := by
  obtain rfl | ⟨bs, msg, len, -, -, rfl⟩ := txIdleArm_cases h
  · exact .of_untouched rfl rfl
  · exact absurd (List.mem_singleton_self _) waiting

theorem txIdleWaitLineFreeArm_keepsFirstError (h : txIdleWaitLineFreeArm c i ev t = .ok r) :
    KeepsFirstError t r.1 := by
  obtain ⟨code, -, rfl⟩ | rfl | rfl := txIdleWaitLineFreeArm_cases h
  · exact keepsFirstError_signalIdle code t
  · exact .of_untouched rfl rfl
  · exact .of_untouched rfl rfl

theorem txWaitPowerOnArm_keepsFirstError (h : txWaitPowerOnArm c i ev t = .ok r) :
    KeepsFirstError t r.1 := by
  obtain ⟨code, -, rfl⟩ | rfl | rfl := txWaitPowerOnArm_cases h
  · exact keepsFirstError_signalIdle code t
  · exact .of_untouched rfl rfl
  · exact .of_untouched rfl rfl

theorem txRunningCheckDataArm_keepsFirstError (h : txRunningCheckDataArm c i ev t = .ok r) :
    KeepsFirstError t r.1 := by
  obtain ⟨code, -, rfl⟩ | ⟨-, off, rfl⟩ | ⟨-, off, rfl⟩ | ⟨-, rfl⟩ := txRunningCheckDataArm_cases h
  · exact keepsFirstError_abortTx c i.now code t
  · exact .of_untouched rfl rfl
  · exact .of_untouched rfl rfl
  · exact .of_untouched rfl rfl

/-- The move to RunningCheckData writes neither error register, so the arm fallen through into (R237)
keeps the error of the whole tick. -/
theorem txStartedWaitForBusyArm_keepsFirstError (h : txStartedWaitForBusyArm c i ev t = .ok r) :
    KeepsFirstError t r.1 := by
  obtain ⟨code, -, rfl⟩ | ⟨-, through⟩ | ⟨-, rfl⟩ | rfl := txStartedWaitForBusyArm_cases h
  · exact keepsFirstError_abortTx c i.now code t
  · exact txRunningCheckDataArm_keepsFirstError (t := enteredCheck c i ev t) through
  · exact .of_untouched rfl rfl
  · exact .of_untouched rfl rfl

theorem txRunningWaitForIdleArm_keepsFirstError (h : txRunningWaitForIdleArm i t = .ok r) :
    KeepsFirstError t r.1 := by
  have powered : KeepsFirstError t (powerDown i t).1 := by
    rw [powerDown_eq]
    exact .of_untouched rfl rfl
  obtain rfl | ⟨code, -, rfl⟩ | rfl := txRunningWaitForIdleArm_cases h
  · exact powered.trans (.of_untouched rfl rfl)
  · exact powered.trans (keepsFirstError_signalIdle code _)
  · exact powered

/-! ### One tick -/

/-- The prologue writes neither error register. -/
theorem txTick_keepsFirstError (h : txTick c i ev t = .ok r) (waiting : .reqTaken ∉ r.2) :
    KeepsFirstError t r.1 := by
  suffices KeepsFirstError (prologue ev t) r.1 from this
  rw [txTick_eq] at h
  cases hs : t.st <;> rw [hs] at h
  case idle => exact txIdleArm_keepsFirstError h waiting
  case idleWaitLineFree => exact txIdleWaitLineFreeArm_keepsFirstError h
  case waitPowerOn => exact txWaitPowerOnArm_keepsFirstError h
  case startedWaitForBusy => exact txStartedWaitForBusyArm_keepsFirstError h
  case runningCheckData => exact txRunningCheckDataArm_keepsFirstError h
  case runningWaitForIdle => exact txRunningWaitForIdleArm_keepsFirstError h

/-- A tick that takes a request does nothing else (R234). -/
theorem TickEffect.of_reqTaken {t' : Tx} {acts : List Action} (h : TickEffect t t' acts)
    (taken : .reqTaken ∈ acts) : acts = [.reqTaken] := by
  cases h with
  | taken => rfl
  | _ => simp [-List.map_take] at taken

/-- A request is taken in Idle only: an attempt going on would have to end on the same tick. -/
theorem st_eq_idle_of_reqTaken (h : txTick c i ev t = .ok r) (taken : .reqTaken ∈ r.2) :
    t.st = .idle := by
  by_contra begun
  have balance := txTick_balanced h
  rw [Balanced, (txTick_effect h).of_reqTaken taken, attemptsGoingOn_of_ne begun] at balance
  have atMostOne : attemptsGoingOn r.1 ≤ 1 := by
    unfold attemptsGoingOn
    split <;> omega
  simp [Action.isDone] at balance
  omega

/-- Taking a request clears the error of the last attempt (R289). -/
theorem txTick_reqTaken_clears (h : txTick c i ev t = .ok r) (taken : .reqTaken ∈ r.2) :
    r.1.err = false ∧ r.1.status = .ok := by
  rw [txTick_eq, st_eq_idle_of_reqTaken h taken] at h
  obtain rfl | ⟨bs, msg, len, -, -, rfl⟩ := txIdleArm_cases h
  · cases taken
  · exact ⟨rfl, rfl⟩

end

theorem newActions_emit {s n : State} (sameOut : n.out = s.out) (acts : List Action) :
    newActions s (n.emit acts) = acts := by
  rw [newActions, State.emit_out, sameOut, List.drop_left]

/-- A CTL.TICK that answers is a tick of the arbiter, which alone takes requests (R231). -/
theorem ctlTick_is_txTick {i : CtlIn} {s t : State} (h : exec (.ctlTick i) s = .next t) :
    ∃ ev acts, txTick s.cfg i ev s.tx = .ok (t.tx, acts) ∧
      (.reqTaken ∈ newActions s t ↔ .reqTaken ∈ acts) := by
  rw [exec_ctlTick] at h
  obtain ⟨-, hr⟩ := ctlOp_next_iff.1 h
  obtain ⟨⟨tx, acts⟩, tick, rfl⟩ := map_ok_iff.1 hr
  refine ⟨_, acts, tick, ?_⟩
  rw [newActions_emit]
  case sameOut => rfl
  exact ⟨fun taken => mem_of_mem_tickReports_append taken (by simp) (by simp),
    List.mem_append_right _⟩

/-- Settles O52: whether a request is taken is told by the arbiter's own actions. -/
theorem firstErrorOfAnAttemptStays : Obligations.FirstErrorOfAnAttemptStays := by
  intro i s t h
  obtain ⟨ev, acts, tick, request⟩ := ctlTick_is_txTick h
  rw [request]
  exact ⟨fun failed waiting => txTick_keepsFirstError tick waiting failed,
    fun taken => txTick_reqTaken_clears tick taken⟩

end Sys2Proof.Machine
end

section
/-! PROOFS. The two resets and the stops (R172, R232, R320 to R323): a reset passes the check of R322 and
writes the values of R50, or it is `Fault(Config)`; an operation of an agent, or an arm, that cannot run
stops before it computes anything. -/
namespace Sys2Proof.Machine

/-! ### The resets (R320, R321) -/

theorem exec_acqReset_of_not_legal {s : State} (h : ¬ CfgLegal s.cfg) :
    exec .acqReset s = .fault .config := if_neg (by simp [cfgOk_of_not_legal h])

theorem exec_ctlReset_of_not_legal {s : State} (h : ¬ CfgLegal s.cfg) :
    exec .ctlReset s = .fault .config := if_neg (by simp [cfgOk_of_not_legal h])

/-- Settles O7: the check passes or it fails. -/
theorem acqResetWritesTheResetValues : Obligations.AcqResetWritesTheResetValues :=
  fun _ => ⟨exec_acqReset_of_legal, exec_acqReset_of_not_legal⟩

/-- Settles O8: the check passes or it fails. -/
theorem ctlResetWritesTheResetValues : Obligations.CtlResetWritesTheResetValues :=
  fun _ => ⟨exec_ctlReset_of_legal, exec_ctlReset_of_not_legal⟩

theorem exec_acqReset_eq_config_iff {s : State} :
    exec .acqReset s = .fault .config ↔ ¬ CfgLegal s.cfg := by
  refine ⟨fun refused legal => ?_, exec_acqReset_of_not_legal⟩
  rw [exec_acqReset_of_legal legal] at refused
  cases refused

theorem exec_ctlReset_eq_config_iff {s : State} :
    exec .ctlReset s = .fault .config ↔ ¬ CfgLegal s.cfg := by
  refine ⟨fun refused legal => ?_, exec_ctlReset_of_not_legal⟩
  rw [exec_ctlReset_of_legal legal] at refused
  cases refused

/-! ### The conditions of R322 -/

/-- `FIR_COEF[i] = FIR_COEF[6−i]` for `i = 0..2`, coefficient by coefficient. -/
theorem firK_symmetric_iff (c : Config) :
    (∀ i, i < 3 → (firK c).getD i 0 = (firK c).getD (6 - i) 0) ↔
      c.firCoef.k0 = c.firCoef.k6 ∧ c.firCoef.k1 = c.firCoef.k5 ∧ c.firCoef.k2 = c.firCoef.k4 := by
  simp only [Nat.forall_lt_succ_right, Nat.not_lt_zero, false_implies, implies_true, true_and,
    and_assoc]
  rfl

/-- The codes of R102 are the values up to 2. -/
theorem parity_mem_codes_iff (p : BitVec 2) : p = 0 ∨ p = 1 ∨ p = 2 ↔ p.toNat ≤ 2 := by
  revert p
  decide

/-- A time bound is below `2^31` by its type (R48), so R322 asks only that it is not 0. -/
theorem timeBounds_iff (c : Config) :
    (∀ T ∈ [c.tWaitFree, c.tPowerOn, c.tStart, c.tByte, c.tWaitIdle],
      1 ≤ T.toNat ∧ T.toNat ≤ 2 ^ 31 - 1) ↔
    1 ≤ c.tWaitFree.toNat ∧ 1 ≤ c.tPowerOn.toNat ∧ 1 ≤ c.tStart.toNat ∧
      1 ≤ c.tByte.toNat ∧ 1 ≤ c.tWaitIdle.toNat := by
  have below (T : BitVec 31) : T.toNat ≤ 2 ^ 31 - 1 := Nat.le_sub_one_of_lt T.isLt
  simp only [List.forall_mem_cons, List.not_mem_nil, false_implies, implies_true, below, and_true]

/-- Settles O9: the conditions written out are those of the check, which leaves out the ones that a
type of R48 gives. -/
theorem resetsRefuseExactlyTheIllegalConfigurations :
    Obligations.ResetsRefuseExactlyTheIllegalConfigurations := by
  intro s c legal
  have agree : CfgLegal c ↔ legal := by
    have coefs : ∀ k ∈ firK c, InSW k.toInt := fun k _ => inSW_toInt k
    have high : c.thHigh.toInt < 2 ^ 31 := BitVec.toInt_lt
    have q : c.dcQ.toNat ≤ 15 := Nat.le_of_lt_succ c.dcQ.isLt
    have err : c.errNum.toNat ≤ 255 := Nat.le_of_lt_succ c.errNum.isLt
    have msg : c.msgMax.toNat ≤ 255 := Nat.le_of_lt_succ c.msgMax.isLt
    simp only [legal, CfgLegal, rxThresh, osr, firK_symmetric_iff, parity_mem_codes_iff,
      timeBounds_iff, Nat.even_iff, eq_true coefs, c.firShift.isLt, c.rsDrop.isLt, high, q, err, msg,
      and_true, true_and, and_assoc]
  rw [exec_acqReset_eq_config_iff, exec_ctlReset_eq_config_iff, agree]
  exact ⟨Iff.rfl, Iff.rfl⟩

/-! ### The stops (R323, R172, R232) -/

theorem udArm_down {s : State} (h : s.acqUp = false) (st : UdState) (r : Except Fault State) :
    udArm s st r = .fault .beforeReset := by simp [udArm, h]

theorem txArm_down {s : State} (h : s.ctlUp = false) (st : TxState) (r : Except Fault State) :
    txArm s st r = .fault .beforeReset := by simp [txArm, h]

theorem udArm_not_selected {s : State} {st : UdState} (h : s.acqUp = true) (hs : s.acq.udSt ≠ st)
    (r : Except Fault State) : udArm s st r = .refused .armNotSelected := by simp [udArm, h, hs]

theorem txArm_not_selected {s : State} {st : TxState} (h : s.ctlUp = true) (hs : s.tx.st ≠ st)
    (r : Except Fault State) : txArm s st r = .refused .armNotSelected := by simp [txArm, h, hs]

theorem exec_udArmOf (st : UdState) (p : SW) (s : State) :
    ∃ r, exec (udArmOf st p) s = udArm s st r := by
  cases st <;> exact ⟨_, rfl⟩

theorem exec_txArmOf (st : TxState) (i : CtlIn) (ev : U32) (s : State) :
    ∃ r, exec (txArmOf st i ev) s = txArm s st r := by
  cases st <;> exact ⟨_, rfl⟩

/-- The acquisition agent's operations are a computation under `acqOp`, or an arm of UD.UPDATE. -/
theorem acquisition_forms {i : Instr} (hi : agentOf i = .acquisition) (hr : i ≠ .acqReset)
    (s : State) : (∃ r, exec i s = acqOp s r) ∨ ∃ st p, i = udArmOf st p := by
  cases i <;> cases hi
  case acqReset => exact absurd rfl hr
  case udWaitIdle p => exact .inr ⟨.waitIdle, p, rfl⟩
  case udWaitStart p => exact .inr ⟨.waitStart, p, rfl⟩
  case udData p => exact .inr ⟨.data, p, rfl⟩
  case udStop p => exact .inr ⟨.stop, p, rfl⟩
  all_goals exact .inl ⟨_, rfl⟩

/-- The control agent's operations are a computation under `ctlOp`, or an arm of TX.TICK. -/
theorem control_forms {i : Instr} (hi : agentOf i = .control) (hr : i ≠ .ctlReset)
    (s : State) : (∃ r, exec i s = ctlOp s r) ∨ ∃ st p ev, i = txArmOf st p ev := by
  cases i <;> cases hi
  case ctlReset => exact absurd rfl hr
  case txIdle p ev => exact .inr ⟨.idle, p, ev, rfl⟩
  case txIdleWaitLineFree p ev => exact .inr ⟨.idleWaitLineFree, p, ev, rfl⟩
  case txWaitPowerOn p ev => exact .inr ⟨.waitPowerOn, p, ev, rfl⟩
  case txStartedWaitForBusy p ev => exact .inr ⟨.startedWaitForBusy, p, ev, rfl⟩
  case txRunningCheckData p ev => exact .inr ⟨.runningCheckData, p, ev, rfl⟩
  case txRunningWaitForIdle p ev => exact .inr ⟨.runningWaitForIdle, p, ev, rfl⟩
  all_goals exact .inl ⟨_, rfl⟩

theorem exec_acquisition_down {i : Instr} {s : State} (hi : agentOf i = .acquisition)
    (hr : i ≠ .acqReset) (down : s.acqUp = false) : exec i s = .fault .beforeReset := by
  obtain ⟨r, op⟩ | ⟨st, p, rfl⟩ := acquisition_forms hi hr s
  · rw [op, acqOp_down down]
  · obtain ⟨r, arm⟩ := exec_udArmOf st p s
    rw [arm, udArm_down down]

theorem exec_control_down {i : Instr} {s : State} (hi : agentOf i = .control)
    (hr : i ≠ .ctlReset) (down : s.ctlUp = false) : exec i s = .fault .beforeReset := by
  obtain ⟨r, op⟩ | ⟨st, p, ev, rfl⟩ := control_forms hi hr s
  · rw [op, ctlOp_down down]
  · obtain ⟨r, arm⟩ := exec_txArmOf st p ev s
    rw [arm, txArm_down down]

/-- Settles O11: an operation looks at its agent's flag first, and an arm then at its state. -/
theorem stopsWhereThereIsNoStep : Obligations.StopsWhereThereIsNoStep := by
  refine ⟨fun i s notAcq notCtl => ⟨fun hi => exec_acquisition_down hi notAcq,
    fun hi => exec_control_down hi notCtl⟩, fun st p s up other => ?_, fun st i ev s up other => ?_⟩
  · obtain ⟨r, arm⟩ := exec_udArmOf st p s
    rw [arm, udArm_not_selected up other]
  · obtain ⟨r, arm⟩ := exec_txArmOf st i ev s
    rw [arm, txArm_not_selected up other]

end Sys2Proof.Machine
end

section
/-! PROOFS. The ranges (R324 to R326): the FIR's accumulator, the DC blocker's state and the bit
detector's sums stay in `sW` while the inputs stay within their bounds, and the registers keep the
bounds. -/
namespace Sys2Proof.Machine

theorem inSW_of_natAbs_le {v : Int} (h : v.natAbs ≤ 2147483647) : InSW v := by
  unfold InSW
  omega

/-! ### The DC blocker (R325) -/

/-- The decay `A / P` rounds toward zero, so it leaves a state between 0 and where it was. -/
theorem tdiv_decay_of_nonneg {A P : Nat} (decay : A < P) {v : Int} (h : 0 ≤ v) :
    0 ≤ tdiv (A * v) P ∧ tdiv (A * v) P ≤ v := by
  lift v to Nat using h
  have smaller : A * v / P ≤ v := Nat.div_le_of_le_mul (Nat.mul_le_mul_right v decay.le)
  rw [tdiv, ← Nat.cast_mul, ← Int.ofNat_tdiv]
  exact ⟨Int.natCast_nonneg _, by exact_mod_cast smaller⟩

/-- Whatever is as near to 0 as to a state is as near to the decayed state. -/
theorem natAbs_decay_sub_le {A P : Nat} (decay : A < P) {v m : Int} {b : Nat}
    (state : (v - m).natAbs ≤ b) (zero : m.natAbs ≤ b) : (tdiv (A * v) P - m).natAbs ≤ b := by
  rcases le_total 0 v with nonneg | nonpos
  · have between := tdiv_decay_of_nonneg decay nonneg
    omega
  · have between := tdiv_decay_of_nonneg decay (Int.neg_nonneg.2 nonpos)
    rw [mul_neg, tdiv, Int.neg_tdiv] at between
    rw [tdiv]
    omega

/-- The DC blocker's registers, for inputs within `X` (R325): the last input is within `X`, and the
state within `(X+1) × 2^Q` of the last input times `2^Q`. -/
def DcInRange (c : Config) (X : Nat) (a : Acq) : Prop :=
  a.dcXp.toInt.natAbs ≤ X ∧
  (a.dcYa.toInt - a.dcXp.toInt * 2 ^ c.dcQ.toNat).natAbs ≤ (X + 1) * 2 ^ c.dcQ.toNat

theorem natAbs_mul_two_pow (v : Int) (n : Nat) : (v * 2 ^ n).natAbs = v.natAbs * 2 ^ n := by
  rw [Int.natAbs_mul, Int.natAbs_pow]
  rfl

/-- The new state is as near to the new input as the old one was to the old input. -/
theorem DcInRange.next_near {c : Config} {X : Nat} {a : Acq} (h : DcInRange c X a)
    (hc : LegalBounds c) (x : SW) :
    (dcNext c a x - x.toInt * 2 ^ c.dcQ.toNat).natAbs ≤ (X + 1) * 2 ^ c.dcQ.toNat := by
  obtain ⟨last, near⟩ := h
  have zero : (a.dcXp.toInt * 2 ^ c.dcQ.toNat).natAbs ≤ (X + 1) * 2 ^ c.dcQ.toNat := by
    rw [natAbs_mul_two_pow]
    exact Nat.mul_le_mul_right _ (Nat.le_succ_of_le last)
  have decayed := natAbs_decay_sub_le hc.a_lt near zero
  push_cast at decayed
  have step : dcNext c a x - x.toInt * 2 ^ c.dcQ.toNat =
      tdiv (c.dcA.toNat * a.dcYa.toInt) (2 ^ c.dcQ.toNat) - a.dcXp.toInt * 2 ^ c.dcQ.toNat := by
    rw [dcNext]
    ring
  rwa [step]

theorem natAbs_dcNext_le {c : Config} {X : Nat} {a : Acq} (h : DcInRange c X a)
    (hc : LegalBounds c) {x : SW} (small : x.toInt.natAbs ≤ X) :
    (dcNext c a x).natAbs ≤ (2 * X + 1) * 2 ^ c.dcQ.toNat := by
  have near := h.next_near hc x
  have input : (x.toInt * 2 ^ c.dcQ.toNat).natAbs ≤ X * 2 ^ c.dcQ.toNat := by
    rw [natAbs_mul_two_pow]
    exact Nat.mul_le_mul_right _ small
  have split : (2 * X + 1) * 2 ^ c.dcQ.toNat = X * 2 ^ c.dcQ.toNat + (X + 1) * 2 ^ c.dcQ.toNat := by
    ring
  omega

/-- With `X <= 2^(W−3−Q)` the bound of the state is half of `sW` and one more `2^Q`. -/
theorem dcBound_lt {c : Config} {X : Nat} (bound : X * 2 ^ (c.dcQ.toNat + 2) ≤ 2147483648) :
    (2 * X + 1) * 2 ^ c.dcQ.toNat < 2147483648 := by
  have unit : 2 ^ c.dcQ.toNat ≤ 2 ^ 15 :=
    Nat.pow_le_pow_right Nat.two_pos (Nat.le_of_lt_succ c.dcQ.isLt)
  calc (2 * X + 1) * 2 ^ c.dcQ.toNat
      = X * 2 ^ (c.dcQ.toNat + 2) / 2 + 2 ^ c.dcQ.toNat := by
        rw [show X * 2 ^ (c.dcQ.toNat + 2) = 2 * (2 * X * 2 ^ c.dcQ.toNat) by ring,
          Nat.mul_div_cancel_left _ Nat.two_pos]
        ring
    _ < 2147483648 := by omega

/-- Once and for all: DC.UPDATE within its range answers, and keeps it. -/
theorem DcInRange.dcUpdate {c : Config} {X : Nat} {a : Acq} (h : DcInRange c X a)
    (hc : LegalBounds c) (bound : X * 2 ^ (c.dcQ.toNat + 2) ≤ 2147483648) {x : SW}
    (small : x.toInt.natAbs ≤ X) :
    ∃ ya y, Machine.dcUpdate c a x = .ok ({ a with dcXp := x, dcYa := ya }, y) ∧
      y.toInt.natAbs ≤ 2 * X + 1 ∧ ya.toInt.natAbs ≤ (2 * X + 1) * 2 ^ c.dcQ.toNat ∧
      DcInRange c X { a with dcXp := x, dcYa := ya } := by
  have state := natAbs_dcNext_le h hc small
  have fits : InSW (dcNext c a x) :=
    inSW_of_natAbs_le (state.trans (Nat.le_of_lt_succ (dcBound_lt bound)))
  have output : (tdiv (dcNext c a x) (2 ^ c.dcQ.toNat)).natAbs ≤ 2 * X + 1 := by
    rw [tdiv, Int.natAbs_tdiv, Int.natAbs_pow]
    exact Nat.div_le_of_le_mul (state.trans_eq (Nat.mul_comm _ _))
  refine ⟨_, _, dcUpdate_of_inSW fits, ?_, ?_, small, ?_⟩
  · rwa [toInt_ofInt_of_inSW (inSW_tdiv fits _ (by positivity))]
  · rwa [toInt_ofInt_of_inSW fits]
  · simp only [toInt_ofInt_of_inSW fits]
    exact h.next_near hc x

/-- Settles O20: the range of R325 is kept. -/
theorem dcBlockerStaysInRange : Obligations.DcBlockerStaysInRange := by
  intro X x s up legal bound last near small
  obtain ⟨ya, y, answer, output, state, range'⟩ :=
    DcInRange.dcUpdate ⟨last, near⟩ legal.bounds bound small
  have step : exec (.dcUpdate x) s =
      .next ((s.withAcq { s.acq with dcXp := x, dcYa := ya }).withRet (.sample y)) := by
    rw [exec_dcUpdate, acqOp_up up, answer]
    rfl
  obtain ⟨-, near'⟩ := range'
  exact ⟨_, y, step, rfl, rfl, output, state, near'⟩

/-! ### Windows -/

/-- Every entry of the window is within `B`. -/
def Within (B : Nat) (S : List SW) : Prop := ∀ v ∈ S, v.toInt.natAbs ≤ B

theorem Within.push {B : Nat} {S : List SW} (h : Within B S) {x : SW} (small : x.toInt.natAbs ≤ B) :
    Within B (S.tail ++ [x]) := by
  intro v hv
  rcases List.mem_append.1 hv with old | new
  · exact h v (List.mem_of_mem_tail old)
  · rwa [List.mem_singleton.1 new]

theorem Within.drop {B : Nat} {S : List SW} (h : Within B S) (n : Nat) : Within B (S.drop n) :=
  fun v hv => h v (List.mem_of_mem_drop hv)

theorem Within.natAbs_getD_le {B : Nat} {S : List SW} (h : Within B S) (i : Nat) :
    (S.getD i 0).toInt.natAbs ≤ B := by
  rw [List.getD_eq_getElem?_getD]
  cases entry : S[i]? with
  | none => simp
  | some v => exact h v (List.mem_of_getElem? entry)

/-- A sum of `n` entries is within `n × B`. -/
theorem Within.natAbs_sum_take_le {B : Nat} {S : List SW} (h : Within B S) (n : Nat) :
    (((S.take n).map BitVec.toInt).sum).natAbs ≤ n * B := by
  induction n generalizing S with
  | zero => simp
  | succ n ih =>
    cases S with
    | nil => simp
    | cons v S =>
      obtain ⟨first, rest⟩ := List.forall_mem_cons.1 h
      have sum := ih rest
      rw [List.take_succ_cons, List.map_cons, List.sum_cons, Nat.succ_mul]
      omega

/-! ### The FIR (R324) -/

/-- An accumulator that can take the magnitudes of all products can take the products. -/
theorem accFits_of_magnitudes {v : Int} {ps : List Int}
    (h : v.natAbs + (ps.map Int.natAbs).sum ≤ 2147483647) : AccFits v ps := by
  induction ps generalizing v with
  | nil => exact accFits_nil.2 (inSW_of_natAbs_le (by simpa using h))
  | cons p ps ih =>
    rw [List.map_cons, List.sum_cons] at h
    exact accFits_cons.2 ⟨inSW_of_natAbs_le (by omega), inSW_of_natAbs_le (by omega), ih (by omega)⟩

/-- The products of a window within `X` with the coefficients, in magnitude (R324). -/
theorem Within.sum_natAbs_dotTerms_le {X : Nat} {S : List SW} (h : Within X S) (K : List SW) :
    ((dotTerms S K).map Int.natAbs).sum ≤ X * (K.map fun k => k.toInt.natAbs).sum := by
  induction S generalizing K with
  | nil => simp [dotTerms]
  | cons v S ih =>
    cases K with
    | nil => simp [dotTerms]
    | cons k K =>
      obtain ⟨first, rest⟩ := List.forall_mem_cons.1 h
      calc ((dotTerms (v :: S) (k :: K)).map Int.natAbs).sum
          = v.toInt.natAbs * k.toInt.natAbs + ((dotTerms S K).map Int.natAbs).sum := by
            rw [← Int.natAbs_mul]
            rfl
        _ ≤ X * k.toInt.natAbs + X * (K.map fun k => k.toInt.natAbs).sum :=
            Nat.add_le_add (Nat.mul_le_mul_right _ first) (ih rest K)
        _ = X * ((k :: K).map fun k => k.toInt.natAbs).sum := by
            rw [List.map_cons, List.sum_cons, Nat.mul_add]

/-- The floor of a value within `Y × 2^n` is within `Y`. -/
theorem natAbs_asr_le {v : Int} {Y n : Nat} (h : v.natAbs ≤ Y * 2 ^ n) : (asr v n).natAbs ≤ Y := by
  have pos : (0 : Int) < 2 ^ n := by positivity
  have bounds : -((Y : Int) * 2 ^ n) ≤ v ∧ v ≤ Y * 2 ^ n := by
    zify at h
    exact abs_le.1 h
  have low : -(Y : Int) ≤ asr v n := (Int.le_ediv_iff_mul_le pos).2 (by linarith)
  have high : asr v n ≤ Y := Int.ediv_le_of_le_mul pos bounds.2
  omega

/-- Once and for all: FIR.UPDATE on a window within `X` answers within `Y`. -/
theorem firUpdate_of_within {c : Config} {X Y : Nat} {a : Acq} (range : RangeOk c X Y)
    (hne : a.firX ≠ []) (window : Within X a.firX) {x : SW} (small : x.toInt.natAbs ≤ X) :
    ∃ y, firUpdate c a x = .ok ({ a with firX := a.firX.tail ++ [x] }, y) ∧ y.toInt.natAbs ≤ Y := by
  obtain ⟨accumulator, output, -, -⟩ := range
  have products := (window.push small).sum_natAbs_dotTerms_le (firK c)
  have total : (dotTerms (a.firX.tail ++ [x]) (firK c)).sum.natAbs ≤ X * coefAbsSum c :=
    (List.le_sum_of_subadditive Int.natAbs le_rfl Int.natAbs_add_le _).trans products
  obtain ⟨acc, answer, sum⟩ := srConv_of_accFits (accFits_of_magnitudes (v := 0)
    ((Nat.zero_add _).trans_le (products.trans accumulator)))
  refine ⟨_, firUpdate_of_conv hne answer, ?_⟩
  rw [toInt_ofInt_of_inSW (inSW_asr (inSW_toInt acc) _), sum]
  exact natAbs_asr_le (total.trans output)

/-! ### The bit detector (R326) -/

/-- What is reported is the difference of the two sums, their sum, or 0 (R162). -/
theorem natAbs_symbolProb_le (c : Config) (high energy : Int) :
    (symbolProb c high energy).natAbs ≤ high.natAbs + energy.natAbs := by
  unfold symbolProb
  repeat' split
  all_goals omega

/-- Once and for all: BD.UPDATE on windows within `B` answers, while `N` entries of magnitude `B` sum to
a value of `sW`; what it pushes is within `B`. -/
theorem AcqInv.bdUpdate_of_within {c : Config} {B : Nat} {a : Acq} (inv : AcqInv c a)
    (hc : LegalBounds c) (raw : Within B a.bdRaw) (ab : Within B a.bdAb)
    (bound : B * osr c ≤ 2147483647) {x : SW} (small : x.toInt.natAbs ≤ B) :
    ∃ mag p, Machine.bdUpdate c a x =
        .ok ({ a with bdRaw := a.bdRaw.tail ++ [x], bdAb := a.bdAb.tail ++ [mag] }, p) ∧
      mag.toInt.natAbs ≤ B := by
  obtain ⟨-, fullRaw, fullAb, -⟩ := inv
  have four := hc.osr_ge
  have magnitude : InSW (x.toInt.natAbs : Int) := by
    have one : B * 1 ≤ B * osr c := Nat.mul_le_mul_left B (by omega)
    exact inSW_of_natAbs_le (by omega)
  have mag : (BitVec.ofInt 32 (x.toInt.natAbs : Int)).toInt.natAbs ≤ B := by
    rwa [toInt_ofInt_of_inSW magnitude]
  have high := ((raw.push small).drop 1).natAbs_sum_take_le (osr c / 2)
  have lead := (ab.push mag).natAbs_getD_le 0
  have tail := ((ab.push mag).drop (osr c / 2 + 1)).natAbs_sum_take_le (osr c - 1 - osr c / 2)
  have sizes : osr c / 2 * B + (B + (osr c - 1 - osr c / 2) * B) = B * osr c := by
    rw [Nat.add_comm B, ← Nat.succ_mul, ← Nat.add_mul, Nat.mul_comm B]
    congr 1
    omega
  refine ⟨_, _, (bdUpdate_of_length x hc fullRaw fullAb).trans (if_pos ⟨magnitude,
    inSW_of_natAbs_le ?high, inSW_of_natAbs_le ?energy,
    inSW_of_natAbs_le ((natAbs_symbolProb_le c _ _).trans ?score)⟩), mag⟩
  case high => omega
  case energy => omega
  case score => omega

/-! ### The chain (R326) -/

/-- R24 is what the Resampler needs to answer; what it passes is its input. -/
theorem AcqInv.rsUpdate_answers {c : Config} {a : Acq} (inv : AcqInv c a) (x : SW) :
    ∃ cnt r, Machine.rsUpdate c a x = .ok ({ a with rsCnt := cnt }, r) ∧ ∀ v, r = some v → v = x := by
  obtain ⟨-, -, -, -, counter, -⟩ := inv
  refine ⟨_, _, rsUpdate_of_le x counter, fun v passed => ?_⟩
  split at passed <;> cases passed
  rfl

/-- R181 is what the decoder needs to answer. -/
theorem AcqInv.udUpdate_answers {c : Config} {a : Acq} (inv : AcqInv c a) (hc : LegalBounds c)
    (p : SW) : ∃ a' ev, Machine.udUpdate c a p = .ok (a', ev) := by
  obtain ⟨-, -, -, full, -, counting, -⟩ := inv
  obtain ⟨⟨a', ev⟩, answer⟩ := Machine.udUpdate_answers p hc full counting.2
  exact ⟨a', ev, answer⟩

/-- R203 is what the line-busy tracker needs to answer. -/
theorem AcqInv.lbUpdate_answers {c : Config} {a : Acq} (inv : AcqInv c a) (rcv : Bool) :
    ∃ a' ed, Machine.lbUpdate c a rcv = .ok (a', ed) := by
  obtain ⟨-, -, -, -, -, -, -, counting, -⟩ := inv
  obtain ⟨⟨a', ed⟩, answer⟩ := Machine.lbUpdate_answers c rcv fun busy => (counting busy).1
  exact ⟨a', ed, answer⟩

/-- The ranges of a chain, component by component. -/
theorem chainInRange_iff {c : Config} {X Y : Nat} {a : Acq} : ChainInRange c X Y a ↔
    Within X a.firX ∧ DcInRange c Y a ∧ Within (2 * Y + 1) a.bdRaw ∧ Within (2 * Y + 1) a.bdAb :=
  and_congr_right fun _ => and_assoc.symm

/-- Once and for all: a sample within `Y` that the Resampler passed completes, and the registers keep
their ranges; the FIR's window is not one of those written. -/
theorem processSample_of_inRange {c : Config} {X Y : Nat} {a : Acq} (hc : LegalBounds c)
    (range : RangeOk c X Y) (inv : AcqInv c a) (h : ChainInRange c X Y a) {r : SW}
    (small : r.toInt.natAbs ≤ Y) :
    ∃ a' w, processSample c a r = .ok (a', w) ∧ ChainInRange c X Y a' ∧ a'.firX = a.firX := by
  obtain ⟨window, dc, raw, ab⟩ := chainInRange_iff.1 h
  obtain ⟨-, -, dcBound, bdBound⟩ := range
  obtain ⟨ya, y2, hdc, small2, -, dc'⟩ := dc.dcUpdate hc dcBound small
  have inv2 := inv.dcUpdate hdc
  have hlv := lvUpdate_of_legal hc { a with dcXp := r, dcYa := ya } y2
  have small3 := (lvUpdate_natAbs_le hc hlv).trans small2
  have inv3 := inv2.lvUpdate hlv
  obtain ⟨mag, p, hbd, smallMag⟩ := inv3.bdUpdate_of_within hc raw ab bdBound small3
  have inv4 := inv3.bdUpdate hbd
  obtain ⟨a5, ev, hud⟩ := inv4.udUpdate_answers hc p
  obtain ⟨a6, ed, hlb⟩ := (inv4.udUpdate hc hud).lbUpdate_answers (receiving a5)
  refine ⟨a6, packEvent ev ed.busy ed.free, by simp only [processSample, hdc, hlv, hbd, hud, hlb], ?_⟩
  rw [lbUpdate_frame hlb, udUpdate_frame hud]
  exact ⟨chainInRange_iff.2 ⟨window, dc', raw.push small3, ab.push smallMag⟩, rfl⟩

/-- Once and for all: a raw sample within `X` completes, and the registers keep their ranges. -/
theorem acqChain_of_inRange {c : Config} {X Y : Nat} {a : Acq} (hc : LegalBounds c)
    (range : RangeOk c X Y) (inv : AcqInv c a) (h : ChainInRange c X Y a) {x : SW}
    (small : x.toInt.natAbs ≤ X) :
    ∃ a' w, acqChain c a x = .ok (a', w) ∧ ChainInRange c X Y a' ∧
      a'.firX = a.firX.tail ++ [x] := by
  obtain ⟨window, others⟩ := h
  obtain ⟨y1, hfir, small1⟩ := firUpdate_of_within range inv.firX_ne window small
  have inv1 := inv.firUpdate hfir
  obtain ⟨cnt, r, hrs, passed⟩ := inv1.rsUpdate_answers y1
  have inv2 := inv1.rsUpdate hrs
  have h2 : ChainInRange c X Y { a with firX := a.firX.tail ++ [x], rsCnt := cnt } :=
    ⟨Within.push window small, others⟩
  cases r with
  | none => exact ⟨_, 0, by simp only [acqChain, hfir, hrs], h2, rfl⟩
  | some v =>
    obtain rfl := passed v rfl
    obtain ⟨a', w, answer, h', firX⟩ := processSample_of_inRange hc range inv2 h2 small1
    exact ⟨a', w, by simpa only [acqChain, hfir, hrs] using answer, h', firX⟩

/-- Settles O39: the chain completes within its ranges (R326), and it keeps the invariant. -/
theorem samplesInRangeNeverFault : Obligations.SamplesInRangeNeverFault := by
  intro X Y x s up legal range inv h small
  obtain ⟨a, w, answer, h', firX⟩ := acqChain_of_inRange legal.bounds range inv h small
  refine ⟨a, if w = 0 then s.xc else chanPush s.xc w, ?_, h', inv.acqChain legal.bounds answer, firX⟩
  rw [exec_acqSample, acqOp_up up, answer]
  rfl

end Sys2Proof.Machine
end
